-- ==== Sys2Proof/Word.lean ====
section
/-! DEFINITION. The widths of the chunker's interface (00_scope.md R9, 20_memory.md R46). -/

namespace Sys2Proof

/-- One element of DATA_IN or DATA_OUT (R9: data channel width 8 bits). -/
abbrev Byte := BitVec 8

/-- One element of CMD_IN or RSP_OUT (R9: command and response words of 32 bits). -/
abbrev Word := BitVec 32

/-- The ARG field of a command and the COUNT field of a response (R9: 28 bits, unsigned). -/
abbrev Arg := BitVec 28

end Sys2Proof
end

