-- ==== Sys2Proof/Syntax.lean ====
section
/-! DEFINITION. The commands of the opcode table (30_encoding.md R61). -/

namespace Sys2Proof

/-- The three commands. Operands are unsigned natural numbers (00_scope.md R11); `Instr.WellFormed` bounds them. -/
inductive Instr where
  /-- INIT: start the session with block size `b` in bytes (R62, R80). -/
  | init (b : Nat)
  /-- FEED: absorb the next `l` bytes of DATA_IN (R63, R81). -/
  | feed (l : Nat)
  /-- FLUSH: return the carry and end the session (R64, R82). -/
  | flush
  deriving DecidableEq, Repr

end Sys2Proof
end

