-- ==== Sys2Proof/WellFormed.lean ====
section
/-! DEFINITION. Which commands have an encoding (30_encoding.md R62 to R64). -/

namespace Sys2Proof

/-- INIT's block size and FEED's chunk length fit the 28-bit ARG field: `0` to `2^28 - 1` (R62, R63, R70).
FLUSH takes no operand (R64). A block size of 0, or above `B_MAX`, is well-formed: it is rejected when the command
executes, not when it is decoded (R62). -/
def Instr.wellFormed : Instr → Bool
  | .init b => decide (b < 2 ^ 28)
  | .feed l => decide (l < 2 ^ 28)
  | .flush => true

/-- `Instr.wellFormed` as a proposition. -/
abbrev Instr.WellFormed (i : Instr) : Prop := i.wellFormed = true

end Sys2Proof
end

