-- ==== Sys2Proof/Decode.lean ====
section
/-! DEFINITION. Command words: fields, decoder, encoder (30_encoding.md R60 to R69). A command is one 32-bit word that
travels whole (R68, 20_memory.md R44), so the decoder reads a word and no byte order arises. -/

namespace Sys2Proof

/-- `w[31:28]`, the OP field of a command and the STATUS field of a response (R60, R66). -/
def opField (w : Word) : BitVec 4 := w.extractLsb' 28 4

/-- `w[27:0]`, the ARG field of a command and the COUNT field of a response (R60, R66). -/
def argField (w : Word) : Arg := w.extractLsb' 0 28

/-- `zext_28(v)`: `v` placed in a 28-bit field (00_scope.md R11). -/
def zext28 (v : Nat) : Arg := BitVec.ofNat 28 v

/-- `{op, arg}`: the upper four bits, then the lower 28 (00_scope.md R10). -/
def joinWord (op : BitVec 4) (arg : Arg) : Word := op ++ arg

/-- Why a word is illegal (R65). -/
inductive DecodeError where
  /-- OP is `0x0` or one of `0x4` to `0xF`. -/
  | reservedOp (op : BitVec 4)
  /-- OP is `0x3` and ARG is not zero (R64). -/
  | flushOperand (arg : Arg)
  deriving DecidableEq, Repr

/-- The decoder: every 32-bit word decodes to INIT, FEED, FLUSH or is illegal (R65, R68); decoding does not depend on
PHASE (R69). -/
def decode (w : Word) : Except DecodeError Instr :=
  if opField w = 0x1#4 then .ok (.init (argField w).toNat)
  else if opField w = 0x2#4 then .ok (.feed (argField w).toNat)
  else if opField w = 0x3#4 then
    if argField w = 0#28 then .ok .flush else .error (.flushOperand (argField w))
  else .error (.reservedOp (opField w))

/-- The OP value of each command (R61). -/
def Instr.op : Instr → BitVec 4
  | .init _ => 0x1#4
  | .feed _ => 0x2#4
  | .flush => 0x3#4

/-- The value each command's ARG field carries (R62 to R64). -/
def Instr.arg : Instr → Nat
  | .init b => b
  | .feed l => l
  | .flush => 0

/-- The word of a command: `{OP, zext_28(ARG)}` (R60, R70). -/
def encode (i : Instr) : Word := joinWord i.op (zext28 i.arg)

/-- The instruction the decoder reads from a row's bits, numbered as the opcode table numbers them. A command is
exactly one word (R68). -/
def decodeTableWord (nbits w : Nat) : Option Instr :=
  if nbits ≤ 32 then
    match decode (BitVec.ofNat 32 (w % 2 ^ nbits)) with
    | .ok i => some i
    | .error _ => none
  else none

end Sys2Proof
end

