-- ==== Sys2Proof/Config.lean ====
section
/-! DEFINITION. What a build fixes, and the free values. -/

namespace Sys2Proof

/-- What a carry cell holds that nothing has written since reset: unspecified (10_state.md R24 and R33,
93_implementation_defined.md I1 and I2: any value). A free value, one for each cell index. DESIGN CHOICE,
log entry 2. -/
opaque Config.freeCell : Nat → Byte

/-- Whether a SHA-1 client's `totalBytesProcessed` counts the bytes fed or the bytes compressed: not in the source
(91_not_in_source.md, section 41_client_profiles.md). A free value. DESIGN CHOICE, log entry 13. -/
opaque Config.totalCountsFed : Bool

/-- The least `B_MAX` a build may have (00_scope.md R9: `64 <= B_MAX <= 2^28 - 1`). -/
def Config.bMaxLeast : Nat := 64

/-- The greatest `B_MAX` a build may have (R9). -/
def Config.bMaxGreatest : Nat := 2 ^ 28 - 1

/-- The `B_MAX` of `State.reset`, the value 95_test_vectors.md was computed with. `B_MAX` is OPEN in the spec
(R9): it is a field of State, and statements hold for every value of it. DESIGN CHOICE, log entry 1. -/
def Config.bMaxAtReset : Nat := 64

end Sys2Proof
end

