-- ==== Sys2Proof/Machine/State.lean ====
section
/-! DEFINITION. The state of one chunker instance (10_state.md R20) with what the outside does to it, and reset. -/

namespace Sys2Proof.Machine

/-- PHASE (10_state.md R21, R22). -/
inductive Phase where
  /-- After reset; no block size configured. -/
  | idle
  /-- Configured; FEED and FLUSH allowed. -/
  | active
  /-- FLUSH completed; the session is over. -/
  | flushed
  /-- An error terminated the session. -/
  | error
  deriving DecidableEq, Repr

/-- MODE of a FEED in flight (10_state.md R31). -/
inductive Mode where
  | absorb
  | drain
  deriving DecidableEq, Repr

/-- Where the command in progress stands when the chunker waits. The model's own field: the spec's waits are in DataIn,
Emit and Respond (20_memory.md R55). DEDUCED, log entry 6. -/
inductive Stage where
  /-- Between commands: the next turn takes a word from CMD_IN (40_commands.md R96). -/
  | ready
  /-- A FEED that waits in `DataIn()` (R81, 60_exceptions.md R142). -/
  | payload
  /-- A FEED whose Absorb of `b` waits in `Emit` of the full carry (R83). -/
  | absorbEmit (b : Byte)
  /-- A FLUSH that waits in `Emit` of the carry (R82). -/
  | flushEmit
  /-- Any command that waits in `Respond` with the word `w` (00_scope.md R13). -/
  | respond (w : Word)
  deriving DecidableEq, Repr

/-- How many more elements an output channel takes while the consumer accepts none (20_memory.md R55). Accepting an
element makes room for one more (60_exceptions.md R154). DESIGN CHOICE, log entry 5. -/
inductive Room where
  /-- The consumer does not hold the channel back. -/
  | unlimited
  /-- The channel is held back after `n` more elements; `0` is held back now. -/
  | upTo (n : Nat)
  deriving DecidableEq, Repr

/-- One move of one agent (00_scope.md R8). DESIGN CHOICE, log entry 4. -/
inductive Move where
  /-- The chunker takes its turn. -/
  | chunker
  /-- The host places a word on CMD_IN. -/
  | hostWord (w : Word)
  /-- The host places a byte on DATA_IN. -/
  | hostByte (b : Byte)
  /-- The consumer accepts the oldest byte of DATA_OUT, and so makes room for another (60_exceptions.md R154). -/
  | acceptByte
  /-- The consumer accepts the oldest word of RSP_OUT, and so makes room for another (R154). -/
  | acceptWord
  /-- The RESET input is asserted (70_reset_and_hazards.md R160). -/
  | reset
  /-- A second host writes CMD_IN or DATA_IN (20_memory.md R52). -/
  | secondHost
  deriving DecidableEq, Repr

/-- The written carry cells: (index, byte) pairs, indices strictly rising (`Memory.wf`, Machine/Ops.lean). An unlisted
cell holds no written byte and reads as `Config.freeCell`. A cell at CLEN or above keeps its last written byte: DESIGN
CHOICE, log entry 23. -/
abbrev Memory := List Host.Cell

/-- Everything the spec gives the machine, and the model's own fields, marked so. -/
structure State where
  /-- PHASE (R21). -/
  phase : Phase
  /-- BSIZE, 28 bits (R23). -/
  bsize : BitVec 28
  /-- CARRY, the cells written since reset (R24). -/
  carry : Memory
  /-- CLEN (R25). -/
  clen : Nat
  /-- CMD_IN: words the chunker has not taken, oldest first (R32). -/
  cmdIn : List Word
  /-- DATA_IN: bytes the chunker has not taken, oldest first (R32). -/
  dataIn : List Byte
  /-- DATA_OUT: bytes the consumer has not accepted, oldest first (R32). -/
  dataOut : List Byte
  /-- RSP_OUT: words the consumer has not accepted, oldest first (R32). -/
  rspOut : List Word
  /-- REM: payload bytes the FEED in flight has still to take (R31). -/
  rem : Nat
  /-- MODE of the FEED in flight (R31). -/
  mode : Mode
  /-- Blocks the FEED in flight has emitted so far (R31). -/
  blocks : Nat
  /-- B_MAX, this build's parameter (00_scope.md R9); nothing changes it. Log entry 1. -/
  bMax : Nat
  /-- The model's own: where the command in progress waits. Log entry 6. -/
  stage : Stage
  /-- The model's own: bytes of the Emit in progress that are on DATA_OUT already. Log entry 6. -/
  sent : Nat
  /-- The model's own: `cmd[27:0]` of the FEED in flight (60_exceptions.md R141). Log entry 6. -/
  feedArg : BitVec 28
  /-- The outside: the room on DATA_OUT (20_memory.md R55). Log entry 5. -/
  dataRoom : Room
  /-- The outside: the room on RSP_OUT (R55). Log entry 5. -/
  rspRoom : Room
  /-- The outside: the moves to come, the next one first; empty, the chunker moves. Log entry 4. -/
  schedule : List Move
  deriving DecidableEq, Repr

/-- Why the machine stops. -/
inductive Fault where
  /-- Raised by MemRead and MemWrite (so by FEED and FLUSH) for cells outside `CARRY[0..BSIZE)`, of which 00_scope.md
  R13 says `i + n <= B` always holds. Safe: no state of the invariant reaches it. DEDUCED, log entry 8. -/
  | carryIndex
  deriving DecidableEq, Repr

/-- Why a step has no meaning. -/
inductive Refusal where
  /-- Raised by an arm of `exec` whose instruction has no meaning yet; none is left. Safe. -/
  | notModelled (mnemonic : String)
  /-- Raised by the move `secondHost`: 20_memory.md R52, "a model must refuse it rather than merge the streams". Safe. -/
  | secondHost
  deriving DecidableEq, Repr

/-- The reset state of a build with the given `B_MAX` (10_state.md R33, 70_reset_and_hazards.md R160). -/
def State.resetFor (bMax : Nat) : State where
  phase := .idle
  bsize := 0
  carry := []
  clen := 0
  cmdIn := []
  dataIn := []
  dataOut := []
  rspOut := []
  rem := 0
  mode := .absorb
  blocks := 0
  bMax := bMax
  stage := .ready
  sent := 0
  feedArg := 0
  dataRoom := .unlimited
  rspRoom := .unlimited
  schedule := []

/-- The machine right after power-on reset, for the build of log entry 1. -/
def State.reset : State := State.resetFor Config.bMaxAtReset

end Sys2Proof.Machine
end

