-- ==== Sys2Proof/Machine/Flags.lean ====
section
/-! DEFINITION. What a command reports. The chunker has no flags (10_state.md R29): a command reports only through its
response word, whose STATUS codes (60_exceptions.md R131) and phase checks (R143) stand here. -/

namespace Sys2Proof.Machine

/-- The PHASE register's two bits (10_state.md R22). -/
def Phase.code : Phase → BitVec 2
  | .idle => 0b00#2
  | .active => 0b01#2
  | .flushed => 0b10#2
  | .error => 0b11#2

/-- The errors a command can raise (60_exceptions.md R131); codes 0x9 to 0xF are never produced. -/
inductive ErrorCode where
  | illegalCommand
  | sessionTerminated
  | notConfigured
  | reinit
  | feedAfterFlush
  | flushTwice
  | configZero
  | configAboveMax
  deriving DecidableEq, Repr

/-- The STATUS value of each error (R131). -/
def ErrorCode.status : ErrorCode → BitVec 4
  | .illegalCommand => 0x1#4
  | .sessionTerminated => 0x2#4
  | .notConfigured => 0x3#4
  | .reinit => 0x4#4
  | .feedAfterFlush => 0x5#4
  | .flushTwice => 0x6#4
  | .configZero => 0x7#4
  | .configAboveMax => 0x8#4

/-- The response of a successful command: STATUS 0x0 and COUNT (30_encoding.md R66). -/
def okWord (count : Nat) : Word := joinWord 0x0#4 (zext28 count)

/-- The response of a rejected command: its error's STATUS and `cmd[27:0]` (R66, 60_exceptions.md R141). -/
def errorWord (e : ErrorCode) (info : Arg) : Word := joinWord e.status info

/-- INIT's phase checks, in the order of R143: SESSION_TERMINATED, then REINIT. -/
def initPhaseError : Phase → Option ErrorCode
  | .error => some .sessionTerminated
  | .active => some .reinit
  | .flushed => some .reinit
  | .idle => none

/-- FEED's phase checks (R143): every FEED check reads only PHASE (40_commands.md R81). -/
def feedPhaseError : Phase → Option ErrorCode
  | .error => some .sessionTerminated
  | .idle => some .notConfigured
  | .flushed => some .feedAfterFlush
  | .active => none

/-- FLUSH's phase checks (R143). -/
def flushPhaseError : Phase → Option ErrorCode
  | .error => some .sessionTerminated
  | .idle => some .notConfigured
  | .flushed => some .flushTwice
  | .active => none

end Sys2Proof.Machine
end

