-- ==== Sys2Proof/Machine/Operands.lean ====
section
/-! DEFINITION. The operands of the commands (30_encoding.md R62 to R64) and the checks on their values. FLUSH has no
operand; FEED's operand is the chunk length, and no length is ever an error (60_exceptions.md R144). -/

namespace Sys2Proof.Machine

/-- The operand checks of INIT, in the order of R143: CONFIG_ZERO, then CONFIG_ABOVE_MAX. -/
def blockSizeError (b bMax : Nat) : Option ErrorCode :=
  if b = 0 then some .configZero
  else if bMax < b then some .configAboveMax
  else none

/-- All checks of INIT in the order of R143: the phase, then the operand. -/
def initError (p : Phase) (b bMax : Nat) : Option ErrorCode :=
  match initPhaseError p with
  | some e => some e
  | none => blockSizeError b bMax

end Sys2Proof.Machine
end

