-- ==== Sys2Proof/Machine/Ops.lean ====
section
/-! DEFINITION. The named operations: the carry cells, the pseudocode primitives MemRead, MemWrite, Emit and Respond
(00_scope.md R13), error entry (60_exceptions.md R140) and reset, the one way back from an error (R145). -/

namespace Sys2Proof.Machine

/-! The carry cells. -/

/-- The byte written to cell `a`, if one is listed. -/
def Memory.lookup : Memory → Nat → Option Byte
  | [], _ => none
  | (k, v) :: m, a => if k = a then some v else Memory.lookup m a

/-- What cell `a` reads as: its written byte, or the unspecified byte (10_state.md R24, R33). -/
def Memory.cell (m : Memory) (a : Nat) : Byte := (m.lookup a).getD (Config.freeCell a)

/-- The cells with `b` written to cell `a`. Every other cell keeps its byte, one at CLEN or above too, which 10_state.md
R24 leaves open (DESIGN CHOICE, log entry 23). -/
def Memory.write : Memory → Nat → Byte → Memory
  | [], a, b => [(a, b)]
  | (k, v) :: m, a, b =>
    if a < k then (a, b) :: (k, v) :: m
    else if a = k then (a, b) :: m
    else (k, v) :: Memory.write m a b

/-- `CARRY[i..i+n)`, in order. -/
def Memory.read (m : Memory) : Nat → Nat → List Byte
  | _, 0 => []
  | i, n + 1 => m.cell i :: m.read (i + 1) n

/-- The canonical form: indices strictly rising. An unlisted cell holds no written byte, so no listed one equals it. -/
def Memory.wf : Memory → Bool
  | [] => true
  | [_] => true
  | (j, _) :: (k, v) :: m => decide (j < k) && Memory.wf ((k, v) :: m)

/-- The carry as a sequence: `CARRY[0..CLEN)`, oldest byte first (R24). -/
def State.carryBytes (s : State) : List Byte := s.carry.read 0 s.clen

/-- The block size B of the session, the number in BSIZE (R23). -/
def State.blockSize (s : State) : Nat := s.bsize.toNat

/-! The room on the output channels (20_memory.md R55, 60_exceptions.md R154). -/

/-- How many of `n` elements the channel takes now. -/
def Room.grant : Room → Nat → Nat
  | .unlimited, n => n
  | .upTo r, n => min r n

/-- The room left after `n` elements. -/
def Room.spend : Room → Nat → Room
  | .unlimited, _ => .unlimited
  | .upTo r, n => .upTo (r - n)

/-- The room once `n` elements have left the channel. -/
def Room.regain : Room → Nat → Room
  | .unlimited, _ => .unlimited
  | .upTo r, n => .upTo (r + n)

/-- The consumer accepts the oldest byte of DATA_OUT (10_state.md R32); with none there, nothing happens (log entry
19). -/
def acceptByte (s : State) : State :=
  match s.dataOut with
  | [] => s
  | _ :: bs => { s with dataOut := bs, dataRoom := s.dataRoom.regain 1 }

/-- The consumer accepts the oldest word of RSP_OUT (R32); with none there, nothing happens. -/
def acceptWord (s : State) : State :=
  match s.rspOut with
  | [] => s
  | _ :: ws => { s with rspOut := ws, rspRoom := s.rspRoom.regain 1 }

/-! Emit and Respond (00_scope.md R13). -/

/-- How an operation inside a command ends: it completes, or it waits (R55), or it leaves the carry buffer (R13). -/
inductive Progress where
  | done (s : State)
  | wait (s : State)
  | fault (f : Fault)
  deriving DecidableEq, Repr

/-- Places on DATA_OUT as many of the bytes of `CARRY[0..n)` not yet placed as the channel takes. -/
def placeCarry (n : Nat) (s : State) : State :=
  { s with
    dataOut := s.dataOut ++ s.carry.read s.sent (s.dataRoom.grant (n - s.sent))
    sent := s.sent + s.dataRoom.grant (n - s.sent)
    dataRoom := s.dataRoom.spend (s.dataRoom.grant (n - s.sent)) }

/-- `Emit(MemRead(0, n))`: the bytes of `CARRY[0..n)` go onto DATA_OUT in order, and it waits while the consumer holds
the channel back (R13, R55). Resumed, it goes on from the first byte not yet placed. MemRead reaches only
`CARRY[0..BSIZE)` (R13, 20_memory.md R40). -/
def emitCarry (n : Nat) (s : State) : Progress :=
  if s.blockSize < n then .fault .carryIndex
  else if (placeCarry n s).sent < n then .wait (placeCarry n s)
  else .done { placeCarry n s with sent := 0 }

/-- `MemWrite(CLEN, 1, [b])` and `CLEN <- CLEN + 1` (40_commands.md R83). MemWrite reaches only `CARRY[0..BSIZE)`. -/
def appendCarry (b : Byte) (s : State) : Progress :=
  if s.blockSize < s.clen + 1 then .fault .carryIndex
  else .done { s with carry := s.carry.write s.clen b, clen := s.clen + 1 }

/-- `Respond`: the response word goes onto RSP_OUT and the command ends; it waits while the consumer holds the channel
back (R13, R55). -/
def respond (w : Word) (s : State) : State :=
  if s.rspRoom.grant 1 = 1 then
    { s with rspOut := s.rspOut ++ [w], rspRoom := s.rspRoom.spend 1, stage := .ready }
  else { s with stage := .respond w }

/-- Error entry, `raise E(info)` (60_exceptions.md R140): PHASE becomes ERROR, the carry is discarded unemitted, the
error is reported, the command ends. BSIZE is not changed. A FEED has drained its payload before (R142). The discarded
cells keep their bytes (DESIGN CHOICE, log entry 23). -/
def raiseError (e : ErrorCode) (info : Arg) (s : State) : State :=
  respond (errorWord e info) { s with phase := .error, clen := 0 }

/-- RESET (70_reset_and_hazards.md R160): every piece of state to its reset value, the four channels emptied, the
command in progress abandoned without a response. The moves to come and the build's `B_MAX` are not the chunker's state
and stay; the emptied output channels regain the room their elements took (log entry 7). -/
def assertReset (s : State) : State :=
  { State.resetFor s.bMax with
    dataRoom := s.dataRoom.regain s.dataOut.length, rspRoom := s.rspRoom.regain s.rspOut.length
    schedule := s.schedule }

end Sys2Proof.Machine
end

