-- ==== Sys2Proof/Machine/Feed.lean ====
section
/-! DEFINITION. FEED (40_commands.md R81, R83) and Drain (60_exceptions.md R142). One turn of the chunker takes payload
bytes until the FEED has its response placed or must wait (log entry 3). -/

namespace Sys2Proof.Machine

/-- Absorb on a full carry (R83): the carry is emitted as a block, then `b` starts the next one. The emitted cells but
cell 0 keep their bytes (DESIGN CHOICE, log entry 23). -/
def absorbOnFull (b : Byte) (s : State) : Progress :=
  match emitCarry s.blockSize s with
  | .done t => appendCarry b { t with clen := 0, blocks := t.blocks + 1 }
  | .wait t => .wait { t with stage := .absorbEmit b }
  | .fault f => .fault f

/-- Absorb takes one byte into the carry, and first emits the carry if it is full (R83). The count it returns is added
to the block count of the FEED (R81, 10_state.md R31). -/
def absorb (b : Byte) (s : State) : Progress :=
  if s.clen = s.blockSize then absorbOnFull b s else appendCarry b s

/-- What a FEED does with a payload byte it has taken: Absorb (R81) or Drain (R142), by MODE (10_state.md R31). -/
def usePayloadByte (b : Byte) (s : State) : Progress :=
  match s.mode with
  | .absorb => absorb b s
  | .drain => .done s

/-- The end of a FEED that has taken its L bytes: the block count, or the error its phase raises (R81). PHASE has not
changed since the command began. -/
def finishFeed (s : State) : State :=
  match feedPhaseError s.phase with
  | none => respond (okWord s.blocks) s
  | some e => raiseError e s.feedArg s

/-- Takes payload bytes from DATA_IN (the list argument is its contents) until REM is 0, or DATA_IN is empty and
`DataIn()` waits, or an Emit waits (R81, 20_memory.md R55). -/
def takePayload : List Byte → State → Host.Outcome State Fault Refusal
  | [], s =>
    if s.rem = 0 then .next (finishFeed { s with dataIn := [] })
    else .next { s with dataIn := [], stage := .payload }
  | b :: bs, s =>
    if s.rem = 0 then .next (finishFeed { s with dataIn := b :: bs })
    else
      match usePayloadByte b { s with dataIn := bs, rem := s.rem - 1 } with
      | .done t => takePayload bs t
      | .wait t => .next t
      | .fault f => .fault f

/-- FEED's start: the phase check chooses Absorb, with the block count 0, or Drain (R81, R142). No byte of an Emit of
this command is placed yet. That a draining FEED keeps the block count as it was is a DESIGN CHOICE (log entry 15). -/
def startFeed (l : Nat) (s : State) : State :=
  match feedPhaseError s.phase with
  | none => { s with rem := l, mode := .absorb, blocks := 0, feedArg := zext28 l, sent := 0 }
  | some _ => { s with rem := l, mode := .drain, feedArg := zext28 l, sent := 0 }

/-- FEED L (R81). -/
def execFeed (l : Nat) (s : State) : Host.Outcome State Fault Refusal :=
  takePayload s.dataIn (startFeed l s)

/-- A FEED that waited in the Emit of `Absorb(b)` goes on (R55, R83). -/
def resumeAbsorb (b : Byte) (s : State) : Host.Outcome State Fault Refusal :=
  match absorbOnFull b s with
  | .done t => takePayload t.dataIn t
  | .wait t => .next t
  | .fault f => .fault f

end Sys2Proof.Machine
end

