-- ==== Sys2Proof/Machine/Flush.lean ====
section
/-! DEFINITION. FLUSH (40_commands.md R82). -/

namespace Sys2Proof.Machine

/-- FLUSH past its checks, or resumed after a wait in Emit (20_memory.md R55): the carry goes out verbatim, oldest byte
first; then CLEN is cleared, PHASE becomes FLUSHED, and the response is the tail length (R82). The emitted cells keep
their bytes (DESIGN CHOICE, log entry 23). -/
def emitTail (s : State) : Host.Outcome State Fault Refusal :=
  match emitCarry s.clen s with
  | .done t => .next (respond (okWord t.clen) { t with clen := 0, phase := .flushed })
  | .wait t => .next { t with stage := .flushEmit }
  | .fault f => .fault f

/-- FLUSH (R82). An error's recorded value is `cmd[27:0]`, which is 0 (R64, 60_exceptions.md R141).
No byte of its Emit is placed yet. -/
def execFlush (s : State) : Host.Outcome State Fault Refusal :=
  match flushPhaseError s.phase with
  | some e => .next (raiseError e 0 s)
  | none => emitTail { s with sent := 0 }

end Sys2Proof.Machine
end

