-- ==== Sys2Proof/Machine/Init.lean ====
section
/-! DEFINITION. INIT (40_commands.md R80). -/

namespace Sys2Proof.Machine

/-- A successful INIT: BSIZE, CLEN and PHASE are set and the response echoes B (R80). -/
def configure (b : Nat) (s : State) : State :=
  respond (okWord b) { s with bsize := zext28 b, clen := 0, phase := .active }

/-- INIT B: the checks of R143 in order, then the configuration (R80). -/
def execInit (b : Nat) (s : State) : Host.Outcome State Fault Refusal :=
  match initError s.phase b s.bMax with
  | some e => .next (raiseError e (zext28 b) s)
  | none => .next (configure b s)

end Sys2Proof.Machine
end

