-- ==== Sys2Proof/Machine/Dispatch.lean ====
section
/-! DEFINITION. One arm for each command of the opcode table. -/

namespace Sys2Proof.Machine

def exec (i : Instr) (s : State) : Host.Outcome State Fault Refusal :=
  match i with
  | .init b => Sys2Proof.Machine.execInit b s
  | .feed l => Sys2Proof.Machine.execFeed l s
  | .flush => Sys2Proof.Machine.execFlush s

end Sys2Proof.Machine
end

