-- ==== Sys2Proof/Machine/Cycle.lean ====
section
/-! DEFINITION. The command cycle (40_commands.md R96), and what the other agents do (00_scope.md R8). -/

namespace Sys2Proof.Machine

/-- The dispatch of a word taken from CMD_IN: decoding comes first, so an illegal word raises ILLEGAL_COMMAND in every
phase and takes no payload (R96, 60_exceptions.md R132). -/
def runWord (w : Word) (s : State) : Host.Outcome State Fault Refusal :=
  match decode w with
  | .ok i => exec i s
  | .error _ => .next (raiseError .illegalCommand (argField w) s)

/-- One turn of the chunker: it resumes the command in progress where that waits, or takes the next word from CMD_IN.
With CMD_IN empty it waits and keeps its whole state (R96, 60_exceptions.md R154). -/
def chunkerTurn (s : State) : Host.Outcome State Fault Refusal :=
  match s.stage with
  | .ready =>
    match s.cmdIn with
    | [] => .next s
    | w :: ws => runWord w { s with cmdIn := ws }
  | .payload => takePayload s.dataIn s
  | .absorbEmit b => resumeAbsorb b s
  | .flushEmit => emitTail s
  | .respond w => .next (respond w s)

/-- What one move does. Channels are first-in first-out (10_state.md R32). -/
def makeMove (m : Move) (s : State) : Host.Outcome State Fault Refusal :=
  match m with
  | .chunker => chunkerTurn s
  | .hostWord w => .next { s with cmdIn := s.cmdIn ++ [w] }
  | .hostByte b => .next { s with dataIn := s.dataIn ++ [b] }
  | .acceptByte => .next (acceptByte s)
  | .acceptWord => .next (acceptWord s)
  | .reset => .next (assertReset s)
  | .secondHost => .refused .secondHost

/-- The state in which the next step takes the word `w` from CMD_IN: `w` is at the head of CMD_IN, nothing is in
flight and no other agent moves first (log entry 14). -/
def placeWord (w : Word) (s : State) : State :=
  { s with cmdIn := w :: s.cmdIn, stage := .ready, rem := 0, sent := 0, schedule := [] }

end Sys2Proof.Machine
end

