-- ==== Sys2Proof/Machine/Step.lean ====
section
/-! DEFINITION. One step: the next move of the schedule, or the chunker's turn. -/

namespace Sys2Proof.Machine

/-- One step of the three agents (00_scope.md R8): the first move of the schedule; with none left, the chunker's turn
(log entry 4). -/
def step (s : State) : Host.Outcome State Fault Refusal :=
  match s.schedule with
  | [] => chunkerTurn s
  | m :: ms => makeMove m { s with schedule := ms }

/-- `s` with the instruction of a table row where `step` takes its next command: the head of CMD_IN. -/
def State.withFetchWord (s : State) (nbits w : Nat) : State :=
  placeWord (BitVec.ofNat 32 (w % 2 ^ nbits)) s

end Sys2Proof.Machine
end

