-- ==== Sys2Proof/Machine/FeedSpec.lean ====
section
/-! DEFINITION. The chunk-level contract the spec states beside the byte-level commands (40_commands.md R85, R88), and
sessions as sequences of commands (R91, R92): what statements compare the machine with. The machine does not use it. -/

namespace Sys2Proof.Machine

/-- `split_B(s)` by fuel: pieces of `b` bytes, the last of 1 to `b` bytes (00_scope.md R12). -/
def splitFuel (b : Nat) : Nat → List Byte → List (List Byte)
  | 0, _ => []
  | fuel + 1, s =>
    if s.length ≤ b then [s] else s.take b :: splitFuel b fuel (s.drop b)

/-- `split_B(s)` (R12): for `b >= 1` a piece takes at least one byte, so `s.length` pieces are enough. -/
def splitBlocks (b : Nat) (s : List Byte) : List (List Byte) := splitFuel b s.length s

/-- `FeedSpec(B, c, x)`: the blocks emitted and the new carry (R85). -/
def feedSpec (b : Nat) (c x : List Byte) : List (List Byte) × List Byte :=
  if c ++ x = [] then ([], [])
  else
    ((splitBlocks b (c ++ x)).dropLast, ((splitBlocks b (c ++ x)).getLast?).getD [])

/-- `E(T)`: the blocks emitted once T bytes have been absorbed since INIT (R88). -/
def blocksAfter (b t : Nat) : Nat := if t = 0 then 0 else (t - 1) / b

/-- CLEN once T bytes have been absorbed since INIT (R88). -/
def carryAfter (b t : Nat) : Nat := if t = 0 then 0 else (t - 1) % b + 1

/-- One FEED of a chunk whose payload the host has placed on an empty DATA_IN (70_reset_and_hazards.md R163). -/
def feedChunk (x : List Byte) (s : State) : Host.Outcome State Fault Refusal :=
  exec (.feed x.length) { s with dataIn := x }

/-- FEEDs of chunks, one after the other (R91). -/
def feedChunks : List (List Byte) → State → Host.Outcome State Fault Refusal
  | [], s => .next s
  | x :: xs, s =>
    match feedChunk x s with
    | .next t => feedChunks xs t
    | .fault f => .fault f
    | .refused r => .refused r

/-- A whole session after reset: INIT, the FEEDs, FLUSH (R92, 70_reset_and_hazards.md R163). -/
def runSession (b : Nat) (xs : List (List Byte)) (s : State) : Host.Outcome State Fault Refusal :=
  match exec (.init b) s with
  | .next t =>
    match feedChunks xs t with
    | .next u => exec .flush u
    | .fault f => .fault f
    | .refused r => .refused r
  | .fault f => .fault f
  | .refused r => .refused r

end Sys2Proof.Machine
end

