-- ==== Sys2Proof/Machine/Assembler.lean ====
section
/-! DEFINITION. The notation of command programs (30_encoding.md R70 to R72): a line of a program, the words and payload
bytes it stands for, and the listing. The host uses it; the chunker never sees it. -/

namespace Sys2Proof.Machine

/-- One line of a program (R70, R71). -/
inductive AsmLine where
  /-- `INIT <n>` -/
  | init (n : Nat)
  /-- `FEED` with a list of bytes; the empty list is the empty chunk. -/
  | feed (bytes : List Nat)
  /-- `FEED "text"` -/
  | feedText (text : List Char)
  /-- `FLUSH` -/
  | flush
  /-- `.word 0x<8 hex digits>`: R70 gives it for a reserved word; the model takes any word (log entry 12). -/
  | word (w : Nat)
  /-- `FEEDL` with a list of bytes of any length -/
  | feedl (bytes : List Nat)
  deriving DecidableEq, Repr

/-- What the host sends for one command: its word on CMD_IN and its payload on DATA_IN (00_scope.md R14). -/
structure Sent where
  word : Word
  payload : List Byte
  deriving DecidableEq, Repr

/-- The largest chunk of one FEED (00_scope.md R9). -/
def maxChunk : Nat := 2 ^ 28 - 1

/-- What the assembler accepts (R70): bytes from 0 to 255, `n` and `L` from 0 to `2^28 - 1`, text in ASCII, a word of 32
bits. FEEDL bounds no length (R71). That `.word` takes legal words too, a FEED word without payload included, is a DESIGN
CHOICE (log entry 12): R70 speaks of reserved words only. -/
def AsmLine.wellFormed : AsmLine → Bool
  | .init n => decide (n ≤ maxChunk)
  | .feed bs => decide (bs.length ≤ maxChunk) && bs.all (fun b => decide (b < 256))
  | .feedText cs => decide (cs.length ≤ maxChunk) && cs.all (fun c => decide (c.toNat < 128))
  | .flush => true
  | .word w => decide (w < 2 ^ 32)
  | .feedl bs => bs.all (fun b => decide (b < 256))

/-- The command of a chunk: `{0x2, zext_28(L)}` and the bytes in order (R70). -/
def sendChunk (x : List Byte) : Sent := ⟨encode (.feed x.length), x⟩

/-- FEEDL's chunks: below `2^28` bytes one FEED; else each takes the next `2^28 - 1` bytes, the last the rest (R71). -/
def feedlChunks (x : List Byte) : List (List Byte) :=
  if x.length < 2 ^ 28 then [x] else splitBlocks maxChunk x

/-- The words and payloads of a line the assembler accepts (R70, R71). -/
def AsmLine.expand : AsmLine → List Sent
  | .init n => [⟨encode (.init n), []⟩]
  | .feed bs => [sendChunk (bs.map (BitVec.ofNat 8))]
  | .feedText cs => [sendChunk (cs.map (fun c => BitVec.ofNat 8 c.toNat))]
  | .flush => [⟨encode .flush, []⟩]
  | .word w => [⟨BitVec.ofNat 32 w, []⟩]
  | .feedl bs => (feedlChunks (bs.map (BitVec.ofNat 8))).map sendChunk

/-- The assembler refuses every other line (R70). -/
def assemble (l : AsmLine) : Option (List Sent) := if l.wellFormed then some l.expand else none

/-- One command as host moves: its word, then its payload bytes (00_scope.md R8). -/
def Sent.moves (c : Sent) : List Move := .hostWord c.word :: c.payload.map .hostByte

/-- The host places commands on its two channels, in order (10_state.md R32). -/
def State.send (cs : List Sent) (s : State) : State :=
  { s with cmdIn := s.cmdIn ++ cs.map Sent.word, dataIn := s.dataIn ++ cs.flatMap Sent.payload }

/-- One upper-case hexadecimal digit. -/
def hexDigit (n : Nat) : Char :=
  (['0', '1', '2', '3', '4', '5', '6', '7', '8', '9', 'A', 'B', 'C', 'D', 'E', 'F'][n % 16]?).getD '0'

/-- `k` hexadecimal digits, most significant first (R72). -/
def hexDigits : Nat → Nat → List Char
  | 0, _ => []
  | k + 1, n => hexDigit (n / 16 ^ k) :: hexDigits k n

/-- Bytes in 2-digit hexadecimal, a space before each. -/
def listBytes (bs : List Byte) : List Char := bs.flatMap (fun b => ' ' :: hexDigits 2 b.toNat)

/-- The listing of a command: its word, and after a bar its payload if it has one (R72). -/
def Sent.listing (c : Sent) : List Char :=
  hexDigits 8 c.word.toNat ++ (if c.payload = [] then [] else ' ' :: '|' :: listBytes c.payload)

/-- The listing of a response: the DATA_OUT bytes of its command, then the word (R72). How the bytes are written is not
stated: 2-digit hexadecimal with single spaces and no bar, DESIGN CHOICE (log entry 12). -/
def listResponse (out : List Byte) (w : Word) : List Char :=
  (listBytes out ++ ' ' :: hexDigits 8 w.toNat).drop 1

end Sys2Proof.Machine
end

