-- ==== Sys2Proof/Machine/Clients.lean ====
section
/-! DEFINITION. How the document's engines use the chunker (41_client_profiles.md): the duties of its clients, as functions
over the chunker's input and output. Machine/Engines.lean joins them with a chunker. Their transforms are outside the hardware (00_scope.md R6) and are arguments here. -/

namespace Sys2Proof.Machine

/-- What ends a client's session: an error of its own, or of its chunker. -/
inductive ClientError where
  /-- The client's configuration error, before any INIT (R111, 60_exceptions.md R144). -/
  | configuration
  /-- The block size has no INIT word: it is `2^28` or more (30_encoding.md R62). DESIGN CHOICE, log entry 13. -/
  | noWord
  /-- The chunker rejected a command with this STATUS (60_exceptions.md R131). -/
  | rejected (status : BitVec 4)
  /-- The chunker gave no response: it waits (20_memory.md R55), or the model stops. -/
  | noResponse
  /-- The client's "Underflow on decrypt finalize" (R117). -/
  | underflow
  /-- A tail the client's rules do not cover (93_implementation_defined.md I15: refuse). -/
  | notCovered
  deriving DecidableEq, Repr

/-- XXTEA's rule on its block size (R111). -/
def xxteaBlockLegal (blockBytes : Nat) : Bool := decide (8 ≤ blockBytes) && decide (blockBytes % 4 = 0)

/-- The block transform of an OFB session. -/
inductive BlockTransform where
  /-- XXTEA over blocks of `blockBytes` bytes -/
  | xxtea (blockBytes : Nat)
  /-- another transform over blocks of `blockBytes` bytes -/
  | other (blockBytes : Nat)
  deriving DecidableEq, Repr

/-- The size of a transform's block. -/
def BlockTransform.blockBytes : BlockTransform → Nat
  | .xxtea b => b
  | .other b => b

/-- The rule a transform puts on its block size; R111 gives one for XXTEA only. -/
def BlockTransform.blockLegal : BlockTransform → Bool
  | .xxtea b => xxteaBlockLegal b
  | .other _ => true

/-- The client sessions that drive a chunker (R110). The parallel XXTEA path drives none (R118). -/
inductive Client where
  /-- Sha1Digest -/
  | sha1
  /-- OutputFeedbackMode with an IV of `ivLen` bytes over a block transform -/
  | ofb (ivLen : Nat) (cipher : BlockTransform)
  /-- XXTEA streaming encrypt -/
  | xxteaEncrypt (blockBytes : Nat)
  /-- XXTEA streaming decrypt -/
  | xxteaDecrypt (blockBytes : Nat)
  deriving DecidableEq, Repr

/-- The block size a client configures (R110). -/
def Client.blockSize : Client → Nat
  | .sha1 => 64
  | .ofb ivLen _ => ivLen
  | .xxteaEncrypt b => b
  | .xxteaDecrypt b => b

/-- What a client checks before it issues INIT (R111): for XXTEA at least 8 and a multiple of 4; for OFB an IV of the
transform's block size, which meets the transform's own rule. A failure is the client's configuration error, not the
chunker's (60_exceptions.md R144). -/
def Client.configLegal : Client → Bool
  | .sha1 => true
  | .ofb ivLen cipher => decide (ivLen = cipher.blockBytes) && cipher.blockLegal
  | .xxteaEncrypt b => xxteaBlockLegal b
  | .xxteaDecrypt b => xxteaBlockLegal b

/-- A client's INIT, which it issues only with a legal configuration (R111). -/
def Client.opening (c : Client) : Except ClientError Sent :=
  if c.configLegal = true then
    if (Instr.init c.blockSize).wellFormed = true then .ok ⟨encode (.init c.blockSize), []⟩ else .error .noWord
  else .error .configuration

/-- What a client feeds for a list of chunks: XXTEA encrypt first feeds the 8-byte length field (R116), and a chunk too
long for one FEED is cut as FEEDL cuts it (30_encoding.md R71). The length field's byte order is not in the source, so
the client gives the bytes (log entry 13). -/
def Client.feeds (c : Client) (lengthField : Vector Byte 8) (chunks : List (List Byte)) : List (List Byte) :=
  match c with
  | .xxteaEncrypt _ => (lengthField.toList :: chunks).flatMap feedlChunks
  | _ => chunks.flatMap feedlChunks

/-- The commands of one client session, after its reset: INIT, FEEDs, FLUSH (R119). -/
def Client.commands (c : Client) (lengthField : Vector Byte 8) (chunks : List (List Byte)) : List Sent :=
  ⟨encode (.init c.blockSize), []⟩ ::
    ((c.feeds lengthField chunks).map sendChunk ++ [⟨encode .flush, []⟩])

/-- One client session (R119) as moves: reset, INIT, FEEDs, FLUSH; or the error that stops it before any of them (R111). -/
def Client.session (c : Client) (lengthField : Vector Byte 8) (chunks : List (List Byte)) :
    Except ClientError (List Move) :=
  c.opening.map fun _ => .reset :: (c.commands lengthField chunks).flatMap Sent.moves

/-- `n` as `k` bytes, most significant first (R113). Of a number that does not fit, the low `8 * k` bits: DESIGN CHOICE,
log entry 25. -/
def bigEndian : Nat → Nat → List Byte
  | 0, _ => []
  | k + 1, n => BitVec.ofNat 8 (n / 256 ^ k) :: bigEndian k n

/-- SHA-1's bit length after `e` blocks and a tail of `t` bytes (R113). -/
def sha1BitLength (e t : Nat) : Nat := 8 * (64 * e + t)

/-- SHA-1's padded tail (R113): one `0x80` byte, zero bytes until the length is 56 modulo 64, the bit length. -/
def sha1PadTail (e : Nat) (tail : List Byte) : List Byte :=
  tail ++ 0x80#8 :: List.replicate ((119 - tail.length % 64) % 64) 0#8 ++
    bigEndian 8 (sha1BitLength e tail.length)

/-- Bytes XORed one by one; the result is as long as the shorter list. -/
def xorBytes (xs ys : List Byte) : List Byte := List.zipWith (· ^^^ ·) xs ys

/-- OFB over the emitted blocks, in emission order (R114): each output is the block XORed with the next keystream block.
Answers the outputs and the feedback. -/
def ofbBlocks (transform : List Byte → List Byte) : List Byte → List (List Byte) → List (List Byte) × List Byte
  | feedback, [] => ([], feedback)
  | feedback, p :: ps =>
    (xorBytes p (transform feedback) :: (ofbBlocks transform (transform feedback) ps).1,
      (ofbBlocks transform (transform feedback) ps).2)

/-- OFB's finish: one more keystream step, XORed with only the remaining bytes (R115). -/
def ofbTail (transform : List Byte → List Byte) (feedback tail : List Byte) : List Byte :=
  xorBytes tail (transform feedback)

/-- XXTEA encrypt zero-pads the tail to a block before it transforms it (R116). -/
def xxteaPadTail (blockBytes : Nat) (tail : List Byte) : List Byte :=
  tail ++ List.replicate (blockBytes - tail.length) 0#8

/-- The blocks an XXTEA encrypt session outputs for a message of `len` bytes: `ceil((8 + len) / blockBytes)` (R116). -/
def xxteaBlockCount (blockBytes len : Nat) : Nat := (8 + len + blockBytes - 1) / blockBytes

/-- XXTEA decrypt trims the decrypted tail to `declaredLength - bytesAlreadyEmitted` (R117); none is the client's
"Underflow on decrypt finalize": a trim length that is negative or larger than the tail. -/
def xxteaTrim (declared emitted : Nat) (tail : List Byte) : Option (List Byte) :=
  if declared < emitted then none
  else if tail.length < declared - emitted then none
  else some (tail.take (declared - emitted))

end Sys2Proof.Machine
end

