-- ==== Sys2Proof/Machine/Engines.lean ====
section
/-! DEFINITION. The document's engines, each with the chunker it owns (41_client_profiles.md R110): what each sends, and what
it does with the blocks and the tail. The transforms are outside the hardware (00_scope.md R6) and are arguments. -/

namespace Sys2Proof.Machine

/-! A client and its chunker. -/

/-- What a client takes for one command: its DATA_OUT bytes, and its response (20_memory.md R49, 30_encoding.md R66). -/
structure Reply where
  out : List Byte
  word : Word
  deriving DecidableEq, Repr

/-- `k` blocks of `b` bytes, from the front. -/
def cutBlocks (b : Nat) : Nat → List Byte → List (List Byte)
  | 0, _ => []
  | k + 1, xs => xs.take b :: cutBlocks b k (xs.drop b)

/-- The blocks a successful FEED emitted: COUNT blocks of `b` bytes (R66). -/
def Reply.blocks (b : Nat) (r : Reply) : List (List Byte) := cutBlocks b (argField r.word).toNat r.out

/-- The client accepts everything on the two output channels, and acts on the response (R66). -/
def collect (t : State) : Except ClientError (State × Reply) :=
  match t.rspOut with
  | [] => .error .noResponse
  | w :: ws =>
    if opField w = 0#4 then
      .ok ({ t with
        dataOut := [], dataRoom := t.dataRoom.regain t.dataOut.length
        rspOut := ws, rspRoom := t.rspRoom.regain 1 }, ⟨t.dataOut, w⟩)
    else .error (.rejected (opField w))

/-- One command of a client, run by its chunker to the response. The client goes on accepting output (70_reset_and_hazards.md
R168), so its channels are taken as not held back; a command whose response does not come is `noResponse`. -/
def request (c : Sent) (s : State) : Except ClientError (State × Reply) :=
  match chunkerTurn (s.send [c]) with
  | .next t => collect t
  | .fault _ => .error .noResponse
  | .refused _ => .error .noResponse

/-- FEEDs of chunks, one after the other; the answer holds the blocks emitted, in order. -/
def feedPieces (b : Nat) : List (List Byte) → State → Except ClientError (State × List (List Byte))
  | [], s => .ok (s, [])
  | x :: xs, s =>
    (request (sendChunk x) s).bind fun p =>
      (feedPieces b xs p.1).map fun q => (q.1, p.2.blocks b ++ q.2)

/-- An engine in a session: its chunker, its block size, and what it keeps of its own. -/
structure Engine (α : Type) where
  chunker : State
  blockBytes : Nat
  own : α
  deriving DecidableEq, Repr

/-- A session begins: the configuration is checked (R111), the chunker, new or used, is reset (R119), INIT is issued. -/
def Client.start {α : Type} (c : Client) (own : α) (s : State) : Except ClientError (Engine α) :=
  c.opening.bind fun w => (request w (assertReset s)).map fun p => ⟨p.1, c.blockSize, own⟩

/-- The engine feeds one chunk, as one FEED or several (30_encoding.md R71, 40_commands.md R91). -/
def Engine.feed {α : Type} (x : List Byte) (e : Engine α) : Except ClientError (Engine α × List (List Byte)) :=
  (feedPieces e.blockBytes (feedlChunks x) e.chunker).map fun p => ({ e with chunker := p.1 }, p.2)

/-- The engine issues FLUSH and takes the tail. -/
def Engine.flush {α : Type} (e : Engine α) : Except ClientError (Engine α × List Byte) :=
  (request ⟨encode .flush, []⟩ e.chunker).map fun p => ({ e with chunker := p.1 }, p.2.out)

/-- A call for each chunk in turn; the outputs are joined in order. -/
def forEachChunk {ε β : Type} (call : List Byte → ε → Except ClientError (ε × List β)) :
    List (List Byte) → ε → Except ClientError (ε × List β)
  | [], e => .ok (e, [])
  | x :: xs, e =>
    (call x e).bind fun p => (forEachChunk call xs p.1).map fun q => (q.1, p.2 ++ q.2)

/-! Sha1Digest (R112, R113). -/

/-- The state machine of a digest (R112). After `finish` the chunker's FEED_AFTER_FLUSH is what makes `processBuffer` an
error (60_exceptions.md R136), and its FLUSH_TWICE a second `finish` (R137). -/
inductive Sha1Phase where
  | init
  | processing
  | finalized
  deriving DecidableEq, Repr

/-- What a digest keeps. `H` is the type of its hash value. -/
structure Sha1 (H : Type) where
  phase : Sha1Phase
  hash : H
  /-- E: the blocks the chunker has emitted (R113). -/
  emitted : Nat
  totalBytesProcessed : Nat
  deriving DecidableEq, Repr

/-- A digest session issues `INIT 64` (R112). -/
def sha1Start {H : Type} (initial : H) (s : State) : Except ClientError (Engine (Sha1 H)) :=
  Client.sha1.start ⟨.init, initial, 0, 0⟩ s

/-- The emitted blocks go through the compression function in order, and the total grows (R112), by a count the source
leaves open (`Config.totalCountsFed`). -/
def Sha1.process {H : Type} (compress : H → List Byte → H) (fed : Nat) (blocks : List (List Byte)) (d : Sha1 H) :
    Sha1 H where
  phase := .processing
  hash := blocks.foldl compress d.hash
  emitted := d.emitted + blocks.length
  totalBytesProcessed := d.totalBytesProcessed + if Config.totalCountsFed then fed else 64 * blocks.length

/-- `processBuffer` (R112). -/
def sha1ProcessBuffer {H : Type} (compress : H → List Byte → H) (x : List Byte) (e : Engine (Sha1 H)) :
    Except ClientError (Engine (Sha1 H)) :=
  (e.feed x).map fun p => { p.1 with own := e.own.process compress x.length p.2 }

/-- The padded tail goes through the compression function in one or two blocks (R113); with the tail counted, the total
is the bytes fed (91_not_in_source.md). -/
def Sha1.finalize {H : Type} (compress : H → List Byte → H) (tail : List Byte) (d : Sha1 H) : Sha1 H where
  phase := .finalized
  hash := (splitBlocks 64 (sha1PadTail d.emitted tail)).foldl compress d.hash
  emitted := d.emitted
  totalBytesProcessed := 64 * d.emitted + tail.length

/-- `finish` (R113). -/
def sha1Finish {H : Type} (compress : H → List Byte → H) (e : Engine (Sha1 H)) :
    Except ClientError (Engine (Sha1 H)) :=
  e.flush.map fun p => { p.1 with own := e.own.finalize compress p.2 }

/-! OutputFeedbackMode (R114, R115): the engine keeps the feedback. -/

/-- An OFB session issues `INIT n` with `n = len(IV)` (R114). That the feedback before the first block is the IV is in no
file of the spec: PRESUMED, log entry 24. -/
def ofbStart (iv : List Byte) (cipher : BlockTransform) (s : State) : Except ClientError (Engine (List Byte)) :=
  (Client.ofb iv.length cipher).start iv s

/-- OFB over one chunk: the output bytes of the emitted blocks (R114). -/
def ofbProcess (transform : List Byte → List Byte) (x : List Byte) (e : Engine (List Byte)) :
    Except ClientError (Engine (List Byte) × List Byte) :=
  (e.feed x).map fun p =>
    ({ p.1 with own := (ofbBlocks transform e.own p.2).2 }, (ofbBlocks transform e.own p.2).1.flatten)

/-- OFB's `finish()` (R115). Whether its keystream step also sets the feedback is not stated; the engine keeps the old one,
which nothing reads after FLUSH: DESIGN CHOICE, log entry 26. -/
def ofbFinish (transform : List Byte → List Byte) (e : Engine (List Byte)) :
    Except ClientError (Engine (List Byte) × List Byte) :=
  e.flush.map fun p => (p.1, ofbTail transform e.own p.2)

/-! XXTEA streaming encrypt (R116). -/

/-- Every emitted block is transformed (R116). -/
def xxteaEncryptChunk (encrypt : List Byte → List Byte) (x : List Byte) (e : Engine Unit) :
    Except ClientError (Engine Unit × List (List Byte)) :=
  (e.feed x).map fun p => (p.1, p.2.map encrypt)

/-- An encrypt session issues INIT and first feeds the 8-byte length field (R116). -/
def xxteaEncryptStart (encrypt : List Byte → List Byte) (blockBytes : Nat) (lengthField : Vector Byte 8) (s : State) :
    Except ClientError (Engine Unit × List (List Byte)) :=
  ((Client.xxteaEncrypt blockBytes).start () s).bind fun e => xxteaEncryptChunk encrypt lengthField.toList e

/-- `finishEncryption()`: the tail, zero-padded to a block, transformed (R116). -/
def xxteaEncryptFinish (encrypt : List Byte → List Byte) (e : Engine Unit) :
    Except ClientError (Engine Unit × List Byte) :=
  e.flush.map fun p => (p.1, encrypt (xxteaPadTail e.blockBytes p.2))

/-! XXTEA streaming decrypt (R117). -/

/-- What a decrypt session keeps: the declared length once it is known, and the message bytes already emitted. -/
structure Decryption where
  declared : Option Nat
  emitted : Nat
  deriving DecidableEq, Repr

/-- One decrypted block: until the length is known, its first 8 bytes are stripped as the length (R117). How the 8 bytes
spell it is not in the source, so `readLength` is an argument (log entry 13). -/
def Decryption.emit (readLength : List Byte → Nat) (p : List Byte) (d : Decryption) : Decryption × List Byte :=
  match d.declared with
  | none => (⟨some (readLength (p.take 8)), d.emitted + (p.drop 8).length⟩, p.drop 8)
  | some n => (⟨some n, d.emitted + p.length⟩, p)

/-- The emitted blocks in order, each decrypted (R117). -/
def Decryption.emitAll (decrypt : List Byte → List Byte) (readLength : List Byte → Nat) :
    List (List Byte) → Decryption → Decryption × List Byte
  | [], d => (d, [])
  | p :: ps, d =>
    ((Decryption.emitAll decrypt readLength ps (d.emit readLength (decrypt p)).1).1,
      (d.emit readLength (decrypt p)).2 ++
        (Decryption.emitAll decrypt readLength ps (d.emit readLength (decrypt p)).1).2)

/-- A decrypt session issues INIT (R117). -/
def xxteaDecryptStart (blockBytes : Nat) (s : State) : Except ClientError (Engine Decryption) :=
  (Client.xxteaDecrypt blockBytes).start ⟨none, 0⟩ s

/-- The ciphertext is fed and every emitted block decrypted (R117). -/
def xxteaDecryptChunk (decrypt : List Byte → List Byte) (readLength : List Byte → Nat) (x : List Byte)
    (e : Engine Decryption) : Except ClientError (Engine Decryption × List Byte) :=
  (e.feed x).map fun p =>
    ({ p.1 with own := (e.own.emitAll decrypt readLength p.2).1 }, (e.own.emitAll decrypt readLength p.2).2)

/-- What `finishDecryption()` does with the tail (R117). A tail before the length is known, or one that is no whole block,
is not covered (91_not_in_source.md, 93_implementation_defined.md I15). -/
def Decryption.finalize (decrypt : List Byte → List Byte) (blockBytes : Nat) (tail : List Byte) (d : Decryption) :
    Except ClientError (List Byte) :=
  match d.declared with
  | none => .error .notCovered
  | some n =>
    if tail.length = blockBytes then
      match xxteaTrim n d.emitted (decrypt tail) with
      | none => .error .underflow
      | some p => .ok p
    else .error .notCovered

/-- `finishDecryption()` (R117). -/
def xxteaDecryptFinish (decrypt : List Byte → List Byte) (e : Engine Decryption) :
    Except ClientError (Engine Decryption × List Byte) :=
  e.flush.bind fun p => (e.own.finalize decrypt e.blockBytes p.2).map fun out => (p.1, out)

end Sys2Proof.Machine
end

