-- ==== Sys2Proof/Machine/Invariant.lean ====
section
/-! DEFINITION. What holds of every state a run reaches: 10_state.md R26 between commands, carried through the waits of
20_memory.md R55. -/

namespace Sys2Proof.Machine

/-- The build's parameter is legal (00_scope.md R9). -/
def State.BuildLegal (s : State) : Prop :=
  Config.bMaxLeast ≤ s.bMax ∧ s.bMax ≤ Config.bMaxGreatest

/-- The invariants of R26 by phase, with the legal values of BSIZE (R23). BSIZE in ERROR: log entry 9. -/
def State.PhaseLegal (s : State) : Prop :=
  match s.phase with
  | .idle => s.blockSize = 0 ∧ s.clen = 0
  | .active => 1 ≤ s.blockSize ∧ s.blockSize ≤ s.bMax ∧ s.clen ≤ s.blockSize
  | .flushed => 1 ≤ s.blockSize ∧ s.blockSize ≤ s.bMax ∧ s.clen = 0
  | .error => s.blockSize ≤ s.bMax ∧ s.clen = 0

/-- The carry cells are in canonical form and inside `CARRY[0..B_MAX)`, and the first CLEN of them have been written
(R24, 70_reset_and_hazards.md R164). -/
def State.CarryLegal (s : State) : Prop :=
  s.carry.wf = true ∧ (∀ c ∈ s.carry, c.1 < s.bMax) ∧ (∀ i < s.clen, (s.carry.lookup i).isSome = true)

/-- What is in flight at each control point (10_state.md R31). -/
def State.StageLegal (s : State) : Prop :=
  match s.stage with
  | .ready => s.rem = 0 ∧ s.sent = 0
  | .payload =>
    1 ≤ s.rem ∧ s.sent = 0 ∧ (s.mode = .absorb ↔ s.phase = .active) ∧
      (s.mode = .absorb → s.blocks + s.rem ≤ s.feedArg.toNat) ∧ s.rem ≤ s.feedArg.toNat
  | .absorbEmit _ =>
    s.phase = .active ∧ s.mode = .absorb ∧ s.clen = s.blockSize ∧ s.sent < s.clen ∧
      s.blocks + 1 + s.rem ≤ s.feedArg.toNat
  | .flushEmit => s.phase = .active ∧ s.rem = 0 ∧ s.sent < s.clen
  | .respond _ => s.rem = 0 ∧ s.sent = 0

/-- The invariant of the machine. -/
def State.Inv (s : State) : Prop :=
  s.BuildLegal ∧ s.PhaseLegal ∧ s.CarryLegal ∧ s.StageLegal

end Sys2Proof.Machine
end

