-- ==== Sys2Proof/Safety.lean ====
section
/-! DEFINITION. What counts as a safe run, and the terms the statements are made in. -/

namespace Sys2Proof.Machine

/-- No number of steps from `s` ends in a fault: every access stays inside the carry buffer (00_scope.md R13). -/
def State.NeverFaults (s : State) : Prop :=
  ∀ (k : Nat) (f : Fault), Host.Core.run Sys2Proof.core k s ≠ .fault f

/-- The next step takes a word from CMD_IN: no other agent moves first and no command is in progress. -/
def State.TakesCommand (s : State) : Prop := s.schedule = [] ∧ s.stage = .ready

/-- A FEED of `x` finds a session in progress, the carry within its bound (10_state.md R26), and its payload on
DATA_IN, with `rest` behind it (00_scope.md R14). The length fits the ARG field (30_encoding.md R63). -/
def State.FeedReady (s : State) (x rest : List Byte) : Prop :=
  s.phase = .active ∧ 1 ≤ s.blockSize ∧ s.clen ≤ s.blockSize ∧ x.length < 2 ^ 28 ∧ s.dataIn = x ++ rest

/-- The consumer holds neither output channel back (20_memory.md R55). -/
def State.ConsumerReady (s : State) : Prop := s.dataRoom = .unlimited ∧ s.rspRoom = .unlimited

/-- The chunker waits (60_exceptions.md R154): for a word, for a payload byte, or for room on an output channel. -/
def State.Waits (s : State) : Prop :=
  match s.stage with
  | .ready => s.cmdIn = []
  | .payload => s.dataIn = []
  | .absorbEmit _ => s.dataRoom = .upTo 0
  | .flushEmit => s.dataRoom = .upTo 0
  | .respond _ => s.rspRoom = .upTo 0

/-- The move brings the new element, or accepts the element, that a wait of `s` waits for (R154). -/
def Move.Ends (m : Move) (s : State) : Prop :=
  match s.stage with
  | .ready => ∃ w, m = .hostWord w
  | .payload => ∃ b, m = .hostByte b
  | .absorbEmit _ => m = .acceptByte ∧ s.dataOut ≠ []
  | .flushEmit => m = .acceptByte ∧ s.dataOut ≠ []
  | .respond _ => m = .acceptWord ∧ s.rspOut ≠ []

/-- OFB's keystream from a feedback, `n` blocks of it: each is the transform of the one before (41_client_profiles.md
R114). -/
def keystream (transform : List Byte → List Byte) : Nat → List Byte → List Byte
  | 0, _ => []
  | n + 1, feedback => transform feedback ++ keystream transform n (transform feedback)

/-- `f` applied to every carried byte of a move. -/
def Move.mapBytes (f : Byte → Byte) : Move → Move
  | .hostByte b => .hostByte (f b)
  | m => m

/-- `f` applied to the byte a waiting Absorb holds. -/
def Stage.mapBytes (f : Byte → Byte) : Stage → Stage
  | .absorbEmit b => .absorbEmit (f b)
  | g => g

/-- The same state with every carried byte renamed by `f`: on DATA_IN, in the carry, on DATA_OUT, and in the bytes the
host has still to send. The chunker does not read the bytes it carries (00_scope.md R7). -/
def State.mapBytes (f : Byte → Byte) (s : State) : State :=
  { s with
    dataIn := s.dataIn.map f
    dataOut := s.dataOut.map f
    carry := s.carry.map (fun c => (c.1, f c.2))
    stage := s.stage.mapBytes f
    schedule := s.schedule.map (Move.mapBytes f) }

end Sys2Proof.Machine
end

