-- ==== Sys2Proof/Certificates/Slice0/Obligations.lean ====
section
/-! DEFINITION. The statements about the chunker, from the numbered rules of spec/. A command's end is written with
`respond`, which `RespondPlacesOrWaits` describes for every readiness of the consumer, so that no statement shuts out a
consumer that holds RSP_OUT back. That a carry cell at CLEN or above keeps its byte is the model's choice (log entry 23)
wherever a statement says that all cells, or all else, stay. STATUS codes and OP codes are written out as 60_exceptions.md R131 and 30_encoding.md
R61 give them. -/

open Sys2Proof Sys2Proof.Machine

/-! Reset. -/

/-- 10_state.md R33: the reset values the spec gives, for every build; `State.reset` is the reset state of one build. -/
def Obligations.ResetLeavesTheSpecifiedValues : Prop :=
  (∃ n, State.reset = State.resetFor n) ∧
  ∀ n, (State.resetFor n).phase = .idle ∧ (State.resetFor n).phase.code = 0b00#2 ∧
    (State.resetFor n).bsize = 0#28 ∧ (State.resetFor n).clen = 0 ∧ (State.resetFor n).rem = 0 ∧
    (State.resetFor n).mode = .absorb ∧ (State.resetFor n).cmdIn = [] ∧ (State.resetFor n).dataIn = [] ∧
    (State.resetFor n).dataOut = [] ∧ (State.resetFor n).rspOut = []

/-- The invariant holds after power-on, for every legal `B_MAX` (00_scope.md R9). That `State.reset` is the build with
`B_MAX = 64` is the model's choice (log entry 1). -/
def Obligations.ResetMeetsTheInvariant : Prop :=
  State.reset.Inv ∧ ∀ n, 64 ≤ n → n ≤ 2 ^ 28 - 1 → (State.resetFor n).Inv

/-- 70_reset_and_hazards.md R160: the RESET input, asserted in any state, a command in progress included. That `B_MAX` and
the moves to come stay, and that the output channels regain the room of their elements, is the model's choice (log
entry 7). -/
def Obligations.ResetInputRestoresEveryState : Prop :=
  ∀ (s : State) (ms : List Move), s.schedule = .reset :: ms → ∃ t, step s = .next t ∧
    t.phase = .idle ∧ t.bsize = 0#28 ∧ t.clen = 0 ∧ t.rem = 0 ∧ t.mode = .absorb ∧ t.stage = .ready ∧
    t.cmdIn = [] ∧ t.dataIn = [] ∧ t.dataOut = [] ∧ t.rspOut = [] ∧
    t.bMax = s.bMax ∧ t.schedule = ms ∧ t.dataRoom = s.dataRoom.regain s.dataOut.length ∧
    t.rspRoom = s.rspRoom.regain s.rspOut.length ∧
    step { t with schedule := [] } = .next { t with schedule := [] }

/-! Words: decoding and encoding. -/

/-- Words written out from 30_encoding.md R61 to R65. -/
def Obligations.SpecWordsDecode : Prop :=
  decode 0x10000004#32 = .ok (.init 4) ∧ decode 0x1FFFFFFF#32 = .ok (.init 268435455) ∧
  decode 0x20000005#32 = .ok (.feed 5) ∧ decode 0x20000000#32 = .ok (.feed 0) ∧
  decode 0x30000000#32 = .ok .flush ∧ decode 0x00000000#32 = .error (.reservedOp 0x0#4) ∧
  decode 0x40000005#32 = .error (.reservedOp 0x4#4) ∧ decode 0xFFFFFFFF#32 = .error (.reservedOp 0xF#4) ∧
  decode 0x30000001#32 = .error (.flushOperand 1#28)

/-- Decoding the word of a well-formed command gives the command back (R60 to R64). -/
def Obligations.DecodeOfEncodeIsTheCommand : Prop :=
  ∀ i : Instr, i.WellFormed → decode (encode i) = .ok i

/-- A word that decodes is the word of what it decodes to: no two words mean one command (R65). -/
def Obligations.EncodeOfDecodeIsTheWord : Prop :=
  ∀ (w : Word) (i : Instr), decode w = .ok i → i.WellFormed ∧ encode i = w

/-- R65, R68: the decoder is total, by the upper four and lower 28 bits as numbers. -/
def Obligations.DecodeClassifiesEveryWord : Prop :=
  ∀ w : Word,
    (w.toNat / 2 ^ 28 = 1 → decode w = .ok (.init (w.toNat % 2 ^ 28))) ∧
    (w.toNat / 2 ^ 28 = 2 → decode w = .ok (.feed (w.toNat % 2 ^ 28))) ∧
    (w = 0x30000000#32 → decode w = .ok .flush) ∧
    (w.toNat / 2 ^ 28 ≠ 1 → w.toNat / 2 ^ 28 ≠ 2 → w ≠ 0x30000000#32 → ∃ e, decode w = .error e)

/-! The command cycle. -/

/-- 40_commands.md R96: a step takes the word at the head of CMD_IN and runs the command it decodes to, on its own turn
or on a turn the schedule gives the chunker. -/
def Obligations.StepRunsTheDecodedCommand : Prop :=
  ∀ (s : State) (w : Word) (ws : List Word) (i : Instr), s.stage = .ready → s.cmdIn = w :: ws → decode w = .ok i →
    (s.schedule = [] → step s = exec i { s with cmdIn := ws }) ∧
    (∀ ms, s.schedule = .chunker :: ms → step s = exec i { s with cmdIn := ws, schedule := ms })

/-- 60_exceptions.md R132: an illegal word, in every phase, takes no payload and raises ILLEGAL_COMMAND (0x1). -/
def Obligations.IllegalWordRaisesIllegalCommand : Prop :=
  ∀ (s : State) (w : Word) (ws : List Word), s.TakesCommand → s.cmdIn = w :: ws →
    (w.toNat / 2 ^ 28 = 0 ∨ 4 ≤ w.toNat / 2 ^ 28 ∨ (w.toNat / 2 ^ 28 = 3 ∧ w.toNat % 2 ^ 28 ≠ 0)) →
    step s = .next (respond (joinWord 0x1#4 (argField w)) { s with cmdIn := ws, phase := .error, clen := 0 })

/-- 00_scope.md R13, 20_memory.md R55: Respond places the word and ends the command, or waits with it. -/
def Obligations.RespondPlacesOrWaits : Prop :=
  ∀ (w : Word) (s : State),
    (s.rspRoom = .unlimited → respond w s = { s with rspOut := s.rspOut ++ [w], stage := .ready }) ∧
    (∀ n, s.rspRoom = .upTo (n + 1) →
      respond w s = { s with rspOut := s.rspOut ++ [w], stage := .ready, rspRoom := .upTo n }) ∧
    (s.rspRoom = .upTo 0 → respond w s = { s with stage := .respond w })

/-- 30_encoding.md R68: no command but FEED, and no illegal word, takes a byte from DATA_IN. -/
def Obligations.OnlyFeedTakesPayload : Prop :=
  ∀ (s t : State) (w : Word) (ws : List Word), s.TakesCommand → s.cmdIn = w :: ws →
    (∀ l, decode w ≠ .ok (.feed l)) → step s = .next t → t.dataIn = s.dataIn ∧ t.rem = s.rem

/-- Every well-formed command has a next state in every state of the invariant between commands, in every phase
(60_exceptions.md R149). -/
def Obligations.EveryCommandAnswersInEveryPhase : Prop :=
  ∀ (i : Instr) (s : State), i.WellFormed → s.Inv → s.stage = .ready → ∃ t, exec i s = .next t

/-- 30_encoding.md R66, 20_memory.md R48: a word taken from CMD_IN, legal or illegal, produces exactly one response, and
with the consumer ready and the payload there it does so in one step. -/
def Obligations.EveryWordGetsExactlyOneResponse : Prop :=
  ∀ (s : State) (w : Word) (ws : List Word), s.Inv → s.TakesCommand → s.ConsumerReady → s.cmdIn = w :: ws →
    (∀ l, decode w = .ok (.feed l) → l ≤ s.dataIn.length) →
    ∃ t r, step s = .next t ∧ t.stage = .ready ∧ t.rem = 0 ∧ t.cmdIn = ws ∧ t.rspOut = s.rspOut ++ [r]

/-! INIT. -/

/-- 40_commands.md R80, clause by clause in the order of its checks. That a successful INIT leaves every carry cell as it is
is the model's choice (log entry 23), and that it leaves MODE, the block count and `feedArg` too (log entry 15). -/
def Obligations.InitFollowsItsPseudocode : Prop :=
  ∀ (b : Nat) (s : State),
    (s.phase = .error →
      exec (.init b) s = .next (respond (joinWord 0x2#4 (zext28 b)) { s with phase := .error, clen := 0 })) ∧
    (s.phase = .active ∨ s.phase = .flushed →
      exec (.init b) s = .next (respond (joinWord 0x4#4 (zext28 b)) { s with phase := .error, clen := 0 })) ∧
    (s.phase = .idle → b = 0 →
      exec (.init b) s = .next (respond (joinWord 0x7#4 (zext28 b)) { s with phase := .error, clen := 0 })) ∧
    (s.phase = .idle → b ≠ 0 → s.bMax < b →
      exec (.init b) s = .next (respond (joinWord 0x8#4 (zext28 b)) { s with phase := .error, clen := 0 })) ∧
    (s.phase = .idle → b ≠ 0 → b ≤ s.bMax →
      exec (.init b) s = .next (respond (joinWord 0x0#4 (zext28 b))
        { s with bsize := zext28 b, clen := 0, phase := .active }))

/-- What INIT leaves unchanged, in every phase and for every B: the carry cells (those at CLEN and above by the model's
choice, log entry 23), three channels, the FEED bookkeeping (MODE, the block count and `feedArg` by the model's choice, log
entry 15), the build; BSIZE too unless INIT succeeds. It may change PHASE, BSIZE, CLEN and RSP_OUT (R80). -/
def Obligations.InitFrame : Prop :=
  ∀ (b : Nat) (s t : State), exec (.init b) s = .next t →
    (∀ i, t.carry.cell i = s.carry.cell i) ∧ t.cmdIn = s.cmdIn ∧ t.dataIn = s.dataIn ∧ t.dataOut = s.dataOut ∧
    t.rem = s.rem ∧ t.mode = s.mode ∧ t.blocks = s.blocks ∧ t.bMax = s.bMax ∧ t.sent = s.sent ∧
    t.feedArg = s.feedArg ∧ t.dataRoom = s.dataRoom ∧ t.schedule = s.schedule ∧
    (t.phase = .error ∨ (t.phase = .active ∧ s.phase = .idle)) ∧ (t.phase = .error → t.bsize = s.bsize)

/-! FEED. -/

/-- 40_commands.md R86: a successful FEED of `x` emits exactly the blocks of FeedSpec, leaves its carry, answers its block
count, and changes nothing else; for every readiness of the consumer that lets the blocks through. -/
def Obligations.FeedAgreesWithFeedSpec : Prop :=
  ∀ (s : State) (x rest : List Byte), s.FeedReady x rest →
    s.dataRoom.grant (feedSpec s.blockSize s.carryBytes x).1.flatten.length =
      (feedSpec s.blockSize s.carryBytes x).1.flatten.length →
    ∃ t : State,
      exec (.feed x.length) s =
        .next (respond (joinWord 0x0#4 (zext28 (feedSpec s.blockSize s.carryBytes x).1.length)) t) ∧
      t.carryBytes = (feedSpec s.blockSize s.carryBytes x).2 ∧
      t = { s with
        dataIn := rest, rem := 0, mode := .absorb, feedArg := zext28 x.length, sent := 0
        blocks := (feedSpec s.blockSize s.carryBytes x).1.length
        dataOut := s.dataOut ++ (feedSpec s.blockSize s.carryBytes x).1.flatten
        dataRoom := s.dataRoom.spend (feedSpec s.blockSize s.carryBytes x).1.flatten.length
        carry := t.carry, clen := t.clen }

/-- 40_commands.md R90: the block count in closed form, from CLEN and from the totals before and after. It fits COUNT
(30_encoding.md R67), and a successful FEED emits `k * B` bytes (R66, R94). -/
def Obligations.FeedBlockCountIsTheClosedForm : Prop :=
  ∀ (s : State) (x rest : List Byte) (k : Nat), s.FeedReady x rest → s.dataRoom = .unlimited →
    k = (if s.clen + x.length = 0 then 0 else (s.clen + x.length - 1) / s.blockSize) →
    k ≤ (s.blockSize + x.length - 1) / s.blockSize ∧ k < 2 ^ 28 ∧
    (∀ n, carryAfter s.blockSize n = s.clen →
      k = blocksAfter s.blockSize (n + x.length) - blocksAfter s.blockSize n) ∧
    ∃ (t : State) (out : List Byte), exec (.feed x.length) s = .next (respond (joinWord 0x0#4 (zext28 k)) t) ∧
      t.dataOut = s.dataOut ++ out ∧ out.length = k * s.blockSize

/-- 40_commands.md R87: an empty FEED in ACTIVE, on a full carry too, for every readiness of the consumer. -/
def Obligations.EmptyFeedLeavesTheSession : Prop :=
  ∀ s : State, s.phase = .active →
    exec (.feed 0) s = .next (respond (joinWord 0x0#4 0#28)
      { s with rem := 0, mode := .absorb, blocks := 0, feedArg := 0#28, sent := 0 })

/-- 40_commands.md R83: Absorb, one byte, for a consumer that lets a block through. That the cells it does not write keep
their bytes is the model's choice above CLEN (log entry 23). -/
def Obligations.AbsorbTakesOneByte : Prop :=
  ∀ (b : Byte) (s : State), s.sent = 0 → 1 ≤ s.blockSize → s.clen ≤ s.blockSize →
    s.dataRoom.grant s.blockSize = s.blockSize →
    ∃ t, absorb b s = .done t ∧ 1 ≤ t.clen ∧ t.clen ≤ t.blockSize ∧ t.bsize = s.bsize ∧ t.phase = s.phase ∧
      (s.clen = s.blockSize →
        t.dataOut = s.dataOut ++ s.carryBytes ∧ t.carryBytes = [b] ∧ t.clen = 1 ∧ t.blocks = s.blocks + 1 ∧
        ∀ i, i ≠ 0 → t.carry.cell i = s.carry.cell i) ∧
      (s.clen < s.blockSize →
        t.dataOut = s.dataOut ∧ t.carryBytes = s.carryBytes ++ [b] ∧ t.clen = s.clen + 1 ∧ t.blocks = s.blocks ∧
        ∀ i, i ≠ s.clen → t.carry.cell i = s.carry.cell i)

/-- 40_commands.md R84: a chunk that at most fills the carry emits nothing, whatever the consumer lets through; the byte
after a full carry releases it. -/
def Obligations.FullCarryIsHeldBack : Prop :=
  ∀ (s : State) (x rest : List Byte), s.FeedReady x rest →
    (s.clen + x.length ≤ s.blockSize →
      ∃ t : State, exec (.feed x.length) s = .next (respond (joinWord 0x0#4 0#28) t) ∧
        t.dataOut = s.dataOut ∧ t.carryBytes = s.carryBytes ++ x ∧ t.dataIn = rest) ∧
    (∀ b, s.clen = s.blockSize → x = [b] → s.dataRoom.grant s.blockSize = s.blockSize →
      ∃ t : State, exec (.feed 1) s = .next (respond (joinWord 0x0#4 1#28) t) ∧
        t.dataOut = s.dataOut ++ s.carryBytes ∧ t.carryBytes = [b] ∧ t.dataIn = rest)

/-- 60_exceptions.md R142, R136: a FEED outside ACTIVE takes exactly L bytes, discards them and raises its phase's error;
with fewer bytes there it takes those and waits. That the block count stays is the model's choice (log entry 15). -/
def Obligations.RejectedFeedDrainsItsPayload : Prop :=
  ∀ (l : Nat) (s : State), s.phase ≠ .active →
    (l ≤ s.dataIn.length →
      exec (.feed l) s = .next (respond
        (joinWord
          (match s.phase with | .error => 0x2#4 | .idle => 0x3#4 | .flushed => 0x5#4 | .active => 0x0#4)
          (zext28 l))
        { s with
          dataIn := s.dataIn.drop l, rem := 0, mode := .drain, feedArg := zext28 l, sent := 0
          phase := .error, clen := 0 })) ∧
    (s.dataIn.length < l →
      exec (.feed l) s = .next { s with
        dataIn := [], rem := l - s.dataIn.length, mode := .drain, feedArg := zext28 l, sent := 0
        stage := .payload })

/-- 70_reset_and_hazards.md R166: a FEED with fewer than L bytes on DATA_IN takes them and is stuck: no number of further
turns responds, errs or takes a command, whatever the host has placed on CMD_IN. -/
def Obligations.ShortPayloadLeavesTheChunkerStuck : Prop :=
  ∀ (l : Nat) (s : State), s.dataIn.length < l → s.dataRoom = .unlimited →
    (s.phase = .active → 1 ≤ s.blockSize ∧ s.clen ≤ s.blockSize) →
    ∃ t : State, exec (.feed l) s = .next t ∧ t.stage = .payload ∧ t.rem = l - s.dataIn.length ∧ t.dataIn = [] ∧
      t.rspOut = s.rspOut ∧ t.cmdIn = s.cmdIn ∧ t.phase = s.phase ∧
      ∀ (k : Nat) (ws : List Word),
        Host.Core.run Sys2Proof.core k { t with schedule := [], cmdIn := ws } =
          .next { t with schedule := [], cmdIn := ws }

/-- 10_state.md R31, 40_commands.md R86 (92_eei_decisions.md D19): a FEED whose payload arrives in two parts, with a wait
between them, ends as if all of it had been there: the byte-level and the atomic FEED agree. -/
def Obligations.PayloadInPartsEndsAsOneFeed : Prop :=
  ∀ (l : Nat) (x y : List Byte) (s t : State), s.schedule = [] →
    exec (.feed l) { s with dataIn := x } = .next t → t.stage = .payload →
    step { t with dataIn := y } = exec (.feed l) { s with dataIn := x ++ y }

/-- 20_memory.md R55: a FEED that the consumer holds back in the Emit of a block ends, once DATA_OUT has room for all of
it, as a FEED that was never held back; no output is lost, repeated or reordered by the wait. -/
def Obligations.HeldBackFeedEndsAsAnUnhinderedOne : Prop :=
  ∀ (l : Nat) (b : Byte) (s t : State), s.schedule = [] → exec (.feed l) s = .next t → t.stage = .absorbEmit b →
    step { t with dataRoom := .unlimited } = exec (.feed l) { s with dataRoom := .unlimited }

/-- What FEED leaves unchanged, in every phase, for every L, whether it completes or waits. The bytes it stores go to the
cells `(CLEN + j) mod B` for its payload bytes j (R83: at CLEN, which restarts at 0 on a full carry); every other cell
reads as before (at CLEN and above by the model's choice, log entry 23). Outside ACTIVE it stores and emits nothing. It may change PHASE (to ERROR), CLEN, DATA_IN, DATA_OUT,
RSP_OUT and the FEED bookkeeping. -/
def Obligations.FeedFrame : Prop :=
  ∀ (l : Nat) (s t : State), exec (.feed l) s = .next t →
    (∀ i, (∀ j, j < l → i ≠ (s.clen + j) % s.blockSize) → t.carry.cell i = s.carry.cell i) ∧
    t.bsize = s.bsize ∧ t.cmdIn = s.cmdIn ∧ t.bMax = s.bMax ∧ t.schedule = s.schedule ∧
    (s.phase = .active → t.phase = .active) ∧
    (s.phase ≠ .active →
      (∀ i, t.carry.cell i = s.carry.cell i) ∧ t.dataOut = s.dataOut ∧ t.dataRoom = s.dataRoom ∧
        (t.phase = .error ∨ (t.phase = s.phase ∧ t.stage = .payload)))

/-! FLUSH. -/

/-- 40_commands.md R82, clause by clause; in ACTIVE for every readiness of the consumer that lets the tail through. That the
emitted cells keep their bytes is the model's choice (log entry 23), and that MODE, the block count and `feedArg` stay
(log entry 15). -/
def Obligations.FlushFollowsItsPseudocode : Prop :=
  ∀ s : State,
    (s.phase = .error →
      exec .flush s = .next (respond (joinWord 0x2#4 0#28) { s with phase := .error, clen := 0 })) ∧
    (s.phase = .idle →
      exec .flush s = .next (respond (joinWord 0x3#4 0#28) { s with phase := .error, clen := 0 })) ∧
    (s.phase = .flushed →
      exec .flush s = .next (respond (joinWord 0x6#4 0#28) { s with phase := .error, clen := 0 })) ∧
    (s.phase = .active → s.clen ≤ s.blockSize → s.dataRoom.grant s.clen = s.clen →
      exec .flush s = .next (respond (joinWord 0x0#4 (zext28 s.clen))
        { s with
          dataOut := s.dataOut ++ s.carryBytes, dataRoom := s.dataRoom.spend s.clen, sent := 0
          clen := 0, phase := .flushed }))

/-- 20_memory.md R55: a FLUSH held back in its Emit has placed what the consumer let through and nothing of its effect on
PHASE; it keeps waiting while the channel is held back, and ends as an unhindered one once the channel has room. -/
def Obligations.HeldBackFlushWaitsAndResumes : Prop :=
  ∀ (s : State) (r : Nat), s.phase = .active → s.clen ≤ s.blockSize → r < s.clen → s.dataRoom = .upTo r →
    s.schedule = [] →
    ∃ t : State, exec .flush s = .next t ∧ t.stage = .flushEmit ∧ t.phase = .active ∧ t.clen = s.clen ∧
      t.rspOut = s.rspOut ∧ t.dataOut = s.dataOut ++ s.carryBytes.take r ∧ step t = .next t ∧
      step { t with dataRoom := .unlimited } = exec .flush { s with dataRoom := .unlimited }

/-- What FLUSH leaves unchanged, in every phase, whether it completes or waits. It stores to no carry cell (that the emitted
cells keep their bytes is the model's choice, log entry 23), and may change PHASE, CLEN, DATA_OUT and RSP_OUT (R82). That
MODE, the block count and `feedArg` stay is the model's choice (log entry 15). -/
def Obligations.FlushFrame : Prop :=
  ∀ s t : State, exec .flush s = .next t →
    (∀ i, t.carry.cell i = s.carry.cell i) ∧ t.bsize = s.bsize ∧ t.cmdIn = s.cmdIn ∧ t.dataIn = s.dataIn ∧
    t.rem = s.rem ∧ t.mode = s.mode ∧ t.blocks = s.blocks ∧ t.bMax = s.bMax ∧ t.feedArg = s.feedArg ∧
    t.schedule = s.schedule ∧
    (s.phase ≠ .active → t.dataOut = s.dataOut ∧ t.dataRoom = s.dataRoom ∧ t.phase = .error)

/-! Errors and phases. -/

/-- 60_exceptions.md R133: every legal command in ERROR raises SESSION_TERMINATED (0x2); a FEED drains first. That the
block count stays, and MODE and `feedArg` after INIT and FLUSH, is the model's choice (log entry 15). -/
def Obligations.TerminatedSessionRejectsEveryCommand : Prop :=
  ∀ (s : State) (w : Word) (ws : List Word), s.TakesCommand → s.cmdIn = w :: ws → s.phase = .error →
    ((∃ b, decode w = .ok (.init b)) ∨ decode w = .ok .flush →
      step s = .next (respond (joinWord 0x2#4 (argField w)) { s with cmdIn := ws, phase := .error, clen := 0 })) ∧
    (∀ l, decode w = .ok (.feed l) → l ≤ s.dataIn.length →
      step s = .next (respond (joinWord 0x2#4 (argField w))
        { s with
          cmdIn := ws, dataIn := s.dataIn.drop l, rem := 0, mode := .drain, feedArg := argField w, sent := 0
          phase := .error, clen := 0 }))

/-- 60_exceptions.md R145: only reset leaves ERROR, and it leaves every piece of the spec's state at its reset value. The
next state is given whole; the room of the channels, the moves to come and the forgotten carry cells follow log entry 7,
the reset values of the block count and the model's own fields log entry 6. -/
def Obligations.OnlyResetLeavesError : Prop :=
  ∀ s t : State, s.Inv → s.phase = .error → step s = .next t →
    t.phase = .error ∨
    (∃ ms, s.schedule = .reset :: ms ∧
      t = { State.resetFor s.bMax with
        dataRoom := s.dataRoom.regain s.dataOut.length, rspRoom := s.rspRoom.regain s.rspOut.length, schedule := ms })

/-- 10_state.md R22: the phase codes and the transitions; no other one exists. -/
def Obligations.PhaseChangesOnlyAsSpecified : Prop :=
  Phase.code .idle = 0b00#2 ∧ Phase.code .active = 0b01#2 ∧ Phase.code .flushed = 0b10#2 ∧
  Phase.code .error = 0b11#2 ∧
  ∀ s t : State, s.Inv → step s = .next t →
    t.phase = s.phase ∨ (s.phase = .idle ∧ t.phase = .active) ∨ (s.phase = .active ∧ t.phase = .flushed) ∨
    t.phase = .error ∨ (t.phase = .idle ∧ ∃ ms, s.schedule = .reset :: ms)

/-- 10_state.md R23: the block size is fixed for the session: only an INIT in IDLE and reset change BSIZE. -/
def Obligations.BlockSizeIsFixedForTheSession : Prop :=
  ∀ s t : State, step s = .next t →
    t.bsize = s.bsize ∨ (s.phase = .idle ∧ t.phase = .active ∧ t.clen = 0) ∨ (∃ ms, s.schedule = .reset :: ms)

/-! Channels and waits. -/

/-- 10_state.md R32: on the chunker's own turn the output channels only grow at their end and the input channels only
lose elements at their head. -/
def Obligations.ChunkerKeepsChannelOrder : Prop :=
  ∀ s t : State, chunkerTurn s = .next t →
    (∃ out, t.dataOut = s.dataOut ++ out) ∧ (∃ rsp, t.rspOut = s.rspOut ++ rsp ∧ rsp.length ≤ 1) ∧
    (∃ taken, s.dataIn = taken ++ t.dataIn) ∧ (∃ taken, s.cmdIn = taken ++ t.cmdIn ∧ taken.length ≤ 1)

/-- 20_memory.md R49, R48: when a turn places a response, the command's output is all placed, its payload all taken, and
the command is over; and a turn that resumes a command takes no word from CMD_IN. -/
def Obligations.ResponseComesAfterAllOutput : Prop :=
  ∀ s t : State, s.Inv → chunkerTurn s = .next t →
    (t.rspOut ≠ s.rspOut → t.stage = .ready ∧ t.sent = 0 ∧ t.rem = 0) ∧
    (s.stage ≠ .ready → t.cmdIn = s.cmdIn)

/-- 60_exceptions.md R154: the chunker waits, and keeps its whole state, while CMD_IN or DATA_IN is empty or the consumer
holds back DATA_OUT or RSP_OUT. -/
def Obligations.WaitsKeepTheWholeState : Prop :=
  ∀ s : State, s.Inv → s.schedule = [] →
    (s.stage = .ready → s.cmdIn = [] → step s = .next s) ∧
    (s.stage = .payload → s.dataIn = [] → step s = .next s) ∧
    (∀ b, s.stage = .absorbEmit b → s.dataRoom = .upTo 0 → step s = .next s) ∧
    (s.stage = .flushEmit → s.dataRoom = .upTo 0 → step s = .next s) ∧
    (∀ w, s.stage = .respond w → s.rspRoom = .upTo 0 → step s = .next s)

/-- 60_exceptions.md R154: a wait is ended only by the new element, or the accepted element, it waits for, and by reset. Any
other move leaves the chunker waiting with nothing of its own changed, and that one move lets it go on. -/
def Obligations.OnlyTheElementWaitedForEndsAWait : Prop :=
  ∀ (s t : State) (m : Move) (ms : List Move), s.Waits → s.Inv → s.schedule = m :: ms → m ≠ .reset →
    step s = .next t →
    (m.Ends s → ¬ t.Waits ∧ t.stage = s.stage) ∧
    (¬ m.Ends s → t.Waits ∧ t.stage = s.stage ∧ t.phase = s.phase ∧ t.bsize = s.bsize ∧ t.carry = s.carry ∧
      t.clen = s.clen ∧ t.rem = s.rem ∧ t.mode = s.mode ∧ t.blocks = s.blocks ∧ t.sent = s.sent ∧
      t.feedArg = s.feedArg)

/-- 20_memory.md R55, 60_exceptions.md R154: the consumer accepting a byte ends the wait of an Emit; the chunker's next turn
places the next byte of the carry, the first one not yet placed. That one accepted byte makes room for exactly one, after
which the Emit waits again, is the model's choice (log entry 5): the spec gives no depth. -/
def Obligations.AcceptedByteLetsTheNextOneOut : Prop :=
  ∀ (s : State) (b : Byte) (bs : List Byte), s.Inv → (s.stage = .flushEmit ∨ ∃ x, s.stage = .absorbEmit x) →
    s.dataRoom = .upTo 0 → s.dataOut = b :: bs → s.schedule = [.acceptByte] →
    ∃ t u : State, step s = .next t ∧ step t = .next u ∧
      ∃ out : List Byte, u.dataOut = bs ++ out ∧ out = [s.carry.cell s.sent] ∧
        (s.sent + 1 < s.clen → u.stage = s.stage ∧ u.sent = s.sent + 1 ∧ u.Waits)

/-- 10_state.md R32: what the host and the consumer do to the channels; each is first-in first-out. An accepted element
makes room for another (60_exceptions.md R154; the form of the room is log entry 5). -/
def Obligations.HostAndConsumerMoveTheChannels : Prop :=
  ∀ (s : State) (ms : List Move),
    (∀ w, s.schedule = .hostWord w :: ms → step s = .next { s with cmdIn := s.cmdIn ++ [w], schedule := ms }) ∧
    (∀ b, s.schedule = .hostByte b :: ms → step s = .next { s with dataIn := s.dataIn ++ [b], schedule := ms }) ∧
    (∀ b bs, s.schedule = .acceptByte :: ms → s.dataOut = b :: bs →
      step s = .next { s with dataOut := bs, dataRoom := s.dataRoom.regain 1, schedule := ms }) ∧
    (∀ w ws, s.schedule = .acceptWord :: ms → s.rspOut = w :: ws →
      step s = .next { s with rspOut := ws, rspRoom := s.rspRoom.regain 1, schedule := ms })

/-- 20_memory.md R52: a second host is refused. -/
def Obligations.SecondHostIsRefused : Prop :=
  ∀ (s : State) (ms : List Move), s.schedule = .secondHost :: ms → step s = .refused .secondHost

/-! The invariant. -/

/-- 10_state.md R26, carried through every wait: every step of every agent keeps the invariant. -/
def Obligations.StepKeepsTheInvariant : Prop :=
  ∀ s t : State, s.Inv → step s = .next t → t.Inv

/-- 00_scope.md R13 (`i + n <= B` always holds): from a state of the invariant no run faults. -/
def Obligations.InvariantRunsNeverFault : Prop := ∀ s : State, s.Inv → s.NeverFaults

/-! Whole sessions. -/

/-- 40_commands.md R88, R89: the counts and contents after INIT and any FEEDs; T is the total length. -/
def Obligations.SessionCountsFollowTheTotal : Prop :=
  ∀ (b : Nat) (xs : List (List Byte)) (s : State), s.phase = .idle → 1 ≤ b → b ≤ s.bMax → s.bMax ≤ 2 ^ 28 - 1 →
    s.ConsumerReady → (∀ x ∈ xs, x.length < 2 ^ 28) →
    ∃ t u : State, exec (.init b) s = .next t ∧ feedChunks xs t = .next u ∧ u.phase = .active ∧
      u.clen = carryAfter b xs.flatten.length ∧
      u.dataOut = s.dataOut ++ xs.flatten.take (blocksAfter b xs.flatten.length * b) ∧
      u.carryBytes = xs.flatten.drop (blocksAfter b xs.flatten.length * b) ∧
      xs.flatten.length = blocksAfter b xs.flatten.length * b + u.clen

/-- 40_commands.md R91: two ways of cutting one byte sequence into chunks, from the same state: the same blocks, the same
carry and the same FLUSH tail. -/
def Obligations.ChunkBoundariesDoNotMatter : Prop :=
  ∀ (xs ys : List (List Byte)) (s : State), s.phase = .active → 1 ≤ s.blockSize → s.clen ≤ s.blockSize →
    s.ConsumerReady → (∀ x ∈ xs, x.length < 2 ^ 28) → (∀ y ∈ ys, y.length < 2 ^ 28) → xs.flatten = ys.flatten →
    ∃ t u t' u' : State, feedChunks xs s = .next t ∧ feedChunks ys s = .next u ∧ t.dataOut = u.dataOut ∧
      t.carryBytes = u.carryBytes ∧ exec .flush t = .next t' ∧ exec .flush u = .next u' ∧ t'.dataOut = u'.dataOut

/-- 40_commands.md R92: a session without errors gives back exactly the bytes fed. -/
def Obligations.SessionReturnsTheBytesFed : Prop :=
  ∀ (b : Nat) (xs : List (List Byte)) (s : State), s.phase = .idle → 1 ≤ b → b ≤ s.bMax → s.bMax ≤ 2 ^ 28 - 1 →
    s.ConsumerReady → (∀ x ∈ xs, x.length < 2 ^ 28) →
    ∃ t : State, runSession b xs s = .next t ∧ t.phase = .flushed ∧ t.clen = 0 ∧
      t.dataOut = s.dataOut ++ xs.flatten

/-- 40_commands.md R93: the FLUSH tail of a session that fed T bytes: the bytes FLUSH places on DATA_OUT after the FEEDs,
whose number its response gives. -/
def Obligations.TailLengthFollowsTheTotal : Prop :=
  ∀ (b : Nat) (xs : List (List Byte)) (s : State), s.phase = .idle → 1 ≤ b → b ≤ s.bMax → s.bMax ≤ 2 ^ 28 - 1 →
    s.ConsumerReady → (∀ x ∈ xs, x.length < 2 ^ 28) →
    ∃ (c u t : State) (out : List Byte) (tail : Nat), exec (.init b) s = .next c ∧ feedChunks xs c = .next u ∧
      exec .flush u = .next t ∧ runSession b xs s = .next t ∧ t.dataOut = u.dataOut ++ out ∧ out.length = tail ∧
      t.rspOut = u.rspOut ++ [joinWord 0x0#4 (zext28 tail)] ∧ (tail = 0 ↔ xs.flatten.length = 0) ∧
      (xs.flatten.length ≠ 0 → tail = (xs.flatten.length - 1) % b + 1 ∧ 1 ≤ tail ∧ tail ≤ b) ∧
      (∀ n, 1 ≤ n → xs.flatten.length = n * b → tail = b)

/-- 00_scope.md R7: the chunker does not read the bytes it carries: renaming every byte before a step is renaming it
after. -/
def Obligations.CarriedBytesAreNotRead : Prop :=
  ∀ (f : Byte → Byte) (s t : State), s.Inv → step s = .next t → step (s.mapBytes f) = .next (t.mapBytes f)

/-! The host's notation and the clients. -/

/-- 30_encoding.md R71: what FEEDL expands into. -/
def Obligations.FeedlSplitsIntoLargestChunks : Prop :=
  ∀ x : List Byte,
    (x.length < 2 ^ 28 → feedlChunks x = [x]) ∧
    (2 ^ 28 ≤ x.length →
      (feedlChunks x).flatten = x ∧
      (feedlChunks x).length = (x.length + (2 ^ 28 - 1) - 1) / (2 ^ 28 - 1) ∧
      (∀ c ∈ (feedlChunks x).dropLast, c.length = 2 ^ 28 - 1) ∧
      (∀ c ∈ feedlChunks x, 1 ≤ c.length ∧ c.length ≤ 2 ^ 28 - 1))

/-- 41_client_profiles.md R113: SHA-1's padded tail, for every tail length the chunker can return. That of a bit length of
2^64 or more the low 64 bits are kept is the model's choice (log entry 25). -/
def Obligations.Sha1PaddedTailIsOneOrTwoBlocks : Prop :=
  ∀ (e : Nat) (tail : List Byte), tail.length ≤ 64 →
    (sha1PadTail e tail).length = (if tail.length ≤ 55 then 64 else 128) ∧
    (sha1PadTail e tail).take (tail.length + 1) = tail ++ [0x80#8] ∧
    (∀ i, tail.length < i → i + 8 < (sha1PadTail e tail).length → (sha1PadTail e tail)[i]? = some 0#8) ∧
    (sha1PadTail e tail).drop ((sha1PadTail e tail).length - 8) = bigEndian 8 (8 * (64 * e + tail.length))

/-- 41_client_profiles.md R111: what each client checks, that it issues nothing when the check fails, and that with a legal
block size in the build's range it begins its session with a reset and INIT, on any chunker (R119). -/
def Obligations.ClientChecksItsBlockSizeBeforeInit : Prop :=
  (Client.sha1.blockSize = 64 ∧ Client.sha1.configLegal = true) ∧
  (∀ b, ((Client.xxteaEncrypt b).configLegal = true ↔ 8 ≤ b ∧ 4 ∣ b) ∧
    ((Client.xxteaDecrypt b).configLegal = true ↔ 8 ≤ b ∧ 4 ∣ b)) ∧
  (∀ n b, ((Client.ofb n (.xxtea b)).configLegal = true ↔ n = b ∧ 8 ≤ b ∧ 4 ∣ b) ∧
    ((Client.ofb n (.other b)).configLegal = true ↔ n = b)) ∧
  ∀ (α : Type) (c : Client) (lengthField : Vector Byte 8) (chunks : List (List Byte)) (own : α) (s : State),
    (c.configLegal = false →
      c.session lengthField chunks = .error .configuration ∧ c.start own s = .error .configuration) ∧
    (c.configLegal = true → s.ConsumerReady → s.bMax ≤ 2 ^ 28 - 1 → 1 ≤ c.blockSize → c.blockSize ≤ s.bMax →
      c.session lengthField chunks = .ok (.reset :: (c.commands lengthField chunks).flatMap Sent.moves) ∧
      ∃ e, c.start own s = .ok e ∧ e.own = own ∧ e.chunker.phase = .active ∧ e.chunker.blockSize = c.blockSize)

/-- 41_client_profiles.md R112, R113: a digest session over any chunks, on the chunker: the compression function runs over
the padded message in 64-byte blocks, in order; the states of the session; the total; and `processBuffer` after `finish`
is the chunker's FEED_AFTER_FLUSH (0x5). That an empty first `processBuffer` takes the digest to Processing too is the
model's deduction (log entry 13), and that of a bit length of 2^64 or more the low 64 bits are kept its choice (log entry
25). -/
def Obligations.Sha1SessionCompressesThePaddedMessage : Prop :=
  ∀ (H : Type) (compress : H → List Byte → H) (initial : H) (chunks : List (List Byte)) (s : State), s.ConsumerReady →
    64 ≤ s.bMax → s.bMax ≤ 2 ^ 28 - 1 →
    ∃ (e f g : Engine (Sha1 H)) (zeros : Nat),
      sha1Start initial s = .ok e ∧ e.own.phase = .init ∧
      chunks.foldlM (fun d x => sha1ProcessBuffer compress x d) e = .ok f ∧
      (chunks ≠ [] → f.own.phase = .processing) ∧
      f.own.hash = ((splitBlocks 64 chunks.flatten).take (blocksAfter 64 chunks.flatten.length)).foldl compress initial ∧
      sha1Finish compress f = .ok g ∧ g.own.phase = .finalized ∧
      g.own.totalBytesProcessed = chunks.flatten.length ∧
      zeros < 64 ∧ (chunks.flatten.length + 1 + zeros) % 64 = 56 ∧
      g.own.hash = (splitBlocks 64 (chunks.flatten ++ 0x80#8 :: List.replicate zeros 0#8 ++
        bigEndian 8 (8 * chunks.flatten.length))).foldl compress initial ∧
      ∀ x, sha1ProcessBuffer compress x g = .error (.rejected 0x5#4)

/-- 41_client_profiles.md R114, R115: an OFB session over any chunks, on the chunker: the output is the message XORed byte
by byte with the keystream, as long as the message. That the keystream starts from the IV is presumed (log entry 24). -/
def Obligations.OfbSessionXorsTheKeystream : Prop :=
  ∀ (transform : List Byte → List Byte) (iv : List Byte) (cipher : BlockTransform) (chunks : List (List Byte)) (s : State),
    s.ConsumerReady → s.bMax ≤ 2 ^ 28 - 1 → 1 ≤ iv.length → iv.length ≤ s.bMax → (Client.ofb iv.length cipher).configLegal = true →
    (∀ p, p.length = iv.length → (transform p).length = iv.length) →
    ∃ (e f g : Engine (List Byte)) (out last : List Byte),
      ofbStart iv cipher s = .ok e ∧ forEachChunk (ofbProcess transform) chunks e = .ok (f, out) ∧
      ofbFinish transform f = .ok (g, last) ∧ g.chunker.phase = .flushed ∧
      (out ++ last).length = chunks.flatten.length ∧
      out ++ last = xorBytes chunks.flatten (keystream transform (chunks.flatten.length / iv.length + 1) iv)

/-- 41_client_profiles.md R116: an XXTEA encrypt session over any chunks, on the chunker: its output is the transform of
`ceil((8 + len) / blockBytes)` blocks, cut from the 8-byte length field, the message and zero bytes; the last of them is
the FLUSH tail, never empty, padded with zeros. -/
def Obligations.XxteaEncryptOutputsTheCeilingOfBlocks : Prop :=
  ∀ (encrypt : List Byte → List Byte) (blockBytes : Nat) (lengthField : Vector Byte 8) (chunks : List (List Byte))
    (s : State), s.ConsumerReady → s.bMax ≤ 2 ^ 28 - 1 → (Client.xxteaEncrypt blockBytes).configLegal = true → blockBytes ≤ s.bMax →
    ∃ (e f g : Engine Unit) (first blocks : List (List Byte)) (tail : List Byte),
      xxteaEncryptStart encrypt blockBytes lengthField s = .ok (e, first) ∧
      forEachChunk (xxteaEncryptChunk encrypt) chunks e = .ok (f, blocks) ∧
      xxteaEncryptFinish encrypt f = .ok (g, encrypt (tail ++ List.replicate (blockBytes - tail.length) 0#8)) ∧
      f.chunker.carryBytes = tail ∧ 1 ≤ tail.length ∧ tail.length ≤ blockBytes ∧ g.chunker.phase = .flushed ∧
      (first ++ blocks).length + 1 = (8 + chunks.flatten.length + blockBytes - 1) / blockBytes ∧
      first ++ blocks ++ [encrypt (tail ++ List.replicate (blockBytes - tail.length) 0#8)] =
        (splitBlocks blockBytes (lengthField.toList ++ chunks.flatten ++
          List.replicate (blockBytes - tail.length) 0#8)).map encrypt

/-- 41_client_profiles.md R116, R117 (95_test_vectors.md V3, V4): an XXTEA decrypt session over any cutting of an encrypt
session's output gives the message back, with the length stripped and the padding trimmed, for a message that does not
fit in one block (the single-block case is not covered: 93_implementation_defined.md I15). That encrypt and decrypt are
inverse on blocks, and how the field spells the length, are outside the hardware, so they are premises. -/
def Obligations.XxteaDecryptReturnsTheMessage : Prop :=
  ∀ (encrypt decrypt : List Byte → List Byte) (readLength : List Byte → Nat) (blockBytes : Nat)
    (lengthField : Vector Byte 8) (chunks cuts : List (List Byte)) (s s' : State) (e f g : Engine Unit)
    (first blocks : List (List Byte)) (last : List Byte),
    s.ConsumerReady → s'.ConsumerReady → s.bMax ≤ 2 ^ 28 - 1 →
    s'.bMax ≤ 2 ^ 28 - 1 → (Client.xxteaEncrypt blockBytes).configLegal = true → blockBytes ≤ s.bMax →
    blockBytes ≤ s'.bMax → (∀ p, p.length = blockBytes → (encrypt p).length = blockBytes ∧ decrypt (encrypt p) = p) →
    readLength lengthField.toList = chunks.flatten.length → blockBytes < 8 + chunks.flatten.length →
    xxteaEncryptStart encrypt blockBytes lengthField s = .ok (e, first) →
    forEachChunk (xxteaEncryptChunk encrypt) chunks e = .ok (f, blocks) →
    xxteaEncryptFinish encrypt f = .ok (g, last) → cuts.flatten = (first ++ blocks ++ [last]).flatten →
    ∃ (e' f' g' : Engine Decryption) (out rest : List Byte),
      xxteaDecryptStart blockBytes s' = .ok e' ∧
      forEachChunk (xxteaDecryptChunk decrypt readLength) cuts e' = .ok (f', out) ∧
      xxteaDecryptFinish decrypt f' = .ok (g', rest) ∧ g'.chunker.phase = .flushed ∧ out ++ rest = chunks.flatten

/-- 41_client_profiles.md R119: a client's session (INIT, FEEDs, FLUSH), placed on the two input channels of a chunker in
IDLE, runs one command a step through decoding and dispatch to FLUSHED, takes all it was sent, answers every command,
and gives back exactly the bytes fed. The chunker does so for every block size from 1 to `B_MAX`; which ones the client
sends is R111 (`ClientChecksItsBlockSizeBeforeInit`). -/
def Obligations.ClientSessionRunsThroughTheCommandCycle : Prop :=
  ∀ (c : Client) (lengthField : Vector Byte 8) (chunks : List (List Byte)) (s : State), s.phase = .idle →
    s.TakesCommand → s.ConsumerReady → s.cmdIn = [] → s.dataIn = [] → 1 ≤ c.blockSize → c.blockSize ≤ s.bMax →
    s.bMax ≤ 2 ^ 28 - 1 →
    ∃ t : State,
      Host.Core.run Sys2Proof.core ((c.feeds lengthField chunks).length + 2) (s.send (c.commands lengthField chunks)) =
        .next t ∧
      t.phase = .flushed ∧ t.stage = .ready ∧ t.cmdIn = [] ∧ t.dataIn = [] ∧
      t.rspOut.length = s.rspOut.length + (c.feeds lengthField chunks).length + 2 ∧
      t.dataOut = s.dataOut ++ (c.feeds lengthField chunks).flatten ∧
      (c.feeds lengthField chunks).flatten =
        (match c with | .xxteaEncrypt _ => lengthField.toList | _ => []) ++ chunks.flatten

/-- 41_client_profiles.md R119: a legal client's whole session, its reset first, as moves of the host before the chunker's
turns, on any chunker, used or with a command in progress: the run ends in FLUSHED with one response for each command and
exactly the bytes fed, and nothing of what was there before. -/
def Obligations.ClientSessionResetsAnyChunkerFirst : Prop :=
  ∀ (c : Client) (lengthField : Vector Byte 8) (chunks : List (List Byte)) (s : State), s.ConsumerReady →
    c.configLegal = true → 1 ≤ c.blockSize → c.blockSize ≤ s.bMax → s.bMax ≤ 2 ^ 28 - 1 →
    ∃ (moves : List Move) (t : State), c.session lengthField chunks = .ok (.reset :: moves) ∧
      Host.Core.run Sys2Proof.core (1 + moves.length + (c.feeds lengthField chunks).length + 2)
        { s with schedule := .reset :: moves } = .next t ∧
      t.phase = .flushed ∧ t.stage = .ready ∧ t.schedule = [] ∧ t.cmdIn = [] ∧ t.dataIn = [] ∧
      t.rspOut.length = (c.feeds lengthField chunks).length + 2 ∧
      t.dataOut = (match c with | .xxteaEncrypt _ => lengthField.toList | _ => []) ++ chunks.flatten
end

