-- ==== Sys2Proof/Laws/Decode.lean ====
section
/-! SUPPORT. The fields of a word, and what the decoder answers for each OP. -/

namespace Sys2Proof

@[simp] theorem opField_joinWord (op : BitVec 4) (arg : Arg) : opField (joinWord op arg) = op := by
  apply BitVec.eq_of_toNat_eq
  have h1 := op.isLt
  have h2 := arg.isLt
  simp only [opField, joinWord, BitVec.extractLsb'_toNat, BitVec.toNat_append]
  rw [Nat.shiftRight_eq_div_pow, ← Nat.shiftLeft_add_eq_or_of_lt h2, Nat.shiftLeft_eq]
  omega

@[simp] theorem argField_joinWord (op : BitVec 4) (arg : Arg) : argField (joinWord op arg) = arg := by
  apply BitVec.eq_of_toNat_eq
  have h2 := arg.isLt
  simp only [argField, joinWord, BitVec.extractLsb'_toNat, BitVec.toNat_append]
  rw [Nat.shiftRight_eq_div_pow, ← Nat.shiftLeft_add_eq_or_of_lt h2, Nat.shiftLeft_eq]
  omega

/-- A word is its two fields. -/
theorem joinWord_fields (w : Word) : joinWord (opField w) (argField w) = w := by
  apply BitVec.eq_of_toNat_eq
  have h := w.isLt
  have h2 : (argField w).toNat = w.toNat % 2 ^ 28 := by
    simp [argField, BitVec.extractLsb'_toNat]
  have h1 : (opField w).toNat = w.toNat / 2 ^ 28 := by
    simp only [opField, BitVec.extractLsb'_toNat, Nat.shiftRight_eq_div_pow]
    omega
  simp only [joinWord, BitVec.toNat_append]
  rw [← Nat.shiftLeft_add_eq_or_of_lt (argField w).isLt, Nat.shiftLeft_eq, h1, h2]
  omega

theorem opField_toNat (w : Word) : (opField w).toNat = w.toNat / 2 ^ 28 := by
  have h := w.isLt
  simp only [opField, BitVec.extractLsb'_toNat, Nat.shiftRight_eq_div_pow]
  omega

theorem argField_toNat (w : Word) : (argField w).toNat = w.toNat % 2 ^ 28 := by
  simp [argField, BitVec.extractLsb'_toNat]

theorem zext28_toNat {v : Nat} (h : v < 2 ^ 28) : (zext28 v).toNat = v := by
  simpa [zext28] using h

@[simp] theorem zext28_argField (w : Word) : zext28 (argField w).toNat = argField w := by
  simp [zext28]

end Sys2Proof
end

