-- ==== Sys2Proof/Laws/State.lean ====
section
/-! SUPPORT. One lemma per field for each named update of the state. -/

namespace Sys2Proof.Machine

@[simp] theorem placeCarry_phase (n : Nat) (s : State) : (placeCarry n s).phase = s.phase := rfl

@[simp] theorem placeCarry_bsize (n : Nat) (s : State) : (placeCarry n s).bsize = s.bsize := rfl

@[simp] theorem placeCarry_carry (n : Nat) (s : State) : (placeCarry n s).carry = s.carry := rfl

@[simp] theorem placeCarry_clen (n : Nat) (s : State) : (placeCarry n s).clen = s.clen := rfl

@[simp] theorem placeCarry_cmdIn (n : Nat) (s : State) : (placeCarry n s).cmdIn = s.cmdIn := rfl

@[simp] theorem placeCarry_dataIn (n : Nat) (s : State) : (placeCarry n s).dataIn = s.dataIn := rfl

@[simp] theorem placeCarry_rspOut (n : Nat) (s : State) : (placeCarry n s).rspOut = s.rspOut := rfl

@[simp] theorem placeCarry_rem (n : Nat) (s : State) : (placeCarry n s).rem = s.rem := rfl

@[simp] theorem placeCarry_mode (n : Nat) (s : State) : (placeCarry n s).mode = s.mode := rfl

@[simp] theorem placeCarry_blocks (n : Nat) (s : State) : (placeCarry n s).blocks = s.blocks := rfl

@[simp] theorem placeCarry_bMax (n : Nat) (s : State) : (placeCarry n s).bMax = s.bMax := rfl

@[simp] theorem placeCarry_stage (n : Nat) (s : State) : (placeCarry n s).stage = s.stage := rfl

@[simp] theorem placeCarry_feedArg (n : Nat) (s : State) : (placeCarry n s).feedArg = s.feedArg := rfl

@[simp] theorem placeCarry_rspRoom (n : Nat) (s : State) : (placeCarry n s).rspRoom = s.rspRoom := rfl

@[simp] theorem placeCarry_schedule (n : Nat) (s : State) : (placeCarry n s).schedule = s.schedule := rfl

theorem placeCarry_dataOut (n : Nat) (s : State) :
    (placeCarry n s).dataOut = s.dataOut ++ s.carry.read s.sent (s.dataRoom.grant (n - s.sent)) := rfl

theorem placeCarry_sent (n : Nat) (s : State) :
    (placeCarry n s).sent = s.sent + s.dataRoom.grant (n - s.sent) := rfl

theorem placeCarry_dataRoom (n : Nat) (s : State) :
    (placeCarry n s).dataRoom = s.dataRoom.spend (s.dataRoom.grant (n - s.sent)) := rfl

@[simp] theorem respond_phase (w : Word) (s : State) : (respond w s).phase = s.phase := by
  unfold respond; split <;> rfl

@[simp] theorem respond_bsize (w : Word) (s : State) : (respond w s).bsize = s.bsize := by
  unfold respond; split <;> rfl

@[simp] theorem respond_carry (w : Word) (s : State) : (respond w s).carry = s.carry := by
  unfold respond; split <;> rfl

@[simp] theorem respond_clen (w : Word) (s : State) : (respond w s).clen = s.clen := by
  unfold respond; split <;> rfl

@[simp] theorem respond_cmdIn (w : Word) (s : State) : (respond w s).cmdIn = s.cmdIn := by
  unfold respond; split <;> rfl

@[simp] theorem respond_dataIn (w : Word) (s : State) : (respond w s).dataIn = s.dataIn := by
  unfold respond; split <;> rfl

@[simp] theorem respond_dataOut (w : Word) (s : State) : (respond w s).dataOut = s.dataOut := by
  unfold respond; split <;> rfl

@[simp] theorem respond_rem (w : Word) (s : State) : (respond w s).rem = s.rem := by
  unfold respond; split <;> rfl

@[simp] theorem respond_mode (w : Word) (s : State) : (respond w s).mode = s.mode := by
  unfold respond; split <;> rfl

@[simp] theorem respond_blocks (w : Word) (s : State) : (respond w s).blocks = s.blocks := by
  unfold respond; split <;> rfl

@[simp] theorem respond_bMax (w : Word) (s : State) : (respond w s).bMax = s.bMax := by
  unfold respond; split <;> rfl

@[simp] theorem respond_sent (w : Word) (s : State) : (respond w s).sent = s.sent := by
  unfold respond; split <;> rfl

@[simp] theorem respond_feedArg (w : Word) (s : State) : (respond w s).feedArg = s.feedArg := by
  unfold respond; split <;> rfl

@[simp] theorem respond_dataRoom (w : Word) (s : State) : (respond w s).dataRoom = s.dataRoom := by
  unfold respond; split <;> rfl

@[simp] theorem respond_schedule (w : Word) (s : State) : (respond w s).schedule = s.schedule := by
  unfold respond; split <;> rfl

/-- Respond when the consumer lets a word through. -/
theorem respond_placed {s : State} (h : s.rspRoom.grant 1 = 1) (w : Word) :
    respond w s =
      { s with rspOut := s.rspOut ++ [w], rspRoom := s.rspRoom.spend 1, stage := .ready } :=
  if_pos h

/-- Respond when the consumer holds RSP_OUT back. -/
theorem respond_waits {s : State} (h : s.rspRoom.grant 1 ≠ 1) (w : Word) :
    respond w s = { s with stage := .respond w } :=
  if_neg h

@[simp] theorem raiseError_phase (e : ErrorCode) (info : Arg) (s : State) : (raiseError e info s).phase = .error := by
  simp [raiseError]

@[simp] theorem raiseError_bsize (e : ErrorCode) (info : Arg) (s : State) : (raiseError e info s).bsize = s.bsize := by
  simp [raiseError]

@[simp] theorem raiseError_carry (e : ErrorCode) (info : Arg) (s : State) : (raiseError e info s).carry = s.carry := by
  simp [raiseError]

@[simp] theorem raiseError_clen (e : ErrorCode) (info : Arg) (s : State) : (raiseError e info s).clen = 0 := by
  simp [raiseError]

@[simp] theorem raiseError_cmdIn (e : ErrorCode) (info : Arg) (s : State) : (raiseError e info s).cmdIn = s.cmdIn := by
  simp [raiseError]

@[simp] theorem raiseError_dataIn (e : ErrorCode) (info : Arg) (s : State) : (raiseError e info s).dataIn = s.dataIn := by
  simp [raiseError]

@[simp] theorem raiseError_dataOut (e : ErrorCode) (info : Arg) (s : State) : (raiseError e info s).dataOut = s.dataOut := by
  simp [raiseError]

@[simp] theorem raiseError_rem (e : ErrorCode) (info : Arg) (s : State) : (raiseError e info s).rem = s.rem := by
  simp [raiseError]

@[simp] theorem raiseError_mode (e : ErrorCode) (info : Arg) (s : State) : (raiseError e info s).mode = s.mode := by
  simp [raiseError]

@[simp] theorem raiseError_blocks (e : ErrorCode) (info : Arg) (s : State) : (raiseError e info s).blocks = s.blocks := by
  simp [raiseError]

@[simp] theorem raiseError_bMax (e : ErrorCode) (info : Arg) (s : State) : (raiseError e info s).bMax = s.bMax := by
  simp [raiseError]

@[simp] theorem raiseError_sent (e : ErrorCode) (info : Arg) (s : State) : (raiseError e info s).sent = s.sent := by
  simp [raiseError]

@[simp] theorem raiseError_feedArg (e : ErrorCode) (info : Arg) (s : State) : (raiseError e info s).feedArg = s.feedArg := by
  simp [raiseError]

@[simp] theorem raiseError_dataRoom (e : ErrorCode) (info : Arg) (s : State) : (raiseError e info s).dataRoom = s.dataRoom := by
  simp [raiseError]

@[simp] theorem raiseError_schedule (e : ErrorCode) (info : Arg) (s : State) : (raiseError e info s).schedule = s.schedule := by
  simp [raiseError]

@[simp] theorem configure_phase (b : Nat) (s : State) : (configure b s).phase = .active := by
  simp [configure]

@[simp] theorem configure_bsize (b : Nat) (s : State) : (configure b s).bsize = zext28 b := by
  simp [configure]

@[simp] theorem configure_carry (b : Nat) (s : State) : (configure b s).carry = s.carry := by
  simp [configure]

@[simp] theorem configure_clen (b : Nat) (s : State) : (configure b s).clen = 0 := by
  simp [configure]

@[simp] theorem configure_cmdIn (b : Nat) (s : State) : (configure b s).cmdIn = s.cmdIn := by
  simp [configure]

@[simp] theorem configure_dataIn (b : Nat) (s : State) : (configure b s).dataIn = s.dataIn := by
  simp [configure]

@[simp] theorem configure_dataOut (b : Nat) (s : State) : (configure b s).dataOut = s.dataOut := by
  simp [configure]

@[simp] theorem configure_rem (b : Nat) (s : State) : (configure b s).rem = s.rem := by
  simp [configure]

@[simp] theorem configure_mode (b : Nat) (s : State) : (configure b s).mode = s.mode := by
  simp [configure]

@[simp] theorem configure_blocks (b : Nat) (s : State) : (configure b s).blocks = s.blocks := by
  simp [configure]

@[simp] theorem configure_bMax (b : Nat) (s : State) : (configure b s).bMax = s.bMax := by
  simp [configure]

@[simp] theorem configure_sent (b : Nat) (s : State) : (configure b s).sent = s.sent := by
  simp [configure]

@[simp] theorem configure_feedArg (b : Nat) (s : State) : (configure b s).feedArg = s.feedArg := by
  simp [configure]

@[simp] theorem configure_dataRoom (b : Nat) (s : State) : (configure b s).dataRoom = s.dataRoom := by
  simp [configure]

@[simp] theorem configure_schedule (b : Nat) (s : State) : (configure b s).schedule = s.schedule := by
  simp [configure]

@[simp] theorem startFeed_phase (l : Nat) (s : State) : (startFeed l s).phase = s.phase := by
  unfold startFeed; split <;> rfl

@[simp] theorem startFeed_bsize (l : Nat) (s : State) : (startFeed l s).bsize = s.bsize := by
  unfold startFeed; split <;> rfl

@[simp] theorem startFeed_carry (l : Nat) (s : State) : (startFeed l s).carry = s.carry := by
  unfold startFeed; split <;> rfl

@[simp] theorem startFeed_clen (l : Nat) (s : State) : (startFeed l s).clen = s.clen := by
  unfold startFeed; split <;> rfl

@[simp] theorem startFeed_cmdIn (l : Nat) (s : State) : (startFeed l s).cmdIn = s.cmdIn := by
  unfold startFeed; split <;> rfl

@[simp] theorem startFeed_dataIn (l : Nat) (s : State) : (startFeed l s).dataIn = s.dataIn := by
  unfold startFeed; split <;> rfl

@[simp] theorem startFeed_dataOut (l : Nat) (s : State) : (startFeed l s).dataOut = s.dataOut := by
  unfold startFeed; split <;> rfl

@[simp] theorem startFeed_rspOut (l : Nat) (s : State) : (startFeed l s).rspOut = s.rspOut := by
  unfold startFeed; split <;> rfl

@[simp] theorem startFeed_rem (l : Nat) (s : State) : (startFeed l s).rem = l := by
  unfold startFeed; split <;> rfl

@[simp] theorem startFeed_bMax (l : Nat) (s : State) : (startFeed l s).bMax = s.bMax := by
  unfold startFeed; split <;> rfl

@[simp] theorem startFeed_stage (l : Nat) (s : State) : (startFeed l s).stage = s.stage := by
  unfold startFeed; split <;> rfl

@[simp] theorem startFeed_sent (l : Nat) (s : State) : (startFeed l s).sent = 0 := by
  unfold startFeed; split <;> rfl

@[simp] theorem startFeed_feedArg (l : Nat) (s : State) : (startFeed l s).feedArg = zext28 l := by
  unfold startFeed; split <;> rfl

@[simp] theorem startFeed_dataRoom (l : Nat) (s : State) : (startFeed l s).dataRoom = s.dataRoom := by
  unfold startFeed; split <;> rfl

@[simp] theorem startFeed_rspRoom (l : Nat) (s : State) : (startFeed l s).rspRoom = s.rspRoom := by
  unfold startFeed; split <;> rfl

@[simp] theorem startFeed_schedule (l : Nat) (s : State) : (startFeed l s).schedule = s.schedule := by
  unfold startFeed; split <;> rfl

theorem startFeed_mode (l : Nat) (s : State) :
    (startFeed l s).mode = if s.phase = .active then .absorb else .drain := by
  unfold startFeed; cases h : s.phase <;> simp [feedPhaseError]

theorem startFeed_blocks_active (l : Nat) {s : State} (h : s.phase = .active) :
    (startFeed l s).blocks = 0 := by
  simp [startFeed, feedPhaseError, h]

@[simp] theorem assertReset_phase  (s : State) : (assertReset s).phase = .idle := rfl

@[simp] theorem assertReset_bsize  (s : State) : (assertReset s).bsize = 0 := rfl

@[simp] theorem assertReset_carry  (s : State) : (assertReset s).carry = [] := rfl

@[simp] theorem assertReset_clen  (s : State) : (assertReset s).clen = 0 := rfl

@[simp] theorem assertReset_cmdIn  (s : State) : (assertReset s).cmdIn = [] := rfl

@[simp] theorem assertReset_dataIn  (s : State) : (assertReset s).dataIn = [] := rfl

@[simp] theorem assertReset_dataOut  (s : State) : (assertReset s).dataOut = [] := rfl

@[simp] theorem assertReset_rspOut  (s : State) : (assertReset s).rspOut = [] := rfl

@[simp] theorem assertReset_rem  (s : State) : (assertReset s).rem = 0 := rfl

@[simp] theorem assertReset_mode  (s : State) : (assertReset s).mode = .absorb := rfl

@[simp] theorem assertReset_blocks  (s : State) : (assertReset s).blocks = 0 := rfl

@[simp] theorem assertReset_bMax  (s : State) : (assertReset s).bMax = s.bMax := rfl

@[simp] theorem assertReset_stage  (s : State) : (assertReset s).stage = .ready := rfl

@[simp] theorem assertReset_sent  (s : State) : (assertReset s).sent = 0 := rfl

@[simp] theorem assertReset_feedArg  (s : State) : (assertReset s).feedArg = 0 := rfl

@[simp] theorem assertReset_dataRoom  (s : State) :
    (assertReset s).dataRoom = s.dataRoom.regain s.dataOut.length := rfl

@[simp] theorem assertReset_rspRoom  (s : State) :
    (assertReset s).rspRoom = s.rspRoom.regain s.rspOut.length := rfl

@[simp] theorem assertReset_schedule  (s : State) : (assertReset s).schedule = s.schedule := rfl

/-! What accepting an element can do: it takes the oldest one and makes room for another, or nothing is there. -/

theorem acceptByte_cases (s : State) :
    (s.dataOut = [] ∧ acceptByte s = s) ∨
    (∃ b bs, s.dataOut = b :: bs ∧ acceptByte s = { s with dataOut := bs, dataRoom := s.dataRoom.regain 1 }) := by
  cases h : s.dataOut with
  | nil => exact .inl ⟨rfl, by simp [acceptByte, h]⟩
  | cons b bs => exact .inr ⟨b, bs, rfl, by simp [acceptByte, h]⟩

theorem acceptWord_cases (s : State) :
    (s.rspOut = [] ∧ acceptWord s = s) ∨
    (∃ w ws, s.rspOut = w :: ws ∧ acceptWord s = { s with rspOut := ws, rspRoom := s.rspRoom.regain 1 }) := by
  cases h : s.rspOut with
  | nil => exact .inl ⟨rfl, by simp [acceptWord, h]⟩
  | cons w ws => exact .inr ⟨w, ws, rfl, by simp [acceptWord, h]⟩

@[simp] theorem acceptByte_phase (s : State) : (acceptByte s).phase = s.phase := by
  unfold acceptByte; split <;> rfl

@[simp] theorem acceptByte_bsize (s : State) : (acceptByte s).bsize = s.bsize := by
  unfold acceptByte; split <;> rfl

@[simp] theorem acceptByte_carry (s : State) : (acceptByte s).carry = s.carry := by
  unfold acceptByte; split <;> rfl

@[simp] theorem acceptByte_clen (s : State) : (acceptByte s).clen = s.clen := by
  unfold acceptByte; split <;> rfl

@[simp] theorem acceptByte_cmdIn (s : State) : (acceptByte s).cmdIn = s.cmdIn := by
  unfold acceptByte; split <;> rfl

@[simp] theorem acceptByte_dataIn (s : State) : (acceptByte s).dataIn = s.dataIn := by
  unfold acceptByte; split <;> rfl

@[simp] theorem acceptByte_rem (s : State) : (acceptByte s).rem = s.rem := by
  unfold acceptByte; split <;> rfl

@[simp] theorem acceptByte_mode (s : State) : (acceptByte s).mode = s.mode := by
  unfold acceptByte; split <;> rfl

@[simp] theorem acceptByte_blocks (s : State) : (acceptByte s).blocks = s.blocks := by
  unfold acceptByte; split <;> rfl

@[simp] theorem acceptByte_bMax (s : State) : (acceptByte s).bMax = s.bMax := by
  unfold acceptByte; split <;> rfl

@[simp] theorem acceptByte_stage (s : State) : (acceptByte s).stage = s.stage := by
  unfold acceptByte; split <;> rfl

@[simp] theorem acceptByte_sent (s : State) : (acceptByte s).sent = s.sent := by
  unfold acceptByte; split <;> rfl

@[simp] theorem acceptByte_feedArg (s : State) : (acceptByte s).feedArg = s.feedArg := by
  unfold acceptByte; split <;> rfl

@[simp] theorem acceptByte_schedule (s : State) : (acceptByte s).schedule = s.schedule := by
  unfold acceptByte; split <;> rfl

@[simp] theorem acceptByte_rspOut (s : State) : (acceptByte s).rspOut = s.rspOut := by
  unfold acceptByte; split <;> rfl

@[simp] theorem acceptByte_rspRoom (s : State) : (acceptByte s).rspRoom = s.rspRoom := by
  unfold acceptByte; split <;> rfl

@[simp] theorem acceptWord_phase (s : State) : (acceptWord s).phase = s.phase := by
  unfold acceptWord; split <;> rfl

@[simp] theorem acceptWord_bsize (s : State) : (acceptWord s).bsize = s.bsize := by
  unfold acceptWord; split <;> rfl

@[simp] theorem acceptWord_carry (s : State) : (acceptWord s).carry = s.carry := by
  unfold acceptWord; split <;> rfl

@[simp] theorem acceptWord_clen (s : State) : (acceptWord s).clen = s.clen := by
  unfold acceptWord; split <;> rfl

@[simp] theorem acceptWord_cmdIn (s : State) : (acceptWord s).cmdIn = s.cmdIn := by
  unfold acceptWord; split <;> rfl

@[simp] theorem acceptWord_dataIn (s : State) : (acceptWord s).dataIn = s.dataIn := by
  unfold acceptWord; split <;> rfl

@[simp] theorem acceptWord_rem (s : State) : (acceptWord s).rem = s.rem := by
  unfold acceptWord; split <;> rfl

@[simp] theorem acceptWord_mode (s : State) : (acceptWord s).mode = s.mode := by
  unfold acceptWord; split <;> rfl

@[simp] theorem acceptWord_blocks (s : State) : (acceptWord s).blocks = s.blocks := by
  unfold acceptWord; split <;> rfl

@[simp] theorem acceptWord_bMax (s : State) : (acceptWord s).bMax = s.bMax := by
  unfold acceptWord; split <;> rfl

@[simp] theorem acceptWord_stage (s : State) : (acceptWord s).stage = s.stage := by
  unfold acceptWord; split <;> rfl

@[simp] theorem acceptWord_sent (s : State) : (acceptWord s).sent = s.sent := by
  unfold acceptWord; split <;> rfl

@[simp] theorem acceptWord_feedArg (s : State) : (acceptWord s).feedArg = s.feedArg := by
  unfold acceptWord; split <;> rfl

@[simp] theorem acceptWord_schedule (s : State) : (acceptWord s).schedule = s.schedule := by
  unfold acceptWord; split <;> rfl

@[simp] theorem acceptWord_dataOut (s : State) : (acceptWord s).dataOut = s.dataOut := by
  unfold acceptWord; split <;> rfl

@[simp] theorem acceptWord_dataRoom (s : State) : (acceptWord s).dataRoom = s.dataRoom := by
  unfold acceptWord; split <;> rfl

@[simp] theorem Room.grant_unlimited (n : Nat) : Room.unlimited.grant n = n := rfl

@[simp] theorem Room.spend_unlimited (n : Nat) : Room.unlimited.spend n = .unlimited := rfl

@[simp] theorem Room.grant_upTo (r n : Nat) : (Room.upTo r).grant n = min r n := rfl

@[simp] theorem Room.spend_upTo (r n : Nat) : (Room.upTo r).spend n = .upTo (r - n) := rfl

@[simp] theorem Room.regain_unlimited (n : Nat) : Room.unlimited.regain n = .unlimited := rfl

@[simp] theorem Room.regain_upTo (r n : Nat) : (Room.upTo r).regain n = .upTo (r + n) := rfl

theorem Room.grant_le (r : Room) (n : Nat) : r.grant n ≤ n := by
  cases r with
  | unlimited => exact Nat.le_refl _
  | upTo r => exact Nat.min_le_right _ _

@[simp] theorem Room.spend_zero (r : Room) : r.spend 0 = r := by cases r <;> rfl

@[simp] theorem Room.grant_zero (r : Room) : r.grant 0 = 0 := by cases r <;> simp

/-- A room that lets a total through lets its first part through, and then the rest. -/
theorem Room.grant_split {r : Room} {m n : Nat} (h : r.grant (m + n) = m + n) :
    r.grant m = m ∧ (r.spend m).grant n = n := by
  cases r with
  | unlimited => simp
  | upTo r => simp at h ⊢; omega

theorem Room.spend_spend (r : Room) (m n : Nat) : (r.spend m).spend n = r.spend (m + n) := by
  cases r with
  | unlimited => rfl
  | upTo r => simp [Nat.sub_sub]

end Sys2Proof.Machine
end

