-- ==== Sys2Proof/Laws/Memory.lean ====
section
/-! SUPPORT. The carry cells: read after write, the canonical form, and the carry as a sequence. -/

namespace Sys2Proof.Machine

theorem Memory.lookup_write_same (m : Memory) (a : Nat) (b : Byte) :
    (m.write a b).lookup a = some b := by
  induction m with
  | nil => simp [Memory.write, Memory.lookup]
  | cons c m ih =>
    obtain ⟨k, v⟩ := c
    simp only [Memory.write]
    split
    · simp [Memory.lookup]
    · split
      · simp [Memory.lookup]
      · have : k ≠ a := fun h => by omega
        simp [Memory.lookup, this, ih]

theorem Memory.lookup_write_other (m : Memory) {a c : Nat} (b : Byte) (h : c ≠ a) :
    (m.write a b).lookup c = m.lookup c := by
  induction m with
  | nil => simp [Memory.write, Memory.lookup, Ne.symm h]
  | cons p m ih =>
    obtain ⟨k, v⟩ := p
    simp only [Memory.write]
    split
    · simp [Memory.lookup, Ne.symm h]
    · split
      · rename_i heq
        subst heq
        simp [Memory.lookup, Ne.symm h]
      · simp only [Memory.lookup, ih]

@[simp] theorem Memory.cell_write_same (m : Memory) (a : Nat) (b : Byte) :
    (m.write a b).cell a = b := by
  simp [Memory.cell, Memory.lookup_write_same]

theorem Memory.cell_write_other (m : Memory) {a c : Nat} (b : Byte) (h : c ≠ a) :
    (m.write a b).cell c = m.cell c := by
  simp [Memory.cell, Memory.lookup_write_other m b h]

/-- Every listed index of a canonical list lies above `a` if the first one does. -/
theorem Memory.wf_cons_iff (k : Nat) (v : Byte) (m : Memory) :
    Memory.wf ((k, v) :: m) = true ↔ (∀ c ∈ m, k < c.1) ∧ m.wf = true := by
  induction m generalizing k v with
  | nil => simp [Memory.wf]
  | cons p m ih =>
    obtain ⟨j, u⟩ := p
    simp only [Memory.wf, Bool.and_eq_true, decide_eq_true_eq, List.mem_cons, forall_eq_or_imp]
    constructor
    · rintro ⟨h, hw⟩
      exact ⟨⟨h, fun c hc => Nat.lt_trans h (((ih j u).mp hw).1 c hc)⟩, hw⟩
    · rintro ⟨⟨h, -⟩, hw⟩
      exact ⟨h, hw⟩

theorem Memory.mem_write {m : Memory} {a : Nat} {b : Byte} {c : Host.Cell}
    (h : c ∈ m.write a b) : c = (a, b) ∨ c ∈ m := by
  induction m with
  | nil => simpa [Memory.write] using h
  | cons p m ih =>
    obtain ⟨k, v⟩ := p
    simp only [Memory.write] at h
    split at h
    · simpa using h
    · split at h
      · rcases List.mem_cons.mp h with h | h
        · exact .inl h
        · exact .inr (List.mem_cons_of_mem _ h)
      · rcases List.mem_cons.mp h with h | h
        · exact .inr (h ▸ List.mem_cons_self)
        · exact (ih h).imp id (List.mem_cons_of_mem _)

/-- A write keeps the canonical form. -/
theorem Memory.write_wf {m : Memory} (h : m.wf = true) (a : Nat) (b : Byte) :
    (m.write a b).wf = true := by
  induction m with
  | nil => rfl
  | cons p m ih =>
    obtain ⟨k, v⟩ := p
    obtain ⟨hk, hm⟩ := (Memory.wf_cons_iff k v m).mp h
    simp only [Memory.write]
    split
    · rename_i hak
      rw [Memory.wf_cons_iff]
      refine ⟨fun c hc => ?_, h⟩
      rcases List.mem_cons.mp hc with hc | hc
      · simpa [hc] using hak
      · exact Nat.lt_trans hak (hk c hc)
    · split
      · rename_i heq
        subst heq
        exact (Memory.wf_cons_iff _ _ _).mpr ⟨hk, hm⟩
      · refine (Memory.wf_cons_iff _ _ _).mpr ⟨fun c hc => ?_, ih hm⟩
        rcases Memory.mem_write hc with hc | hc
        · simp only [hc]; omega
        · exact hk c hc

@[simp] theorem reset_carry_wf (n : Nat) : (State.resetFor n).carry.wf = true := rfl

@[simp] theorem Memory.read_length (m : Memory) (i n : Nat) : (m.read i n).length = n := by
  induction n generalizing i with
  | zero => rfl
  | succ n ih => simp [Memory.read, ih]

theorem Memory.read_add (m : Memory) (i j n : Nat) :
    m.read i (j + n) = m.read i j ++ m.read (i + j) n := by
  induction j generalizing i with
  | zero => simp [Memory.read]
  | succ j ih => simp [Memory.read, Nat.succ_add, ih, Nat.add_assoc]

/-- Reading below a written cell is not touched by the write. -/
theorem Memory.read_write_above (m : Memory) {i n a : Nat} (b : Byte) (h : i + n ≤ a) :
    (m.write a b).read i n = m.read i n := by
  induction n generalizing i with
  | zero => rfl
  | succ n ih =>
    simp only [Memory.read]
    rw [Memory.cell_write_other m b (by omega), ih (by omega)]

theorem Memory.read_take (m : Memory) (i : Nat) {j n : Nat} (h : j ≤ n) :
    (m.read i n).take j = m.read i j := by
  obtain ⟨k, rfl⟩ := Nat.exists_eq_add_of_le h
  rw [Memory.read_add, List.take_left' (Memory.read_length m i j)]

@[simp] theorem carryBytes_length (s : State) : s.carryBytes.length = s.clen :=
  Memory.read_length _ _ _

/-- MemWrite at CLEN appends a byte to the carry. -/
theorem Memory.read_write_end (m : Memory) (n : Nat) (b : Byte) :
    (m.write n b).read 0 (n + 1) = m.read 0 n ++ [b] := by
  rw [Memory.read_add, Memory.read_write_above m b (by omega)]
  simp [Memory.read]

/-- A write inside `CARRY[0..n)` keeps every listed index inside it. -/
theorem Memory.write_within {m : Memory} {n a : Nat} (h : ∀ c ∈ m, c.1 < n) (ha : a < n) (b : Byte) :
    ∀ c ∈ m.write a b, c.1 < n := fun c hc => by
  rcases Memory.mem_write hc with hc | hc
  · simpa [hc] using ha
  · exact h c hc

/-- A write keeps written cells written, and its own cell too. -/
theorem Memory.write_listed {m : Memory} {a c : Nat} (b : Byte)
    (h : c ≠ a → (m.lookup c).isSome = true) : ((m.write a b).lookup c).isSome = true := by
  by_cases hc : c = a
  · rw [hc, Memory.lookup_write_same]; rfl
  · rw [Memory.lookup_write_other m b hc]; exact h hc

end Sys2Proof.Machine
end

