-- ==== Sys2Proof/Laws/Split.lean ====
section
/-! SUPPORT. `split_B` and FeedSpec byte by byte (40_commands.md R85, R86). -/

namespace Sys2Proof.Machine

theorem splitFuel_enough {b : Nat} (hb : 1 ≤ b) {f g : Nat} {s : List Byte} (hs : s ≠ [])
    (hf : s.length ≤ f) (hg : s.length ≤ g) : splitFuel b f s = splitFuel b g s := by
  induction f generalizing g s with
  | zero => exact absurd (List.length_eq_zero_iff.mp (Nat.le_zero.mp hf)) hs
  | succ f ih =>
    cases g with
    | zero => exact absurd (List.length_eq_zero_iff.mp (Nat.le_zero.mp hg)) hs
    | succ g =>
      simp only [splitFuel]
      split
      · rfl
      · rename_i hlen
        have hne : s.drop b ≠ [] := by simpa using Nat.lt_of_not_le hlen
        rw [ih (g := g) hne (by simp; omega) (by simp; omega)]

/-- A sequence of at most `b` bytes is one piece. -/
theorem splitBlocks_short {b : Nat} {s : List Byte} (hs : s ≠ []) (h : s.length ≤ b) :
    splitBlocks b s = [s] := by
  obtain ⟨n, hn⟩ := Nat.exists_eq_succ_of_ne_zero (fun h0 => hs (List.length_eq_zero_iff.mp h0))
  rw [splitBlocks, hn, splitFuel, if_pos h]

/-- A longer one is its first `b` bytes and the pieces of the rest. -/
theorem splitBlocks_long {b : Nat} (hb : 1 ≤ b) {s : List Byte} (h : b < s.length) :
    splitBlocks b s = s.take b :: splitBlocks b (s.drop b) := by
  have hne : s.drop b ≠ [] := by simpa using h
  obtain ⟨n, hn⟩ := Nat.exists_eq_succ_of_ne_zero (show s.length ≠ 0 by omega)
  rw [splitBlocks, hn, splitFuel, if_neg (by omega)]
  rw [splitBlocks, splitFuel_enough hb hne (g := (s.drop b).length) (by simp; omega) (Nat.le_refl _)]

theorem splitBlocks_ne_nil {b : Nat} {s : List Byte} (hs : s ≠ []) : splitBlocks b s ≠ [] := by
  obtain ⟨n, hn⟩ := Nat.exists_eq_succ_of_ne_zero (fun h0 => hs (List.length_eq_zero_iff.mp h0))
  rw [splitBlocks, hn, splitFuel]
  split <;> simp

/-- With nothing fed, nothing is emitted and the carry stays, a full one too (R87). -/
theorem feedSpec_nil {b : Nat} {c : List Byte} (h : c.length ≤ b) : feedSpec b c [] = ([], c) := by
  by_cases hc : c = []
  · simp [feedSpec, hc]
  · simp [feedSpec, hc, splitBlocks_short hc h]

/-- A byte after a carry with room joins the carry (R83). -/
theorem feedSpec_append (b : Nat) (c : List Byte) (y : Byte) (x : List Byte) :
    feedSpec b c (y :: x) = feedSpec b (c ++ [y]) x := by
  simp [feedSpec]

/-- A byte after a full carry releases it as a block (R83, R84). -/
theorem feedSpec_full {b : Nat} (hb : 1 ≤ b) {c : List Byte} (hc : c.length = b) (y : Byte) (x : List Byte) :
    feedSpec b c (y :: x) = (c :: (feedSpec b [y] x).1, (feedSpec b [y] x).2) := by
  have hlong : splitBlocks b (c ++ y :: x) = c :: splitBlocks b (y :: x) := by
    rw [splitBlocks_long hb (by simp; omega), List.take_left' hc, List.drop_left' hc]
  have hne := splitBlocks_ne_nil (b := b) (List.cons_ne_nil y x)
  simp [feedSpec, hlong, List.dropLast_cons_of_ne_nil hne, List.getLast?_cons, List.getLast?_eq_some_getLast hne]

/-- A property of a chunk's FeedSpec, byte by byte: the empty chunk, a byte that joins a carry with room, a byte that
releases a full carry. -/
theorem feedSpec_induction {b : Nat} (hb : 1 ≤ b) {P : List Byte → List Byte → List (List Byte) × List Byte → Prop}
    (nil : ∀ c, c.length ≤ b → P c [] ([], c))
    (room : ∀ c y x, c.length < b → P (c ++ [y]) x (feedSpec b (c ++ [y]) x) → P c (y :: x) (feedSpec b (c ++ [y]) x))
    (full : ∀ c y x, c.length = b → P [y] x (feedSpec b [y] x) →
      P c (y :: x) (c :: (feedSpec b [y] x).1, (feedSpec b [y] x).2))
    {c x : List Byte} (hc : c.length ≤ b) : P c x (feedSpec b c x) := by
  induction x generalizing c with
  | nil => rw [feedSpec_nil hc]; exact nil c hc
  | cons y x ih =>
    by_cases h : c.length = b
    · rw [feedSpec_full hb h]
      exact full c y x h (ih (by simpa using hb))
    · have hlt : c.length < b := by omega
      rw [feedSpec_append]
      exact room c y x hlt (ih (by simpa using hlt))

/-- Every emitted block is whole (R85). -/
theorem feedSpec_block_length {b : Nat} (hb : 1 ≤ b) {c x : List Byte} (hc : c.length ≤ b) :
    ∀ p ∈ (feedSpec b c x).1, p.length = b :=
  feedSpec_induction hb (P := fun _ _ r => ∀ p ∈ r.1, p.length = b) (by simp) (fun _ _ _ _ h => h)
    (fun c _ _ h ih => by simpa using ⟨h, ih⟩) hc

/-- The new carry is within its bound (R26). -/
theorem feedSpec_carry_le {b : Nat} (hb : 1 ≤ b) {c x : List Byte} (hc : c.length ≤ b) :
    (feedSpec b c x).2.length ≤ b :=
  feedSpec_induction hb (P := fun _ _ r => r.2.length ≤ b) (fun _ h => h) (fun _ _ _ _ h => h) (fun _ _ _ _ h => h) hc

/-- Once a byte has been absorbed the carry is not empty (R26). -/
theorem feedSpec_carry_ne_nil {b : Nat} (hb : 1 ≤ b) {c x : List Byte} (hc : c.length ≤ b) (h : c ++ x ≠ []) :
    (feedSpec b c x).2 ≠ [] :=
  feedSpec_induction hb (P := fun c x r => c ++ x ≠ [] → r.2 ≠ []) (fun _ _ h => by simpa using h)
    (fun _ _ _ _ h _ => h (by simp)) (fun _ _ _ _ h _ => h (by simp)) hc h

/-- No byte is lost, added or moved (R85, R89). -/
theorem feedSpec_flatten {b : Nat} (hb : 1 ≤ b) {c x : List Byte} (hc : c.length ≤ b) :
    (feedSpec b c x).1.flatten ++ (feedSpec b c x).2 = c ++ x :=
  feedSpec_induction hb (P := fun c x r => r.1.flatten ++ r.2 = c ++ x) (by simp) (fun _ _ _ _ h => by simpa using h)
    (fun _ _ _ _ h => by simpa using h) hc

/-- Two chunks in a row are one chunk (R91). -/
theorem feedSpec_append_chunks {b : Nat} (hb : 1 ≤ b) {c x : List Byte} (y : List Byte) (hc : c.length ≤ b) :
    feedSpec b c (x ++ y) =
      ((feedSpec b c x).1 ++ (feedSpec b (feedSpec b c x).2 y).1, (feedSpec b (feedSpec b c x).2 y).2) :=
  feedSpec_induction hb
    (P := fun c x r => feedSpec b c (x ++ y) = (r.1 ++ (feedSpec b r.2 y).1, (feedSpec b r.2 y).2)) (by simp)
    (fun c z x _ h => by rw [List.cons_append, feedSpec_append, h])
    (fun c z x hz h => by rw [List.cons_append, feedSpec_full hb hz, h]; rfl) hc

/-- The blocks and the new carry are the pieces of the carry and the chunk (R85). -/
theorem feedSpec_pieces (b : Nat) {c x : List Byte} (h : c ++ x ≠ []) :
    (feedSpec b c x).1 ++ [(feedSpec b c x).2] = splitBlocks b (c ++ x) := by
  have hs := splitBlocks_ne_nil (b := b) h
  simp only [feedSpec, if_neg h, List.getLast?_eq_some_getLast hs, Option.getD_some, List.dropLast_concat_getLast]

/-- Whole blocks in front are pieces of their own. -/
theorem splitBlocks_whole {b : Nat} (hb : 1 ≤ b) {ps : List (List Byte)} (hp : ∀ p ∈ ps, p.length = b)
    {s : List Byte} (hs : s ≠ []) : splitBlocks b (ps.flatten ++ s) = ps ++ splitBlocks b s := by
  induction ps with
  | nil => simp
  | cons p ps ih =>
    obtain ⟨hl, hr⟩ := List.forall_mem_cons.mp hp
    have h1 : 1 ≤ s.length := List.length_pos_iff.mpr hs
    rw [List.flatten_cons, List.append_assoc, splitBlocks_long hb (by simp; omega), List.take_left' hl,
      List.drop_left' hl, ih hr, List.cons_append]

/-- The bytes of whole blocks. -/
theorem length_flatten_whole {b : Nat} {ps : List (List Byte)} (hp : ∀ p ∈ ps, p.length = b) :
    ps.flatten.length = ps.length * b := by
  induction ps with
  | nil => simp
  | cons p ps ih =>
    obtain ⟨hl, hr⟩ := List.forall_mem_cons.mp hp
    simp [ih hr, hl, Nat.add_mul, Nat.add_comm]

end Sys2Proof.Machine
end

