-- ==== Sys2Proof/Laws/Feed.lean ====
section
/-! SUPPORT. What Emit, Absorb, the payload loop and FLUSH's Emit can do, said once. -/

namespace Sys2Proof.Machine

/-! Emit. -/

/-- Emit completes when the consumer lets the rest through. -/
theorem emitCarry_done {n : Nat} {s : State} (hn : n ≤ s.blockSize) (hs : s.sent ≤ n)
    (hr : s.dataRoom.grant (n - s.sent) = n - s.sent) :
    emitCarry n s = .done { s with
      dataOut := s.dataOut ++ s.carry.read s.sent (n - s.sent)
      dataRoom := s.dataRoom.spend (n - s.sent)
      sent := 0 } := by
  have h1 : ¬ s.blockSize < n := by omega
  have h2 : ¬ s.sent + (n - s.sent) < n := by omega
  simp [emitCarry, h1, placeCarry, hr, h2]

/-- What Emit can answer: everything placed, or a wait with some bytes still to place, or an access outside the carry. -/
theorem emitCarry_cases (n : Nat) (s : State) :
    (n ≤ s.blockSize ∧ n ≤ (placeCarry n s).sent ∧
      emitCarry n s = .done { placeCarry n s with sent := 0 }) ∨
    (n ≤ s.blockSize ∧ (placeCarry n s).sent < n ∧ emitCarry n s = .wait (placeCarry n s)) ∨
    (s.blockSize < n ∧ emitCarry n s = .fault .carryIndex) := by
  unfold emitCarry
  by_cases h : s.blockSize < n
  · simp [h]
  · by_cases h2 : (placeCarry n s).sent < n
    · simp [h, h2]; omega
    · simp [h, h2]; omega

/-! Absorb (R83). -/

theorem appendCarry_cases (b : Byte) (s : State) :
    (s.clen + 1 ≤ s.blockSize ∧
      appendCarry b s = .done { s with carry := s.carry.write s.clen b, clen := s.clen + 1 }) ∨
    (s.blockSize < s.clen + 1 ∧ appendCarry b s = .fault .carryIndex) := by
  unfold appendCarry
  by_cases h : s.blockSize < s.clen + 1
  · simp [h]
  · simp [h]
    omega

/-- Absorb into a carry with room. -/
theorem absorb_room {s : State} (h : s.clen < s.blockSize) (b : Byte) :
    absorb b s = .done { s with carry := s.carry.write s.clen b, clen := s.clen + 1 } := by
  have h1 : s.clen ≠ s.blockSize := by omega
  have h2 : ¬ s.blockSize < s.clen + 1 := by omega
  simp [absorb, h1, appendCarry, h2]

/-- Absorb on a full carry, when the consumer lets the block through. -/
theorem absorb_full {s : State} (h : s.clen = s.blockSize) (hb : 1 ≤ s.blockSize) (h0 : s.sent = 0)
    (hr : s.dataRoom.grant s.blockSize = s.blockSize) (b : Byte) :
    absorb b s = .done { s with
      dataOut := s.dataOut ++ s.carryBytes
      dataRoom := s.dataRoom.spend s.blockSize
      sent := 0
      carry := s.carry.write 0 b
      clen := 1
      blocks := s.blocks + 1 } := by
  have hb' : ¬ s.bsize.toNat < 1 := by simp only [State.blockSize] at hb; omega
  rw [absorb, if_pos h, absorbOnFull, emitCarry_done (Nat.le_refl _) (by omega) (by simpa [h0] using hr)]
  simp [appendCarry, State.blockSize, hb', h0, State.carryBytes, h]

/-- What Absorb can answer. -/
theorem absorb_cases (b : Byte) (s : State) :
    (s.clen ≠ s.blockSize ∧ absorb b s = appendCarry b s) ∨
    (s.clen = s.blockSize ∧ absorb b s = absorbOnFull b s) := by
  unfold absorb
  by_cases h : s.clen = s.blockSize <;> simp [h]

/-- What Absorb on a full carry can answer (also when it is resumed). -/
theorem absorbOnFull_cases (b : Byte) (s : State) :
    (s.blockSize ≤ (placeCarry s.blockSize s).sent ∧ 1 ≤ s.blockSize ∧
      absorbOnFull b s = .done { placeCarry s.blockSize s with
        sent := 0, carry := s.carry.write 0 b, clen := 1, blocks := s.blocks + 1 }) ∨
    ((placeCarry s.blockSize s).sent < s.blockSize ∧
      absorbOnFull b s = .wait { placeCarry s.blockSize s with stage := .absorbEmit b }) ∨
    (s.blockSize = 0 ∧ absorbOnFull b s = .fault .carryIndex) := by
  rcases emitCarry_cases s.blockSize s with ⟨-, h, he⟩ | ⟨-, h, he⟩ | ⟨h, -⟩
  · by_cases hb : s.blockSize < 1
    · refine .inr (.inr ⟨by omega, ?_⟩)
      simp only [absorbOnFull, he]
      exact if_pos hb
    · refine .inl ⟨h, by omega, ?_⟩
      simp only [absorbOnFull, he]
      exact (if_neg hb).trans (by simp)
  · exact .inr (.inl ⟨h, by simp only [absorbOnFull, he]⟩)
  · omega

/-! The payload loop. -/

theorem usePayloadByte_absorb {s : State} (h : s.mode = .absorb) (b : Byte) :
    usePayloadByte b s = absorb b s := by simp only [usePayloadByte, h]

theorem usePayloadByte_drain {s : State} (h : s.mode = .drain) (b : Byte) :
    usePayloadByte b s = .done s := by simp only [usePayloadByte, h]

/-- With all bytes taken, the loop finishes the FEED. -/
theorem takePayload_finished {s : State} (h : s.rem = 0) (bs : List Byte) :
    takePayload bs s = .next (finishFeed { s with dataIn := bs }) := by
  cases bs <;> simp [takePayload, h]

/-- With a byte used and DATA_IN not empty, the loop goes on. -/
theorem takePayload_cons {s t : State} {b : Byte} {bs : List Byte} (h : s.rem ≠ 0)
    (hu : usePayloadByte b { s with dataIn := bs, rem := s.rem - 1 } = .done t) :
    takePayload (b :: bs) s = takePayload bs t := by
  simp only [takePayload, if_neg h, hu]

/-- The payload loop keeps what one payload byte keeps: if it answers a next state, that state is a finished FEED, or a
FEED that waits in DataIn, or one that waits in an Emit, reached from a state with the property. -/
theorem takePayload_next {P : List Byte → State → Prop}
    (keep : ∀ b bs s t, P (b :: bs) s → s.rem ≠ 0 →
      usePayloadByte b { s with dataIn := bs, rem := s.rem - 1 } = .done t → P bs t)
    {bs : List Byte} {s t : State} (h0 : P bs s) (h : takePayload bs s = .next t) :
    ∃ bs' u, P bs' u ∧
      ((u.rem = 0 ∧ t = finishFeed { u with dataIn := bs' }) ∨
       (bs' = [] ∧ u.rem ≠ 0 ∧ t = { u with dataIn := [], stage := .payload }) ∨
       (∃ b bs'', bs' = b :: bs'' ∧ u.rem ≠ 0 ∧
         usePayloadByte b { u with dataIn := bs'', rem := u.rem - 1 } = .wait t)) := by
  induction bs generalizing s with
  | nil =>
    simp only [takePayload] at h
    split at h
    · exact ⟨[], s, h0, .inl ⟨‹_›, by simpa using h.symm⟩⟩
    · exact ⟨[], s, h0, .inr (.inl ⟨rfl, ‹_›, by simpa using h.symm⟩)⟩
  | cons b bs ih =>
    simp only [takePayload] at h
    split at h
    · exact ⟨b :: bs, s, h0, .inl ⟨‹_›, by simpa using h.symm⟩⟩
    · split at h
      · exact ih (keep _ _ _ _ h0 ‹_› ‹_›) h
      · rename_i hw
        exact ⟨b :: bs, s, h0, .inr (.inr ⟨b, bs, rfl, ‹_›, by simpa [hw] using h⟩)⟩
      · simp at h

/-- The payload loop never refuses, and faults only where one payload byte does. -/
theorem takePayload_answers {P : List Byte → State → Prop}
    (keep : ∀ b bs s t, P (b :: bs) s → s.rem ≠ 0 →
      usePayloadByte b { s with dataIn := bs, rem := s.rem - 1 } = .done t → P bs t)
    (safe : ∀ b bs s f, P (b :: bs) s → s.rem ≠ 0 →
      usePayloadByte b { s with dataIn := bs, rem := s.rem - 1 } ≠ .fault f)
    {bs : List Byte} {s : State} (h0 : P bs s) : ∃ t, takePayload bs s = .next t := by
  induction bs generalizing s with
  | nil =>
    simp only [takePayload]
    split <;> exact ⟨_, rfl⟩
  | cons b bs ih =>
    simp only [takePayload]
    split
    · exact ⟨_, rfl⟩
    · split
      · exact ih (keep _ _ _ _ h0 ‹_› ‹_›)
      · exact ⟨_, rfl⟩
      · rename_i hf
        exact absurd hf (safe _ _ _ _ h0 ‹_›)

/-- A drained payload: the loop discards the bytes it takes and finishes the FEED (60_exceptions.md R142). -/
theorem takePayload_drain {s : State} (hm : s.mode = .drain) (x rest : List Byte) (hx : s.rem = x.length) :
    takePayload (x ++ rest) s = .next (finishFeed { s with dataIn := rest, rem := 0 }) := by
  induction x generalizing s with
  | nil =>
    have h0 : s.rem = 0 := by simpa using hx
    rw [List.nil_append, takePayload_finished h0]
    simp [← h0]
  | cons b x ih =>
    rw [List.cons_append, takePayload_cons (by simp [hx]) (usePayloadByte_drain (by simpa using hm) b)]
    rw [ih (by simpa using hm) (by simp [hx])]

/-- An absorbed payload the consumer lets through: the loop emits what FeedSpec emits, leaves what it leaves, and
finishes the FEED (40_commands.md R86). -/
theorem takePayload_absorb {s : State} (hm : s.mode = .absorb) (h0 : s.sent = 0) (hb : 1 ≤ s.blockSize)
    (hc : s.clen ≤ s.blockSize) (x rest : List Byte) (hx : s.rem = x.length)
    (hr : s.dataRoom.grant (feedSpec s.blockSize s.carryBytes x).1.flatten.length =
      (feedSpec s.blockSize s.carryBytes x).1.flatten.length) :
    ∃ t : State, takePayload (x ++ rest) s = .next (finishFeed t) ∧
      t = { s with
        dataIn := rest, rem := 0, carry := t.carry, clen := t.clen
        dataOut := s.dataOut ++ (feedSpec s.blockSize s.carryBytes x).1.flatten
        dataRoom := s.dataRoom.spend (feedSpec s.blockSize s.carryBytes x).1.flatten.length
        blocks := s.blocks + (feedSpec s.blockSize s.carryBytes x).1.length } ∧
      t.carryBytes = (feedSpec s.blockSize s.carryBytes x).2 ∧ t.clen ≤ t.blockSize := by
  induction x generalizing s with
  | nil =>
    have hz : s.rem = 0 := by simpa using hx
    rw [feedSpec_nil (by simpa using hc)]
    exact ⟨{ s with dataIn := rest, rem := 0 },
      by rw [List.nil_append, takePayload_finished hz]; simp [← hz], by simp, rfl, hc⟩
  | cons b x ih =>
    have hz : s.rem ≠ 0 := by simp [hx]
    by_cases hfull : s.clen = s.blockSize
    · rw [feedSpec_full hb (by simpa using hfull)] at hr ⊢
      have hlen : s.carryBytes.length = s.blockSize := by simpa using hfull
      simp only [List.flatten_cons, List.length_append, hlen] at hr
      obtain ⟨hr1, hr2⟩ := Room.grant_split hr
      have hu := (usePayloadByte_absorb (s := { s with dataIn := x ++ rest, rem := s.rem - 1 }) hm b).trans
        (absorb_full (s := { s with dataIn := x ++ rest, rem := s.rem - 1 }) hfull hb h0 hr1 b)
      rw [List.cons_append, takePayload_cons hz hu]
      have hone : (s.carry.write 0 b).read 0 1 = [b] := by simp [Memory.read]
      obtain ⟨t, ht, hts, htc, htb⟩ := ih (s := { s with
        dataIn := x ++ rest, rem := s.rem - 1, dataOut := s.dataOut ++ s.carryBytes
        dataRoom := s.dataRoom.spend s.blockSize, sent := 0, carry := s.carry.write 0 b
        clen := 1, blocks := s.blocks + 1 }) hm rfl hb hb (by simp [hx])
        (by simpa only [State.carryBytes, hone, State.blockSize] using hr2)
      simp only [State.carryBytes, hone, State.blockSize] at ht hts htc
      refine ⟨t, ht, ?_, htc, htb⟩
      rw [hts]
      simp only [Room.spend_spend, List.flatten_cons, List.length_append, List.length_cons,
        List.append_assoc, h0, State.carryBytes, State.blockSize, Memory.read_length]
      simp only [State.blockSize] at hfull
      simp [hfull, Nat.add_assoc, Nat.add_comm 1]
    · rw [feedSpec_append] at hr ⊢
      have hlt : s.clen < s.blockSize := by omega
      have hu := (usePayloadByte_absorb (s := { s with dataIn := x ++ rest, rem := s.rem - 1 }) hm b).trans
        (absorb_room (s := { s with dataIn := x ++ rest, rem := s.rem - 1 }) hlt b)
      rw [List.cons_append, takePayload_cons hz hu]
      have hcb : ({ s with
          dataIn := x ++ rest, rem := s.rem - 1, carry := s.carry.write s.clen b, clen := s.clen + 1 } : State).carryBytes =
          s.carryBytes ++ [b] := Memory.read_write_end _ _ _
      obtain ⟨t, ht, hts, htc, htb⟩ := ih (s := { s with
        dataIn := x ++ rest, rem := s.rem - 1, carry := s.carry.write s.clen b, clen := s.clen + 1 }) hm h0 hb
        hlt (by simp [hx]) (by rw [hcb]; exact hr)
      rw [hcb] at hts htc
      exact ⟨t, ht, hts, htc, htb⟩

/-- The same progress with the control point `g` in a completed state. -/
def Progress.doneAt (g : Stage) : Progress → Progress
  | .done t => .done { t with stage := g }
  | p => p

theorem appendCarry_stage (b : Byte) (s : State) (g : Stage) :
    appendCarry b { s with stage := g } = (appendCarry b s).doneAt g := by
  by_cases h : s.bsize.toNat < s.clen + 1 <;> simp [appendCarry, State.blockSize, h, Progress.doneAt]

theorem absorbOnFull_stage (b : Byte) (s : State) (g : Stage) :
    absorbOnFull b { s with stage := g } = (absorbOnFull b s).doneAt g := by
  by_cases h : s.sent + s.dataRoom.grant (s.bsize.toNat - s.sent) < s.bsize.toNat
  · simp [absorbOnFull, emitCarry, placeCarry, State.blockSize, h, Progress.doneAt]
  · by_cases h1 : s.bsize.toNat = 0
    · simp [absorbOnFull, emitCarry, placeCarry, State.blockSize, appendCarry, h1, Progress.doneAt]
    · simp [absorbOnFull, emitCarry, placeCarry, State.blockSize, appendCarry, h, h1, Progress.doneAt]

/-- Where a FEED waited makes no difference to what a payload byte does, but for that field. -/
theorem usePayloadByte_stage (b : Byte) (s : State) (g : Stage) :
    usePayloadByte b { s with stage := g } = (usePayloadByte b s).doneAt g := by
  rcases (by cases s.mode <;> simp : s.mode = .drain ∨ s.mode = .absorb) with hm | hm
  · rw [usePayloadByte_drain hm, usePayloadByte_drain (by exact hm), Progress.doneAt]
  · rw [usePayloadByte_absorb hm, usePayloadByte_absorb (by exact hm), absorb, absorb]
    by_cases h : s.clen = s.blockSize
    · exact (if_pos h).trans ((absorbOnFull_stage b s g).trans (by rw [if_pos h]))
    · exact (if_neg h).trans ((appendCarry_stage b s g).trans (by rw [if_neg h]))

/-- Respond sets the control point, whatever it was. -/
theorem respond_stage (w : Word) (s : State) (g : Stage) :
    respond w { s with stage := g } = respond w s := by
  by_cases h : s.rspRoom.grant 1 = 1 <;> simp [respond, h]

theorem finishFeed_stage (s : State) (g : Stage) : finishFeed { s with stage := g } = finishFeed s := by
  rcases h : feedPhaseError s.phase with _ | e
  · simp only [finishFeed, h]
    exact respond_stage _ s g
  · simp only [finishFeed, h]
    exact respond_stage _ { s with phase := .error, clen := 0 } g

/-- The loop's answer depends neither on where the FEED waited nor on the channel's own copy of the payload. -/
theorem takePayload_forgets (x : List Byte) (s : State) (d : List Byte) (g : Stage) :
    takePayload x { s with dataIn := d, stage := g } = takePayload x s := by
  induction x generalizing s d g with
  | nil =>
    simp only [takePayload]
    split
    · exact congrArg _ (finishFeed_stage { s with dataIn := [] } g)
    · rfl
  | cons b x ih =>
    simp only [takePayload]
    split
    · exact congrArg _ (finishFeed_stage { s with dataIn := b :: x } g)
    · rw [usePayloadByte_stage b { s with dataIn := x, rem := s.rem - 1 } g]
      cases usePayloadByte b { s with dataIn := x, rem := s.rem - 1 } with
      | done t => exact ih t t.dataIn g
      | wait t => rfl
      | fault f => rfl

end Sys2Proof.Machine
end

