-- ==== Sys2Proof/Laws/Engines.lean ====
section
/-! SUPPORT. What the chunker answers a client, said once for each command, and what an engine gets for its chunks. -/

namespace Sys2Proof.Machine

/-- Whole blocks, joined and cut again. -/
theorem cutBlocks_flatten {b : Nat} {ps : List (List Byte)} (hp : ∀ p ∈ ps, p.length = b) :
    cutBlocks b ps.length ps.flatten = ps := by
  induction ps with
  | nil => rfl
  | cons p ps ih =>
    obtain ⟨hl, hr⟩ := List.forall_mem_cons.mp hp
    rw [List.flatten_cons, List.length_cons, cutBlocks, List.take_left' hl, List.drop_left' hl, ih hr]

/-- A chunker between a client's commands: in ACTIVE with block size `b` and carry `c`, its channels empty and free. -/
def State.Holds (b : Nat) (c : List Byte) (s : State) : Prop :=
  s.phase = .active ∧ s.stage = .ready ∧ s.ConsumerReady ∧ s.cmdIn = [] ∧ s.dataIn = [] ∧ s.dataOut = [] ∧
    s.rspOut = [] ∧ s.blockSize = b ∧ s.carryBytes = c ∧ 1 ≤ b ∧ c.length ≤ b

/-- A chunker in IDLE between commands, with empty channels, none held back, in a build of at most `2^28 - 1` cells. -/
def State.Fresh (s : State) : Prop :=
  s.phase = .idle ∧ s.stage = .ready ∧ s.ConsumerReady ∧ s.cmdIn = [] ∧ s.dataIn = [] ∧ s.dataOut = [] ∧
    s.rspOut = [] ∧ s.bMax ≤ 2 ^ 28 - 1

/-- Reset makes any chunker fresh (70_reset_and_hazards.md R160). -/
theorem assertReset_fresh {s : State} (h : s.ConsumerReady) (hm : s.bMax ≤ 2 ^ 28 - 1) : (assertReset s).Fresh := by
  simpa [State.Fresh, State.ConsumerReady, h.1, h.2] using hm

/-- A client collects the one response on RSP_OUT and what stands on DATA_OUT. -/
theorem collect_ok {t : State} {n : Nat} (h : t.rspOut = [okWord n]) :
    collect t = .ok ({ t with
      dataOut := [], dataRoom := t.dataRoom.regain t.dataOut.length
      rspOut := [], rspRoom := t.rspRoom.regain 1 }, ⟨t.dataOut, okWord n⟩) := by
  simp [collect, h, okWord]

/-- INIT of a legal block size (R80). -/
theorem request_init {b : Nat} {s : State} (h : s.Fresh) (h1 : 1 ≤ b) (h2 : b ≤ s.bMax) :
    ∃ t r, request ⟨encode (.init b), []⟩ s = .ok (t, r) ∧ t.Holds b [] := by
  obtain ⟨hp, hg, ⟨hr1, hr2⟩, hc, hd, ho, hs, hm⟩ := h
  have hz := zext28_toNat (v := b) (by omega)
  have hdec : decode (encode (.init b)) = .ok (.init b) := by
    simp [decode, encode, Instr.op, Instr.arg, hz]
  have hb0 : b ≠ 0 := by omega
  have hbm : ¬ s.bMax < b := by omega
  refine ⟨_, _, by
    simp only [request, State.send, chunkerTurn, hg, hc, List.nil_append, List.map_cons, List.map_nil, runWord, hdec,
      exec, execInit, hp, initError, initPhaseError, blockSizeError, if_neg hb0, if_neg hbm, configure]
    rw [respond_placed (by simp [hr2]), collect_ok (by simp [hs]; rfl)], ?_⟩
  simp [State.Holds, State.ConsumerReady, State.blockSize, State.carryBytes, Memory.read, hr1, hr2, hd, hz, h1]

/-- FEED of a chunk below `2^28` bytes (R86). -/
theorem request_feed {b : Nat} {c x : List Byte} {s : State} (h : s.Holds b c) (hx : x.length < 2 ^ 28) :
    ∃ t r, request (sendChunk x) s = .ok (t, r) ∧ r.blocks b = (feedSpec b c x).1 ∧ t.Holds b (feedSpec b c x).2 := by
  obtain ⟨hp, hg, ⟨hr1, hr2⟩, hc, hd, ho, hs, hb, hcb, h1, h2⟩ := h
  have hz := zext28_toNat hx
  have hdec : decode (encode (.feed x.length)) = .ok (.feed x.length) := by
    simp [decode, encode, Instr.op, Instr.arg, hz]
  have hlen : (feedSpec b c x).1.length < 2 ^ 28 := by
    have e := congrArg List.length (feedSpec_flatten h1 (x := x) h2)
    rw [List.length_append, length_flatten_whole (feedSpec_block_length h1 h2)] at e
    by_cases hne : c ++ x = []
    · simp [feedSpec, hne]
    · have := List.length_pos_iff.mpr (feedSpec_carry_ne_nil h1 h2 hne)
      have : (feedSpec b c x).1.length ≤ x.length := by
        rw [List.length_append] at e
        by_contra hcon
        have := Nat.mul_le_mul_right b (show x.length + 1 ≤ (feedSpec b c x).1.length by omega)
        have := Nat.mul_le_mul_left x.length h1
        rw [Nat.succ_mul] at *
        omega
      omega
  obtain ⟨t, ht, hte, htc, htb⟩ := takePayload_absorb
    (s := { s with
      dataIn := x, rem := x.length, mode := .absorb, blocks := 0, feedArg := zext28 x.length, sent := 0 })
    rfl rfl (hb ▸ h1) (by rw [← hb, ← hcb, carryBytes_length] at h2; exact h2) x [] rfl (by simp [hr1])
  have hcs : ({ s with
      dataIn := x, rem := x.length, mode := .absorb, blocks := 0, feedArg := zext28 x.length, sent := 0 } : State).carryBytes
      = c := hcb
  have hbs : ({ s with
      dataIn := x, rem := x.length, mode := .absorb, blocks := 0, feedArg := zext28 x.length, sent := 0 } : State).blockSize
      = b := hb
  rw [hcs, hbs] at hte htc
  have htp : t.phase = .active := by rw [hte]; exact hp
  have hrun : chunkerTurn (s.send [sendChunk x]) = .next (finishFeed t) := by
    simp only [chunkerTurn, State.send, hg, hc, hd, sendChunk, List.nil_append, List.map_cons, List.map_nil, runWord,
      hdec, exec, execFeed, List.flatMap_cons, List.flatMap_nil, List.append_nil, startFeed, hp, feedPhaseError]
    simpa only [List.append_nil, hp, hg, hc] using ht
  have hblk : t.blocks = (feedSpec b c x).1.length := by rw [hte]; simp
  have hfin : finishFeed t = { t with
      rspOut := t.rspOut ++ [okWord t.blocks], rspRoom := t.rspRoom.spend 1, stage := .ready } := by
    rw [finishFeed, show feedPhaseError t.phase = none by rw [htp]; rfl]
    exact respond_placed (show t.rspRoom.grant 1 = 1 by rw [hte]; simp [hr2]) _
  refine ⟨_, _, by
    simp only [request, hrun, hfin]
    rw [collect_ok (n := t.blocks) (by rw [hte]; simp [hs])], ?_, ?_⟩
  · have hout : t.dataOut = (feedSpec b c x).1.flatten := by rw [hte]; simp [ho]
    simp only [Reply.blocks, okWord, argField_joinWord, hblk, zext28_toNat hlen, hout]
    exact cutBlocks_flatten (feedSpec_block_length h1 h2)
  · refine ⟨htp, rfl, ⟨?_, ?_⟩, ?_, ?_, rfl, rfl, ?_, htc, h1, feedSpec_carry_le h1 h2⟩
    · rw [hte]; simp [hr1]
    · rw [hte]; simp [hr2]
    · rw [hte]; exact hc
    · rw [hte]
    · rw [hte]; exact hb

/-- FLUSH: the carry is the tail, and the session is over (R82). -/
theorem request_flush {b : Nat} {c : List Byte} {s : State} (h : s.Holds b c) :
    ∃ t r, request ⟨encode .flush, []⟩ s = .ok (t, r) ∧ r.out = c ∧ t.phase = .flushed ∧ t.stage = .ready ∧
      t.ConsumerReady ∧ t.cmdIn = [] ∧ t.dataIn = [] ∧ t.rspOut = [] := by
  obtain ⟨hp, hg, ⟨hr1, hr2⟩, hc, hd, ho, hs, hb, hcb, h1, h2⟩ := h
  have hdec : decode (encode .flush) = .ok .flush := by decide
  have hle : s.clen ≤ s.blockSize := by rw [← hcb, carryBytes_length] at h2; omega
  have hrun : chunkerTurn (s.send [⟨encode .flush, []⟩]) = .next (respond (okWord s.clen)
      { s with cmdIn := [], dataIn := [], dataOut := c, sent := 0, clen := 0, phase := .flushed }) := by
    simp only [chunkerTurn, State.send, hg, hc, hd, List.nil_append, List.map_cons, List.map_nil, runWord, hdec, exec,
      execFlush, hp, flushPhaseError, emitTail, List.flatMap_cons, List.flatMap_nil]
    rw [emitCarry_done (s := { s with cmdIn := [], dataIn := [], sent := 0, phase := .active, stage := .ready })
      hle (Nat.zero_le _) (by simp [hr1])]
    simp [ho, ← hcb, State.carryBytes, hr1]
  refine ⟨_, _, by
    simp only [request, hrun]
    rw [respond_placed (by simp [hr2]), collect_ok (by simp [hs]; rfl)], rfl, rfl, rfl, ⟨?_, ?_⟩, rfl, rfl, rfl⟩
  · simp [hr1]
  · simp [hr2]

/-- FEEDs of chunks emit what one chunk of all their bytes emits (R91). -/
theorem feedPieces_ok {b : Nat} {xs : List (List Byte)} {c : List Byte} {s : State} (h : s.Holds b c)
    (hx : ∀ x ∈ xs, x.length < 2 ^ 28) :
    ∃ t, feedPieces b xs s = .ok (t, (feedSpec b c xs.flatten).1) ∧ t.Holds b (feedSpec b c xs.flatten).2 := by
  induction xs generalizing c s with
  | nil =>
    rw [List.flatten_nil, feedSpec_nil h.2.2.2.2.2.2.2.2.2.2]
    exact ⟨s, rfl, h⟩
  | cons x xs ih =>
    obtain ⟨hx1, hx2⟩ := List.forall_mem_cons.mp hx
    obtain ⟨t, r, ht, hr, hh⟩ := request_feed h hx1
    obtain ⟨u, hu, hhu⟩ := ih hh hx2
    obtain ⟨-, -, -, -, -, -, -, -, -, h1, h2⟩ := h
    rw [List.flatten_cons, feedSpec_append_chunks h1 _ h2]
    exact ⟨u, by simp only [feedPieces, ht, Except.bind, hu, Except.map, hr], hhu⟩

theorem splitFuel_mem {b : Nat} {p : List Byte} {n : Nat} {s : List Byte} (h : p ∈ splitFuel b n s) :
    p.length ≤ b := by
  induction n generalizing s with
  | zero => simp [splitFuel] at h
  | succ n ih =>
    simp only [splitFuel] at h
    split at h
    · rw [List.mem_singleton.mp h]; assumption
    · rcases List.mem_cons.mp h with h | h
      · rw [h]; simp
      · exact ih h

/-- Each of FEEDL's chunks fits a FEED (R71). -/
theorem feedlChunks_short (x : List Byte) : ∀ p ∈ feedlChunks x, p.length < 2 ^ 28 := by
  intro p hp
  unfold feedlChunks at hp
  split at hp
  · rw [List.mem_singleton.mp hp]; assumption
  · have := splitFuel_mem hp
    simp only [maxChunk] at this
    omega

theorem splitBlocks_flatten {b : Nat} (hb : 1 ≤ b) (s : List Byte) : (splitBlocks b s).flatten = s := by
  by_cases hs : s = []
  · simp [hs, splitBlocks, splitFuel]
  · have hp := feedSpec_pieces b (c := []) (x := s) (by simpa using hs)
    have hf := feedSpec_flatten hb (c := []) (x := s) (by simp)
    rw [List.nil_append] at hp hf
    rw [← hp]
    simpa using hf

/-- FEEDL's chunks hold the bytes of the whole chunk (R71). -/
theorem feedlChunks_flatten (x : List Byte) : (feedlChunks x).flatten = x := by
  unfold feedlChunks
  split
  · simp
  · exact splitBlocks_flatten (by decide) x

/-- What an engine gets for a chunk of any length. -/
theorem Engine.feed_ok {α : Type} {c x : List Byte} {e : Engine α} (h : e.chunker.Holds e.blockBytes c) :
    ∃ t, e.feed x = .ok ({ e with chunker := t }, (feedSpec e.blockBytes c x).1) ∧
      t.Holds e.blockBytes (feedSpec e.blockBytes c x).2 := by
  obtain ⟨t, ht, hh⟩ := feedPieces_ok h (feedlChunks_short x)
  rw [feedlChunks_flatten] at ht hh
  exact ⟨t, by simp only [Engine.feed, ht, Except.map], hh⟩

/-- What an engine gets at the end. -/
theorem Engine.flush_ok {α : Type} {c : List Byte} {e : Engine α} (h : e.chunker.Holds e.blockBytes c) :
    ∃ t, e.flush = .ok ({ e with chunker := t }, c) ∧ t.phase = .flushed ∧ t.stage = .ready ∧ t.ConsumerReady ∧
      t.cmdIn = [] ∧ t.dataIn = [] ∧ t.rspOut = [] := by
  obtain ⟨t, r, ht, hr, hrest⟩ := request_flush h
  exact ⟨t, by simp only [Engine.flush, ht, Except.map, hr], hrest⟩

/-- A client with a legal configuration and a block size of the build begins its session, on any chunker. -/
theorem Client.start_ok {α : Type} {c : Client} (hc : c.configLegal = true) {s : State}
    (h : s.ConsumerReady) (hm : s.bMax ≤ 2 ^ 28 - 1) (h1 : 1 ≤ c.blockSize) (h2 : c.blockSize ≤ s.bMax) (own : α) :
    ∃ t, c.start own s = .ok ⟨t, c.blockSize, own⟩ ∧ t.Holds c.blockSize [] := by
  obtain ⟨t, r, ht, hh⟩ := request_init (assertReset_fresh h hm) h1 h2
  have hw : (Instr.init c.blockSize).wellFormed = true := by
    simp only [Instr.wellFormed, decide_eq_true_eq]; omega
  exact ⟨t, by simp only [Client.start, Client.opening, if_pos hc, if_pos hw, Except.bind, ht, Except.map], hh⟩

end Sys2Proof.Machine
end

