-- ==== Sys2Proof/Laws/Invariant.lean ====
section
/-! SUPPORT. What a FEED in flight keeps, byte by byte, and when Respond, Emit and Absorb keep the invariant. -/

namespace Sys2Proof.Machine

/-- The part of the invariant that no control point belongs to. -/
def State.CoreLegal (s : State) : Prop := s.BuildLegal ∧ s.PhaseLegal ∧ s.CarryLegal

/-- A FEED in flight between two payload bytes. -/
def State.FeedLegal (s : State) : Prop :=
  s.CoreLegal ∧ s.sent = 0 ∧ (s.mode = .absorb ↔ s.phase = .active) ∧
    (s.mode = .absorb → s.blocks + s.rem ≤ s.feedArg.toNat) ∧ s.rem ≤ s.feedArg.toNat

theorem State.Inv.core {s : State} (h : s.Inv) : s.CoreLegal := ⟨h.1, h.2.1, h.2.2.1⟩

/-- What CoreLegal reads. -/
theorem State.CoreLegal.congr {s t : State} (h : s.CoreLegal) (h1 : t.bMax = s.bMax) (h2 : t.phase = s.phase)
    (h3 : t.bsize = s.bsize) (h4 : t.clen = s.clen) (h5 : t.carry = s.carry) : t.CoreLegal := by
  simpa only [State.CoreLegal, State.BuildLegal, State.PhaseLegal, State.CarryLegal, State.blockSize, h1, h2, h3, h4,
    h5] using h

/-- Respond ends the command or waits in Respond; either way nothing else is in flight. -/
theorem respond_inv {s : State} (h : s.CoreLegal) (h0 : s.rem = 0) (h1 : s.sent = 0) (w : Word) :
    (respond w s).Inv := by
  obtain ⟨a, b, c⟩ := h.congr (t := respond w s) (by simp) (by simp) (by simp) (by simp) (by simp)
  refine ⟨a, b, c, ?_⟩
  by_cases hr : s.rspRoom.grant 1 = 1
  · simp [respond_placed hr, State.StageLegal, h0, h1]
  · simp [respond_waits hr, State.StageLegal, h0, h1]

/-- In every phase the block size is within the build's `B_MAX`. -/
theorem State.CoreLegal.blockSize_le {s : State} (h : s.CoreLegal) : s.blockSize ≤ s.bMax := by
  have := h.2.1
  have hb := h.1.1
  simp only [State.PhaseLegal, Config.bMaxLeast] at this hb
  split at this <;> omega

/-- CLEN is within BSIZE in every phase (10_state.md R25). -/
theorem State.CoreLegal.clen_le {s : State} (h : s.CoreLegal) : s.clen ≤ s.blockSize := by
  have := h.2.1
  simp only [State.PhaseLegal] at this
  split at this <;> omega

/-- Discarding the carry keeps its part of the invariant. -/
theorem CarryLegal.discard {s t : State} (h : s.CarryLegal) (hc : t.carry = s.carry) (hb : t.bMax = s.bMax)
    (h0 : t.clen = 0) : t.CarryLegal := by
  refine ⟨hc ▸ h.1, hc ▸ hb ▸ h.2.1, fun i hi => ?_⟩
  omega

/-- Error entry keeps the invariant (60_exceptions.md R140). -/
theorem raiseError_inv {s : State} (h : s.CoreLegal) (h0 : s.rem = 0) (h1 : s.sent = 0) (e : ErrorCode) (info : Arg) :
    (raiseError e info s).Inv := by
  refine respond_inv (s := { s with phase := .error, clen := 0 })
    ⟨h.1, ⟨h.blockSize_le, rfl⟩, CarryLegal.discard h.2.2 rfl rfl rfl⟩ h0 h1 _

/-- Appending a byte keeps the carry legal. -/
theorem CarryLegal.append {s t : State} (h : s.CarryLegal) {n : Nat} (hn : n ≤ s.clen) (hlt : n < s.bMax) (b : Byte)
    (hc : t.carry = s.carry.write n b) (hb : t.bMax = s.bMax) (h1 : t.clen = n + 1) : t.CarryLegal := by
  refine ⟨hc ▸ Memory.write_wf h.1 n b, ?_, fun i hi => ?_⟩
  · rw [hc, hb]
    exact Memory.write_within h.2.1 hlt b
  · rw [hc]
    exact Memory.write_listed b fun hne => h.2.2 i (by omega)

/-- One payload byte of a legal FEED leaves a legal FEED, or one that waits in its Emit; it never leaves the carry. -/
theorem usePayloadByte_legal {s : State} (h : s.FeedLegal) (h0 : s.rem ≠ 0) (b : Byte) (d : List Byte) :
    (∃ t, usePayloadByte b { s with dataIn := d, rem := s.rem - 1 } = .done t ∧ t.FeedLegal) ∨
    (∃ t, usePayloadByte b { s with dataIn := d, rem := s.rem - 1 } = .wait t ∧ t.Inv ∧
      t.stage = .absorbEmit b) := by
  obtain ⟨hcore, hsent, hmode, hblocks, hrem⟩ := h
  rcases (by cases s.mode <;> simp : s.mode = .drain ∨ s.mode = .absorb) with hm | hm
  · refine .inl ⟨_, usePayloadByte_drain (s := { s with dataIn := d, rem := s.rem - 1 }) hm b, hcore.congr rfl rfl rfl rfl rfl, hsent, hmode, ?_, ?_⟩
    · intro h; simp [hm] at h
    · show s.rem - 1 ≤ s.feedArg.toNat
      omega
  · have hact := hmode.mp hm
    have hbl := hblocks hm
    have hph := hcore.2.1
    simp only [State.PhaseLegal, hact] at hph
    rw [usePayloadByte_absorb (s := { s with dataIn := d, rem := s.rem - 1 }) hm]
    rcases absorb_cases b { s with dataIn := d, rem := s.rem - 1 } with ⟨hne, he⟩ | ⟨heq, he⟩
    · simp only [State.blockSize] at hne hph
      rcases appendCarry_cases b { s with dataIn := d, rem := s.rem - 1 } with ⟨hle, hap⟩ | ⟨hlt, -⟩
      · refine .inl ⟨_, he.trans hap, ⟨hcore.1, ?_, ?_⟩, hsent, hmode, ?_, ?_⟩
        · simp only [State.PhaseLegal, hact, State.blockSize] at hle ⊢
          omega
        · refine CarryLegal.append hcore.2.2 (Nat.le_refl _) ?_ b rfl rfl rfl
          simp only [State.blockSize] at hle
          omega
        · intro _; simp only; omega
        · simp only; omega
      · simp only [State.blockSize] at hlt
        omega
    · simp only [State.blockSize] at heq hph
      rcases absorbOnFull_cases b { s with dataIn := d, rem := s.rem - 1 } with ⟨-, -, hap⟩ | ⟨hlt, hap⟩ | ⟨hz, -⟩
      · refine .inl ⟨_, he.trans hap, ⟨hcore.1, ?_, ?_⟩, rfl, hmode, ?_, ?_⟩
        · simp only [State.PhaseLegal, placeCarry_phase, hact, State.blockSize, placeCarry_bsize, placeCarry_bMax]
          omega
        · exact CarryLegal.append hcore.2.2 (Nat.zero_le _) (by omega) b rfl rfl rfl
        · intro _; simp only [placeCarry_rem, placeCarry_feedArg]; omega
        · simp only [placeCarry_rem, placeCarry_feedArg]; omega
      · refine .inr ⟨_, he.trans hap, ⟨hcore.1, ?_, ?_, ?_⟩, rfl⟩
        · simpa only [State.PhaseLegal, placeCarry_phase, hact, State.blockSize, placeCarry_bsize, placeCarry_bMax,
            placeCarry_clen] using hph
        · exact hcore.2.2
        · simp only [State.StageLegal, placeCarry_phase, placeCarry_mode, placeCarry_clen, State.blockSize,
            placeCarry_bsize, placeCarry_blocks, placeCarry_rem, placeCarry_feedArg] at hlt ⊢
          refine ⟨hact, hm, heq, ?_, ?_⟩
          · omega
          · omega
      · simp only [State.blockSize] at hz
        omega

/-- The end of a legal FEED keeps the invariant. -/
theorem finishFeed_inv {s : State} (h : s.CoreLegal) (h0 : s.rem = 0) (h1 : s.sent = 0) : (finishFeed s).Inv := by
  unfold finishFeed
  split
  · exact respond_inv h h0 h1 _
  · exact raiseError_inv h h0 h1 _ _

/-- The payload loop of a legal FEED always answers a next state, which meets the invariant. -/
theorem takePayload_legal {s : State} (h : s.FeedLegal) (bs : List Byte) :
    ∃ t, takePayload bs s = .next t ∧ t.Inv := by
  induction bs generalizing s with
  | nil =>
    by_cases h0 : s.rem = 0
    · exact ⟨_, takePayload_finished h0 [], finishFeed_inv (h.1.congr rfl rfl rfl rfl rfl) h0 h.2.1⟩
    · refine ⟨{ s with dataIn := [], stage := .payload }, by rw [takePayload, if_neg h0], h.1.1, h.1.2.1, h.1.2.2, ?_⟩
      obtain ⟨-, hs, hm, hb, hr⟩ := h
      exact ⟨Nat.one_le_iff_ne_zero.mpr h0, hs, hm, hb, hr⟩
  | cons b bs ih =>
    by_cases h0 : s.rem = 0
    · exact ⟨_, takePayload_finished h0 _, finishFeed_inv (h.1.congr rfl rfl rfl rfl rfl) h0 h.2.1⟩
    · rcases usePayloadByte_legal h h0 b bs with ⟨t, ht, hl⟩ | ⟨t, ht, hi, -⟩
      · rw [takePayload_cons h0 ht]
        exact ih hl
      · exact ⟨t, by simp only [takePayload, if_neg h0, ht], hi⟩

/-- FEED's start on a legal state is a legal FEED in flight. -/
theorem startFeed_legal {s : State} (h : s.CoreLegal) {l : Nat} (hl : l < 2 ^ 28) : (startFeed l s).FeedLegal := by
  have hz := zext28_toNat hl
  refine ⟨h.congr (by simp) (by simp) (by simp) (by simp) (by simp), by simp, ?_, ?_, by simp [hz]⟩
  · rw [startFeed_mode]
    simp
  · intro hm
    rw [startFeed_mode] at hm
    have hact : s.phase = .active := by
      by_contra hne
      simp [hne] at hm
    rw [startFeed_blocks_active l hact]
    simp [hz]

/-- FLUSH's Emit, begun or resumed in ACTIVE, always answers a next state, which meets the invariant. -/
theorem emitTail_legal {s : State} (h : s.CoreLegal) (hp : s.phase = .active) (h0 : s.rem = 0) :
    ∃ t, emitTail s = .next t ∧ t.Inv := by
  have hc := h.clen_le
  have hph := h.2.1
  simp only [State.PhaseLegal, hp, State.blockSize] at hph
  rcases emitCarry_cases s.clen s with ⟨-, -, he⟩ | ⟨-, h2, he⟩ | ⟨h1, -⟩
  · refine ⟨_, by simp only [emitTail, he]; rfl, respond_inv
      (s := { placeCarry s.clen s with sent := 0, clen := 0, phase := .flushed })
      ⟨h.1, ?_, CarryLegal.discard h.2.2 rfl rfl rfl⟩ h0 rfl _⟩
    simp only [State.PhaseLegal, State.blockSize, placeCarry_bsize, placeCarry_bMax]
    exact ⟨hph.1, hph.2.1, trivial⟩
  · refine ⟨{ placeCarry s.clen s with stage := .flushEmit }, by simp only [emitTail, he], h.1, ?_, h.2.2, hp, h0, h2⟩
    simpa only [State.PhaseLegal, placeCarry_phase, hp, State.blockSize, placeCarry_bsize, placeCarry_bMax,
      placeCarry_clen] using hph
  · exact absurd hc (Nat.not_le.mpr h1)

end Sys2Proof.Machine
end

