-- ==== Sys2Proof/Laws/PerInstr.lean ====
section
/-! SUPPORT. Statements made per instruction: the fields of the encoded word (30_encoding.md R60). -/

namespace Sys2Proof.Laws.EncodeFields

/-- The word of a well-formed command carries its OP in bits 31:28 and its operand in bits 27:0. -/
def Statement (i : Instr) : Prop :=
  i.WellFormed → opField (encode i) = i.op ∧ (argField (encode i)).toNat = i.arg

theorem init (b : Nat) : Statement (.init b) := fun h =>
  ⟨opField_joinWord _ _, by
    rw [encode, argField_joinWord]; exact zext28_toNat (by simpa [Instr.WellFormed, Instr.wellFormed, Instr.arg] using h)⟩

theorem feed (l : Nat) : Statement (.feed l) := fun h =>
  ⟨opField_joinWord _ _, by
    rw [encode, argField_joinWord]; exact zext28_toNat (by simpa [Instr.WellFormed, Instr.wellFormed, Instr.arg] using h)⟩

theorem flush : Statement .flush := fun _ =>
  ⟨opField_joinWord _ _, by rw [encode, argField_joinWord]; rfl⟩

end Sys2Proof.Laws.EncodeFields
end

