-- ==== Sys2Proof/Tests/Slice0.lean ====
section
/-! SUPPORT. Tests on fixed values, each expected result from 95_test_vectors.md or from an example of a rule, and a witness
for the hypotheses of each statement. -/

namespace Sys2Proof.Tests

open Sys2Proof.Machine

/-! Helpers. -/

/-- A build with `B_MAX = 64` in the given phase, with block size `b` and a carry. -/
def sample (p : Phase) (b : Nat) (carry : List Byte) : State :=
  { State.resetFor 64 with
    phase := p, bsize := zext28 b, clen := carry.length, carry := (List.range carry.length).zip carry }

/-- The next state of an outcome, if it is one. -/
def after : Host.Outcome State Fault Refusal → Option State
  | .next s => some s
  | _ => none

/-- What a command leaves: PHASE, carry, DATA_OUT, RSP_OUT, DATA_IN. -/
def seen (o : Host.Outcome State Fault Refusal) : Option (Phase × List Byte × List Byte × List Word × List Byte) :=
  (after o).map fun s => (s.phase, s.carryBytes, s.dataOut, s.rspOut, s.dataIn)

/-! Decoding: words written out from 30_encoding.md R61 (OP in 31:28, ARG in 27:0). -/

theorem test_decode_init : decode 0b0001_0000_0000_0000_0000_0000_0000_0100#32 = .ok (.init 4) := by decide

theorem test_decode_feed : decode 0b0010_1000_0000_0000_0000_0000_0000_0011#32 = .ok (.feed 134217731) := by decide

theorem test_decode_flush : decode 0b0011_0000_0000_0000_0000_0000_0000_0000#32 = .ok .flush := by decide

theorem test_decode_zero_is_illegal : decode 0#32 = .error (.reservedOp 0#4) := by decide

theorem test_decode_flush_operand : decode 0x38000000#32 = .error (.flushOperand 0x8000000#28) := by decide

/-- 95 notation: `INIT 64 = 10000040`. -/
theorem test_encode_init : encode (.init 64) = 0x10000040#32 := by decide

theorem test_table_word : decodeTableWord 32 0x20000005 = some (.feed 5) ∧ decodeTableWord 32 0x40000000 = none := by
  decide

/-! WellFormed: an ill-formed term for each check. -/

theorem test_wf_init_too_wide : (Instr.init (2 ^ 28)).wellFormed = false := by decide

theorem test_wf_feed_too_wide : (Instr.feed (2 ^ 28)).wellFormed = false := by decide

theorem test_wf_largest : (Instr.init (2 ^ 28 - 1)).wellFormed = true ∧ (Instr.feed (2 ^ 28 - 1)).wellFormed = true := by
  decide

theorem test_asm_init_too_large : assemble (.init (2 ^ 28)) = none := by decide

theorem test_asm_byte_too_large : assemble (.feed [255, 256]) = none := by decide

theorem test_asm_feedl_byte_too_large : assemble (.feedl [256]) = none := by decide

theorem test_asm_not_ascii : assemble (.feedText ['a', Char.ofNat 233]) = none := by decide

theorem test_asm_word_too_large : assemble (.word (2 ^ 32)) = none := by decide

theorem test_asm_chunk_too_long : (AsmLine.feed (List.replicate (2 ^ 28) 0)).wellFormed = false := by
  simp only [AsmLine.wellFormed, List.length_replicate]
  decide

theorem test_asm_text_too_long : (AsmLine.feedText (List.replicate (2 ^ 28) 'a')).wellFormed = false := by
  simp only [AsmLine.wellFormed, List.length_replicate]
  decide

/-- V5: `FEED "abc"` is `20000003 | 61 62 63`. -/
theorem test_asm_text : assemble (.feedText ['a', 'b', 'c']) =
    some [⟨0x20000003#32, [0x61#8, 0x62#8, 0x63#8]⟩] := by decide

/-- R72: `FEED` of 1 to 5 is listed as `20000005 | 01 02 03 04 05`. -/
theorem test_listing : (Sent.listing ⟨0x20000005#32, [1#8, 2#8, 3#8, 4#8, 5#8]⟩) =
    ['2', '0', '0', '0', '0', '0', '0', '5', ' ', '|', ' ', '0', '1', ' ', '0', '2', ' ', '0', '3', ' ', '0', '4',
      ' ', '0', '5'] := by decide

/-! Commands. -/

/-- I-1, as the first command after reset. -/
theorem test_init_from_reset :
    (after (step (State.reset.withFetchWord 32 0x10000004))).map (fun s => (s.phase, s.blockSize, s.rspOut)) =
      some (.active, 4, [0x00000004#32]) := by decide

/-- I-4: `B > B_MAX`. -/
theorem test_init_above_max :
    seen (exec (.init 65) (sample .idle 0 [])) = some (.error, [], [], [0x80000041#32], []) := by decide

/-- F-10: a full carry goes out first, then a second block. -/
theorem test_feed_on_full_carry :
    seen (exec (.feed 4) { sample .active 3 [1#8, 2#8, 3#8] with dataIn := [7#8, 8#8, 9#8, 10#8] }) =
      some (.active, [10#8], [1#8, 2#8, 3#8, 7#8, 8#8, 9#8], [0x00000002#32], []) := by decide

/-- F-12: a FEED after FLUSH drains its two bytes; a third stays on DATA_IN (R167). -/
theorem test_feed_after_flush :
    seen (exec (.feed 2) { sample .flushed 4 [] with dataIn := [0xAA#8, 0xBB#8, 0xCC#8] }) =
      some (.error, [], [], [0x50000002#32], [0xCC#8]) := by decide

/-- X-3: a whole block as the tail. -/
theorem test_flush_full_carry :
    seen (exec .flush (sample .active 4 [5#8, 6#8, 7#8, 8#8])) =
      some (.flushed, [], [5#8, 6#8, 7#8, 8#8], [0x00000004#32], []) := by decide

/-- X-4: FLUSH_TWICE. -/
theorem test_flush_twice :
    seen (exec .flush (sample .flushed 4 [])) = some (.error, [], [], [0x60000000#32], []) := by decide

/-- D-3: an illegal word discards the carry. -/
theorem test_illegal_word :
    seen (step ((sample .active 4 [1#8]).withFetchWord 32 0x30000001)) =
      some (.error, [], [], [0x10000001#32], []) := by decide

/-- V5, V6: the padded tail of the digest of "abc" is one block that ends in the bit length 24. -/
theorem test_sha1_padding :
    (sha1PadTail 0 [0x61#8, 0x62#8, 0x63#8]).length = 64 ∧
      (sha1PadTail 0 [0x61#8, 0x62#8, 0x63#8]).getLast? = some 24#8 := by decide

/-! Clients. -/

/-- R111: "block size below 8 bytes" is the client's error, before any INIT. -/
theorem test_xxtea_block_too_small :
    (Client.xxteaEncrypt 4).session (Vector.replicate 8 0#8) [] = .error .configuration := by decide

/-- R119: an engine resets a used chunker first. -/
theorem test_start_resets :
    ((Client.xxteaDecrypt 8).start (0 : Nat) (sample .flushed 4 [])).map (fun e => (e.chunker.phase, e.chunker.blockSize)) =
      .ok (.active, 8) := rfl

/-- R112, R136: `processBuffer` after `finish` is the chunker's FEED_AFTER_FLUSH. -/
theorem test_sha1_after_finish :
    ((sha1Start (0 : Nat) State.reset).bind (sha1Finish (fun h _ => h + 1))).bind
      (sha1ProcessBuffer (fun h _ => h + 1) [1#8]) = .error (.rejected 5#4) := rfl

/-- V5: the digest of "abc" is one compression; the total is the 3 bytes fed. -/
theorem test_sha1_abc :
    (((sha1Start (0 : Nat) State.reset).bind
      (sha1ProcessBuffer (fun h _ => h + 1) [0x61#8, 0x62#8, 0x63#8])).bind
        (sha1Finish (fun h _ => h + 1))).map (fun e => (e.own.hash, e.own.totalBytesProcessed)) = .ok (1, 3) := rfl

/-- R117: a trim length larger than the decrypted tail is the client's underflow; a tail before the length is known is not
covered (I15). -/
theorem test_xxtea_finish_errors :
    Decryption.finalize id 8 (List.replicate 8 0#8) ⟨some 9, 0⟩ = .error .underflow ∧
      Decryption.finalize id 8 (List.replicate 8 0#8) ⟨none, 0⟩ = .error .notCovered := by decide

/-- R154: the accepted byte ends the wait of a FLUSH, which then places its next byte and waits again. -/
theorem test_accept_ends_wait :
    (((after (exec .flush { sample .active 4 [1#8, 2#8, 3#8] with dataRoom := .upTo 1 })).bind fun s =>
      after (step { s with schedule := [.acceptByte] })).bind fun s => after (step s)).map
        (fun s => (s.dataOut, s.stage)) = some ([2#8], .flushEmit) := by decide

/-! Witnesses: for each statement with hypotheses, a state and operands that meet them. -/

theorem witness_sample_inv : (sample .active 4 [1#8, 2#8]).Inv :=
  ⟨⟨by decide, by decide⟩, show _ ∧ _ ∧ _ by decide, ⟨by decide, by decide, by decide⟩, show _ ∧ _ by decide⟩

/-- IDLE, FLUSHED and ERROR states of the invariant. -/
theorem witness_other_phases_inv :
    (sample .idle 0 []).Inv ∧ (sample .flushed 4 []).Inv ∧ (sample .error 4 []).Inv :=
  ⟨⟨⟨by decide, by decide⟩, show _ ∧ _ by decide, ⟨by decide, by decide, by decide⟩, show _ ∧ _ by decide⟩,
    ⟨⟨by decide, by decide⟩, show _ ∧ _ ∧ _ by decide, ⟨by decide, by decide, by decide⟩, show _ ∧ _ by decide⟩,
    ⟨⟨by decide, by decide⟩, show _ ∧ _ by decide, ⟨by decide, by decide, by decide⟩, show _ ∧ _ by decide⟩⟩

/-- A FEED that waits in DataIn, in a state of the invariant. -/
theorem witness_payload_inv :
    ({ sample .active 4 [1#8] with stage := .payload, rem := 3, feedArg := 4#28 } : State).Inv :=
  ⟨⟨by decide, by decide⟩, show _ ∧ _ ∧ _ by decide, ⟨by decide, by decide, by decide⟩, show _ ∧ _ ∧ _ ∧ _ ∧ _ by decide⟩

/-- A FEED that waits in the Emit of a block, in a state of the invariant. -/
theorem witness_absorb_emit_inv :
    ({ sample .active 2 [1#8, 2#8] with
      stage := .absorbEmit 3#8, sent := 1, feedArg := 1#28, dataRoom := .upTo 0 } : State).Inv :=
  ⟨⟨by decide, by decide⟩, show _ ∧ _ ∧ _ by decide, ⟨by decide, by decide, by decide⟩, show _ ∧ _ ∧ _ ∧ _ ∧ _ by decide⟩

/-- A FLUSH that waits in its Emit, in a state of the invariant. -/
theorem witness_flush_emit_inv :
    ({ sample .active 2 [1#8] with stage := .flushEmit, dataRoom := .upTo 0 } : State).Inv :=
  ⟨⟨by decide, by decide⟩, show _ ∧ _ ∧ _ by decide, ⟨by decide, by decide, by decide⟩, show _ ∧ _ ∧ _ by decide⟩

/-- A command that waits in Respond, in a state of the invariant. -/
theorem witness_respond_inv :
    ({ sample .flushed 2 [] with stage := .respond 0#32, rspRoom := .upTo 0 } : State).Inv :=
  ⟨⟨by decide, by decide⟩, show _ ∧ _ ∧ _ by decide, ⟨by decide, by decide, by decide⟩, show _ ∧ _ by decide⟩

/-- ResetMeetsTheInvariant: both ends of the range of `B_MAX`. -/
theorem witness_ResetMeetsTheInvariant :
    64 ≤ 64 ∧ 64 ≤ 2 ^ 28 - 1 ∧ (64 : Nat) ≤ 268435455 ∧ 268435455 ≤ 2 ^ 28 - 1 := by decide

/-- ResetInputRestoresEveryState: RESET while a FEED waits. -/
theorem witness_ResetInputRestoresEveryState :
    ({ sample .active 4 [1#8] with stage := .payload, rem := 3, schedule := [.reset] } : State).schedule = .reset :: [] :=
  rfl

theorem witness_DecodeOfEncodeIsTheCommand :
    (Instr.init (2 ^ 28 - 1)).WellFormed ∧ (Instr.feed 0).WellFormed ∧ Instr.flush.WellFormed := by decide

theorem witness_EncodeOfDecodeIsTheWord :
    decode 0x2FFFFFFF#32 = .ok (.feed 268435455) ∧ decode 0x10000000#32 = .ok (.init 0) := by decide

/-- The two ends of each class, and a word of the last one on each side of the FLUSH word. -/
theorem witness_DecodeClassifiesEveryWord :
    (0x10000000#32).toNat / 2 ^ 28 = 1 ∧ (0x1FFFFFFF#32).toNat / 2 ^ 28 = 1 ∧ (0x20000000#32).toNat / 2 ^ 28 = 2 ∧
    (0x2FFFFFFF#32).toNat / 2 ^ 28 = 2 ∧
    ((0x30000001#32).toNat / 2 ^ 28 ≠ 1 ∧ (0x30000001#32).toNat / 2 ^ 28 ≠ 2 ∧ 0x30000001#32 ≠ 0x30000000#32) ∧
    ((0x0FFFFFFF#32).toNat / 2 ^ 28 ≠ 1 ∧ (0x0FFFFFFF#32).toNat / 2 ^ 28 ≠ 2 ∧ 0x0FFFFFFF#32 ≠ 0x30000000#32) := by
  decide

/-- A state between commands with one word on CMD_IN. -/
def withWord (p : Phase) (w : Word) : State := { sample p 4 [] with cmdIn := [w] }

theorem witness_StepRunsTheDecodedCommand :
    (withWord .idle 0x10000004#32).stage = .ready ∧ (withWord .idle 0x10000004#32).cmdIn = 0x10000004#32 :: [] ∧
    decode 0x10000004#32 = .ok (.init 4) ∧ (withWord .idle 0x10000004#32).schedule = [] ∧
    ({ withWord .idle 0x10000004#32 with schedule := [.chunker] } : State).schedule = .chunker :: [] := by decide

/-- Each way a word is illegal. -/
theorem witness_IllegalWordRaisesIllegalCommand :
    (withWord .error 0x0FFFFFFF#32).TakesCommand ∧ (withWord .error 0x0FFFFFFF#32).cmdIn = 0x0FFFFFFF#32 :: [] ∧
    (0x0FFFFFFF#32).toNat / 2 ^ 28 = 0 ∧ 4 ≤ (0x40000000#32).toNat / 2 ^ 28 ∧ (0x30000001#32).toNat / 2 ^ 28 = 3 ∧
    (0x30000001#32).toNat % 2 ^ 28 ≠ 0 :=
  ⟨⟨rfl, rfl⟩, rfl, by decide, by decide, by decide, by decide⟩

theorem witness_RespondPlacesOrWaits :
    (sample .idle 0 []).rspRoom = .unlimited ∧
    ({ sample .idle 0 [] with rspRoom := .upTo 1 } : State).rspRoom = .upTo (0 + 1) ∧
    ({ sample .idle 0 [] with rspRoom := .upTo 0 } : State).rspRoom = .upTo 0 := ⟨rfl, rfl, rfl⟩

theorem witness_OnlyFeedTakesPayload :
    (withWord .active 0x30000000#32).TakesCommand ∧ (withWord .active 0x30000000#32).cmdIn = 0x30000000#32 :: [] ∧
    (∀ l, decode 0x30000000#32 ≠ .ok (.feed l)) ∧ ∃ t, step (withWord .active 0x30000000#32) = .next t :=
  ⟨⟨rfl, rfl⟩, rfl, fun l => by rw [test_decode_flush]; simp, _, rfl⟩

theorem witness_EveryCommandAnswersInEveryPhase :
    (Instr.feed 3).WellFormed ∧ (sample .active 4 [1#8, 2#8]).Inv ∧ (sample .active 4 [1#8, 2#8]).stage = .ready :=
  ⟨by decide, witness_sample_inv, rfl⟩

/-- A FEED of one byte with that byte there. -/
theorem witness_EveryWordGetsExactlyOneResponse :
    ({ sample .active 4 [1#8, 2#8] with cmdIn := [0x20000001#32], dataIn := [3#8] } : State).Inv ∧
    ({ sample .active 4 [1#8, 2#8] with cmdIn := [0x20000001#32], dataIn := [3#8] } : State).TakesCommand ∧
    ({ sample .active 4 [1#8, 2#8] with cmdIn := [0x20000001#32], dataIn := [3#8] } : State).ConsumerReady ∧
    (∀ l, decode 0x20000001#32 = .ok (.feed l) → l ≤ [3#8].length) := by
  refine ⟨witness_sample_inv, ⟨rfl, rfl⟩, ⟨rfl, rfl⟩, fun l h => ?_⟩
  rw [show decode 0x20000001#32 = .ok (.feed 1) by decide] at h
  cases h
  decide

/-- InitFollowsItsPseudocode, clause by clause: B just outside its range and at both ends of it. -/
theorem witness_InitFollowsItsPseudocode :
    (sample .error 4 []).phase = .error ∧ (sample .active 4 []).phase = .active ∧ (sample .flushed 4 []).phase = .flushed ∧
    (sample .idle 0 []).phase = .idle ∧ (0 : Nat) = 0 ∧ (65 ≠ 0 ∧ (sample .idle 0 []).bMax < 65) ∧
    (1 ≠ 0 ∧ 1 ≤ (sample .idle 0 []).bMax) ∧ (64 ≠ 0 ∧ 64 ≤ (sample .idle 0 []).bMax) := by decide

theorem witness_InitFrame :
    (∃ t, exec (.init 4) (sample .idle 0 []) = .next t) ∧ ∃ t, exec (.init 0) (sample .idle 0 []) = .next t :=
  ⟨⟨_, rfl⟩, ⟨_, rfl⟩⟩

/-- FeedAgreesWithFeedSpec, with a consumer that lets exactly the two blocks through. -/
theorem witness_FeedAgreesWithFeedSpec :
    ({ sample .active 2 [1#8, 2#8] with dataIn := [3#8, 4#8, 5#8], dataRoom := .upTo 4 } : State).FeedReady
      [3#8, 4#8, 5#8] [] ∧
    (Room.upTo 4).grant (feedSpec 2 [1#8, 2#8] [3#8, 4#8, 5#8]).1.flatten.length =
      (feedSpec 2 [1#8, 2#8] [3#8, 4#8, 5#8]).1.flatten.length := by
  unfold State.FeedReady
  decide

/-- FeedBlockCountIsTheClosedForm: no byte on an empty carry, and three bytes on a full one after T = 2 or 8. -/
theorem witness_FeedBlockCountIsTheClosedForm :
    (({ sample .active 4 [] with dataIn := [9#8] } : State).FeedReady [] [9#8] ∧
      (sample .active 4 []).dataRoom = .unlimited ∧ carryAfter 4 0 = 0) ∧
    (({ sample .active 2 [1#8, 2#8] with dataIn := [3#8, 4#8, 5#8] } : State).FeedReady [3#8, 4#8, 5#8] [] ∧
      (sample .active 2 [1#8, 2#8]).dataRoom = .unlimited ∧ carryAfter 2 2 = 2 ∧ carryAfter 2 8 = 2) := by
  unfold State.FeedReady
  decide

theorem witness_EmptyFeedLeavesTheSession : (sample .active 2 [1#8, 2#8]).phase = .active := rfl

/-- AbsorbTakesOneByte: a full carry of the least block, and a partial one. -/
theorem witness_AbsorbTakesOneByte :
    ((sample .active 1 [7#8]).sent = 0 ∧ 1 ≤ (sample .active 1 [7#8]).blockSize ∧
      (sample .active 1 [7#8]).dataRoom.grant 1 = 1 ∧ (sample .active 1 [7#8]).clen = (sample .active 1 [7#8]).blockSize) ∧
    ((sample .active 2 [7#8]).sent = 0 ∧ 1 ≤ (sample .active 2 [7#8]).blockSize ∧
      (sample .active 2 [7#8]).dataRoom.grant 2 = 2 ∧ (sample .active 2 [7#8]).clen < (sample .active 2 [7#8]).blockSize) := by
  decide

/-- FullCarryIsHeldBack: the chunk that just fills the carry, and the byte after it. -/
theorem witness_FullCarryIsHeldBack :
    (({ sample .active 2 [1#8] with dataIn := [2#8] } : State).FeedReady [2#8] [] ∧ 1 + [2#8].length ≤ 2) ∧
    (({ sample .active 2 [1#8, 2#8] with dataIn := [3#8] } : State).FeedReady [3#8] [] ∧
      (sample .active 2 [1#8, 2#8]).clen = (sample .active 2 [1#8, 2#8]).blockSize ∧
      (sample .active 2 [1#8, 2#8]).dataRoom.grant 2 = 2) := by
  unfold State.FeedReady
  decide

/-- RejectedFeedDrainsItsPayload: exactly enough bytes, and one too few. -/
theorem witness_RejectedFeedDrainsItsPayload :
    (sample .idle 0 []).phase ≠ .active ∧ (sample .flushed 4 []).phase ≠ .active ∧ (sample .error 4 []).phase ≠ .active ∧
    2 ≤ ({ sample .flushed 4 [] with dataIn := [1#8, 2#8] } : State).dataIn.length ∧
    ({ sample .flushed 4 [] with dataIn := [1#8, 2#8] } : State).dataIn.length < 3 := by decide

/-- ShortPayloadLeavesTheChunkerStuck: in ACTIVE, one byte too few. -/
theorem witness_ShortPayloadLeavesTheChunkerStuck :
    ({ sample .active 4 [1#8] with dataIn := [2#8] } : State).dataIn.length < 2 ∧
    (sample .active 4 [1#8]).dataRoom = .unlimited ∧ (sample .active 4 [1#8]).phase = .active ∧
    1 ≤ (sample .active 4 [1#8]).blockSize ∧ (sample .active 4 [1#8]).clen ≤ (sample .active 4 [1#8]).blockSize := by decide

/-- PayloadInPartsEndsAsOneFeed: a FEED of 3 that has 1 byte waits in DataIn. -/
theorem witness_PayloadInPartsEndsAsOneFeed :
    (sample .active 4 []).schedule = [] ∧
    ∃ t, exec (.feed 3) { sample .active 4 [] with dataIn := [1#8] } = .next t ∧ t.stage = .payload := ⟨rfl, _, rfl, rfl⟩

/-- HeldBackFeedEndsAsAnUnhinderedOne: a FEED that waits in the Emit of its second block, one byte of it placed. -/
theorem witness_HeldBackFeedEndsAsAnUnhinderedOne :
    (sample .active 2 []).schedule = [] ∧
    ∃ t, exec (.feed 5) { sample .active 2 [] with
        dataIn := [1#8, 2#8, 3#8, 4#8, 5#8], dataRoom := .upTo 3 } = .next t ∧ t.stage = .absorbEmit 5#8 :=
  ⟨rfl, _, rfl, rfl⟩

theorem witness_FeedFrame :
    (∃ t, exec (.feed 1) { sample .active 2 [1#8] with dataIn := [2#8] } = .next t) ∧
    ∃ t, exec (.feed 1) { sample .idle 0 [] with dataIn := [2#8] } = .next t := ⟨⟨_, rfl⟩, ⟨_, rfl⟩⟩

/-- FlushFollowsItsPseudocode: each phase; in ACTIVE an empty carry and a full one, with just enough room. -/
theorem witness_FlushFollowsItsPseudocode :
    (sample .error 4 []).phase = .error ∧ (sample .idle 0 []).phase = .idle ∧ (sample .flushed 4 []).phase = .flushed ∧
    (sample .active 2 []).clen ≤ (sample .active 2 []).blockSize ∧ (Room.upTo 0).grant (sample .active 2 []).clen = 0 ∧
    (sample .active 2 [1#8, 2#8]).clen ≤ (sample .active 2 [1#8, 2#8]).blockSize ∧
    (Room.upTo 2).grant (sample .active 2 [1#8, 2#8]).clen = 2 := by decide

/-- HeldBackFlushWaitsAndResumes: room for one byte fewer than the tail, and for none. -/
theorem witness_HeldBackFlushWaitsAndResumes :
    (sample .active 2 [1#8, 2#8]).phase = .active ∧
    (sample .active 2 [1#8, 2#8]).clen ≤ (sample .active 2 [1#8, 2#8]).blockSize ∧
    1 < (sample .active 2 [1#8, 2#8]).clen ∧ 0 < (sample .active 2 [1#8, 2#8]).clen ∧
    ({ sample .active 2 [1#8, 2#8] with dataRoom := .upTo 1 } : State).dataRoom = .upTo 1 ∧
    (sample .active 2 [1#8, 2#8]).schedule = [] := by decide

theorem witness_FlushFrame :
    (∃ t, exec .flush (sample .active 2 [1#8]) = .next t) ∧ ∃ t, exec .flush (sample .idle 0 []) = .next t :=
  ⟨⟨_, rfl⟩, ⟨_, rfl⟩⟩

/-- TerminatedSessionRejectsEveryCommand: each command's word, a FEED with its payload there. -/
theorem witness_TerminatedSessionRejectsEveryCommand :
    (withWord .error 0x10000008#32).TakesCommand ∧ (withWord .error 0x10000008#32).phase = .error ∧
    decode 0x10000008#32 = .ok (.init 8) ∧ decode 0x30000000#32 = .ok .flush ∧
    decode 0x20000001#32 = .ok (.feed 1) ∧
    1 ≤ ({ withWord .error 0x20000001#32 with dataIn := [0xFF#8] } : State).dataIn.length :=
  ⟨⟨rfl, rfl⟩, rfl, by decide, by decide, by decide, by decide⟩

theorem witness_OnlyResetLeavesError :
    (sample .error 4 []).Inv ∧ (sample .error 4 []).phase = .error ∧ ∃ t, step (sample .error 4 []) = .next t :=
  ⟨witness_other_phases_inv.2.2, rfl, _, rfl⟩

/-- PhaseChangesOnlyAsSpecified, StepKeepsTheInvariant and CarriedBytesAreNotRead: a step from a state of the invariant. -/
theorem witness_step_of_the_invariant :
    ({ sample .active 4 [1#8, 2#8] with cmdIn := [0x30000000#32] } : State).Inv ∧
    ∃ t, step { sample .active 4 [1#8, 2#8] with cmdIn := [0x30000000#32] } = .next t :=
  ⟨witness_sample_inv, _, rfl⟩

theorem witness_BlockSizeIsFixedForTheSession :
    ∃ t, step (withWord .idle 0x10000004#32) = .next t := ⟨_, rfl⟩

/-- ChunkerKeepsChannelOrder and ResponseComesAfterAllOutput: a turn that places output and a response. -/
theorem witness_turn :
    ({ sample .active 4 [1#8, 2#8] with cmdIn := [0x30000000#32] } : State).Inv ∧
    ∃ t, chunkerTurn { sample .active 4 [1#8, 2#8] with cmdIn := [0x30000000#32] } = .next t ∧ t.rspOut ≠ [] :=
  ⟨witness_sample_inv, _, rfl, by decide⟩

/-- ResponseComesAfterAllOutput: a turn that resumes a command. -/
theorem witness_resumed_turn :
    ∃ t, chunkerTurn { sample .flushed 2 [] with stage := .respond 0#32 } = .next t := ⟨_, rfl⟩

/-- WaitsKeepTheWholeState: each wait; the invariant holds by the theorems above. -/
theorem witness_WaitsKeepTheWholeState :
    ((sample .active 4 [1#8, 2#8]).Inv ∧ (sample .active 4 [1#8, 2#8]).schedule = [] ∧
      (sample .active 4 [1#8, 2#8]).cmdIn = []) ∧
    (∃ s : State, s.Inv ∧ s.schedule = [] ∧ s.stage = .payload ∧ s.dataIn = []) ∧
    (∃ s : State, s.Inv ∧ s.schedule = [] ∧ s.stage = .absorbEmit 3#8 ∧ s.dataRoom = .upTo 0) ∧
    (∃ s : State, s.Inv ∧ s.schedule = [] ∧ s.stage = .flushEmit ∧ s.dataRoom = .upTo 0) ∧
    (∃ s : State, s.Inv ∧ s.schedule = [] ∧ s.stage = .respond 0#32 ∧ s.rspRoom = .upTo 0) :=
  ⟨⟨witness_sample_inv, rfl, rfl⟩, ⟨_, witness_payload_inv, rfl, rfl, rfl⟩,
    ⟨_, witness_absorb_emit_inv, rfl, rfl, rfl⟩, ⟨_, witness_flush_emit_inv, rfl, rfl, rfl⟩,
    ⟨_, witness_respond_inv, rfl, rfl, rfl⟩⟩

theorem witness_HostAndConsumerMoveTheChannels :
    ({ sample .active 4 [] with schedule := [.hostWord 1#32] } : State).schedule = .hostWord 1#32 :: [] ∧
    ({ sample .active 4 [] with schedule := [.hostByte 1#8] } : State).schedule = .hostByte 1#8 :: [] ∧
    (({ sample .active 4 [] with schedule := [.acceptByte], dataOut := [1#8] } : State).schedule = .acceptByte :: [] ∧
      ({ sample .active 4 [] with schedule := [.acceptByte], dataOut := [1#8] } : State).dataOut = 1#8 :: []) ∧
    (({ sample .active 4 [] with schedule := [.acceptWord], rspOut := [1#32] } : State).schedule = .acceptWord :: [] ∧
      ({ sample .active 4 [] with schedule := [.acceptWord], rspOut := [1#32] } : State).rspOut = 1#32 :: []) :=
  ⟨rfl, rfl, ⟨rfl, rfl⟩, ⟨rfl, rfl⟩⟩

theorem witness_SecondHostIsRefused :
    ({ sample .active 4 [] with schedule := [.secondHost] } : State).schedule = .secondHost :: [] := rfl

theorem witness_InvariantRunsNeverFault : (sample .active 4 [1#8, 2#8]).Inv := witness_sample_inv

/-- SessionCountsFollowTheTotal, SessionReturnsTheBytesFed and TailLengthFollowsTheTotal: B at both ends of its range, no
chunk, an empty chunk, and a total that is a multiple of B. -/
theorem witness_sessions :
    (sample .idle 0 []).phase = .idle ∧ 1 ≤ 1 ∧ 1 ≤ (sample .idle 0 []).bMax ∧ 1 ≤ 64 ∧ 64 ≤ (sample .idle 0 []).bMax ∧
    (sample .idle 0 []).bMax ≤ 2 ^ 28 - 1 ∧ (sample .idle 0 []).dataRoom = .unlimited ∧
    (sample .idle 0 []).rspRoom = .unlimited ∧ (∀ x ∈ ([] : List (List Byte)), x.length < 2 ^ 28) ∧
    (∀ x ∈ [[], [1#8, 2#8], [3#8]], x.length < 2 ^ 28) ∧
    ([[], [1#8, 2#8], [3#8]] : List (List Byte)).flatten.length = 3 * 1 := by decide

theorem witness_ChunkBoundariesDoNotMatter :
    (sample .active 2 [1#8, 2#8]).phase = .active ∧ 1 ≤ (sample .active 2 [1#8, 2#8]).blockSize ∧
    (sample .active 2 [1#8, 2#8]).clen ≤ (sample .active 2 [1#8, 2#8]).blockSize ∧
    (sample .active 2 [1#8, 2#8]).dataRoom = .unlimited ∧ (sample .active 2 [1#8, 2#8]).rspRoom = .unlimited ∧
    (∀ x ∈ [[], [1#8, 2#8], [3#8]], x.length < 2 ^ 28) ∧ (∀ x ∈ [[1#8], [2#8, 3#8]], x.length < 2 ^ 28) ∧
    ([[], [1#8, 2#8], [3#8]] : List (List Byte)).flatten = [[1#8], [2#8, 3#8]].flatten := by decide

/-- FeedlSplitsIntoLargestChunks: the shortest chunk that is split, and the longest that is not. -/
theorem witness_FeedlSplitsIntoLargestChunks :
    2 ^ 28 ≤ (List.replicate (2 ^ 28) (0#8)).length ∧ (List.replicate (2 ^ 28 - 1) (0#8)).length < 2 ^ 28 := by
  rw [List.length_replicate, List.length_replicate]
  decide

/-- Sha1PaddedTailIsOneOrTwoBlocks: the tails of V6. -/
theorem witness_Sha1PaddedTailIsOneOrTwoBlocks :
    (List.replicate 55 (0#8)).length ≤ 64 ∧ (List.replicate 56 (0#8)).length ≤ 64 ∧
    (List.replicate 64 (0#8)).length ≤ 64 := by decide

/-- ClientChecksItsBlockSizeBeforeInit: on each side of XXTEA's least block size, and the SHA-1 session of `State.reset`. -/
theorem witness_ClientChecksItsBlockSizeBeforeInit :
    State.reset.ConsumerReady ∧ State.reset.bMax ≤ 2 ^ 28 - 1 ∧
    (Client.xxteaEncrypt 7).configLegal = false ∧ (Client.ofb 4 (.xxtea 4)).configLegal = false ∧
    (Client.xxteaEncrypt 8).configLegal = true ∧ Client.sha1.configLegal = true ∧ 1 ≤ Client.sha1.blockSize ∧
    Client.sha1.blockSize ≤ State.reset.bMax :=
  ⟨⟨rfl, rfl⟩, by decide⟩

/-- Sha1SessionCompressesThePaddedMessage: the least `B_MAX` that holds a SHA-1 block. -/
theorem witness_Sha1SessionCompressesThePaddedMessage : State.reset.ConsumerReady ∧ State.reset.bMax ≤ 2 ^ 28 - 1 ∧ 64 ≤ State.reset.bMax :=
  ⟨⟨rfl, rfl⟩, by decide, by decide⟩

/-- OfbSessionXorsTheKeystream: XXTEA's least block, and a transform that keeps lengths. -/
theorem witness_OfbSessionXorsTheKeystream :
    State.reset.ConsumerReady ∧ State.reset.bMax ≤ 2 ^ 28 - 1 ∧ 1 ≤ (List.replicate 8 (0#8)).length ∧ (List.replicate 8 (0#8)).length ≤ State.reset.bMax ∧
    (Client.ofb (List.replicate 8 (0#8)).length (.xxtea 8)).configLegal = true ∧
    ∀ p : List Byte, p.length = (List.replicate 8 (0#8)).length →
      (p.map (fun b => b + 1#8)).length = (List.replicate 8 (0#8)).length :=
  ⟨⟨rfl, rfl⟩, by decide, by decide, by decide, by decide, fun p h => by rw [List.length_map]; exact h⟩

/-- XxteaEncryptOutputsTheCeilingOfBlocks: the least block size. -/
theorem witness_XxteaEncryptOutputsTheCeilingOfBlocks :
    State.reset.ConsumerReady ∧ State.reset.bMax ≤ 2 ^ 28 - 1 ∧ (Client.xxteaEncrypt 8).configLegal = true ∧ 8 ≤ State.reset.bMax :=
  ⟨⟨rfl, rfl⟩, by decide, by decide, by decide⟩

/-- XxteaDecryptReturnsTheMessage: the shortest message of two blocks of 8, with a transform that is its own inverse. -/
theorem witness_XxteaDecryptReturnsTheMessage :
    State.reset.ConsumerReady ∧ State.reset.bMax ≤ 2 ^ 28 - 1 ∧ (Client.xxteaEncrypt 8).configLegal = true ∧ 8 ≤ State.reset.bMax ∧
    (∀ p : List Byte, p.length = 8 → p.reverse.length = 8 ∧ p.reverse.reverse = p) ∧
    (fun _ : List Byte => 1) (Vector.replicate 8 (1#8)).toList = ([[7#8]] : List (List Byte)).flatten.length ∧ 8 < 8 + ([[7#8]] : List (List Byte)).flatten.length ∧
    ∃ e f g first blocks last,
      xxteaEncryptStart List.reverse 8 (Vector.replicate 8 1#8) State.reset = .ok (e, first) ∧
      forEachChunk (xxteaEncryptChunk List.reverse) [[7#8]] e = .ok (f, blocks) ∧
      xxteaEncryptFinish List.reverse f = .ok (g, last) ∧
      [List.replicate 8 1#8 ++ [0#8], [], [0#8, 0#8, 0#8, 0#8, 0#8, 0#8, 7#8]].flatten =
        (first ++ blocks ++ [last]).flatten :=
  ⟨⟨rfl, rfl⟩, by decide, by decide, by decide, fun p h => ⟨by rw [List.length_reverse]; exact h, List.reverse_reverse p⟩,
    by decide, by decide, _, _, _, _, _, _, rfl, rfl, rfl, rfl⟩

/-- OnlyTheElementWaitedForEndsAWait: each kind of wait with the move that ends it, and a move that does not. -/
theorem witness_OnlyTheElementWaitedForEndsAWait :
    ((sample .active 4 [1#8, 2#8]).Inv ∧ (sample .active 4 [1#8, 2#8]).Waits ∧
      (Move.hostWord 0#32).Ends (sample .active 4 [1#8, 2#8]) ∧ ¬ (Move.hostByte 0#8).Ends (sample .active 4 [1#8, 2#8])) ∧
    (∃ s : State, s.Inv ∧ s.Waits ∧ s.stage = .payload ∧ (Move.hostByte 0#8).Ends s) ∧
    (∃ s : State, s.Inv ∧ s.Waits ∧ s.stage = .flushEmit ∧ Move.acceptByte.Ends s ∧ ¬ Move.acceptWord.Ends s) ∧
    (∃ s : State, s.Inv ∧ s.Waits ∧ s.stage = .respond 0#32 ∧ Move.acceptWord.Ends s) := by
  refine ⟨⟨witness_sample_inv, rfl, ⟨_, rfl⟩, ?_⟩, ⟨_, witness_payload_inv, rfl, rfl, ⟨_, rfl⟩⟩,
    ⟨{ sample .active 2 [1#8] with stage := .flushEmit, dataRoom := .upTo 0, dataOut := [9#8] }, witness_flush_emit_inv,
      rfl, rfl, ⟨rfl, by decide⟩, ?_⟩,
    ⟨{ sample .flushed 2 [] with stage := .respond 0#32, rspRoom := .upTo 0, rspOut := [1#32] }, witness_respond_inv,
      rfl, rfl, ⟨rfl, by decide⟩⟩⟩
  · rintro ⟨w, hw⟩; cases hw
  · rintro ⟨hm, -⟩; cases hm

/-- AcceptedByteLetsTheNextOneOut: a FEED and a FLUSH that wait in an Emit, each with a byte the consumer can accept. -/
theorem witness_AcceptedByteLetsTheNextOneOut :
    (∃ s : State, s.Inv ∧ s.stage = .flushEmit ∧ s.dataRoom = .upTo 0 ∧ s.dataOut = [9#8] ∧ s.schedule = [.acceptByte]) ∧
    (∃ s : State, s.Inv ∧ s.stage = .absorbEmit 3#8 ∧ s.dataRoom = .upTo 0 ∧ s.dataOut = [1#8] ∧
      s.schedule = [.acceptByte]) :=
  ⟨⟨{ sample .active 2 [1#8] with
      stage := .flushEmit, dataRoom := .upTo 0, dataOut := [9#8], schedule := [.acceptByte] }, witness_flush_emit_inv,
      rfl, rfl, rfl, rfl⟩,
    ⟨{ sample .active 2 [1#8, 2#8] with
      stage := .absorbEmit 3#8, sent := 1, feedArg := 1#28, dataRoom := .upTo 0, dataOut := [1#8]
      schedule := [.acceptByte] }, witness_absorb_emit_inv, rfl, rfl, rfl, rfl⟩⟩

/-- ClientSessionRunsThroughTheCommandCycle: a chunker after reset, and a block size at the top of its range. -/
theorem witness_ClientSessionRunsThroughTheCommandCycle :
    State.reset.TakesCommand ∧ State.reset.ConsumerReady ∧ State.reset.phase = .idle ∧ State.reset.cmdIn = [] ∧
    State.reset.dataIn = [] ∧ 1 ≤ Client.sha1.blockSize ∧ Client.sha1.blockSize ≤ State.reset.bMax ∧
    State.reset.bMax ≤ 2 ^ 28 - 1 := by
  unfold State.TakesCommand State.ConsumerReady
  decide

/-- ClientSessionResetsAnyChunkerFirst: a chunker that an error has terminated, with a FEED waiting and output left. -/
theorem witness_ClientSessionResetsAnyChunkerFirst :
    ({ sample .error 4 [] with stage := .payload, rem := 3, dataOut := [1#8] } : State).ConsumerReady ∧
    (Client.xxteaEncrypt 8).configLegal = true ∧ 1 ≤ (Client.xxteaEncrypt 8).blockSize ∧
    (Client.xxteaEncrypt 8).blockSize ≤ (sample .error 4 []).bMax ∧ (sample .error 4 []).bMax ≤ 2 ^ 28 - 1 :=
  ⟨⟨rfl, rfl⟩, by decide⟩

end Sys2Proof.Tests
end

/-! PROOF. The scope of the chunker (00_scope.md): Respond places its word or waits (R13), no run leaves the carry buffer
(R13), and the chunker does not read the bytes it carries (R7). -/

namespace Sys2Proof.Machine

/-! ## Respond -/

/-- Settles O10, by the three readinesses of the consumer. -/
theorem respondPlacesOrWaits : Obligations.RespondPlacesOrWaits := by
  unfold Obligations.RespondPlacesOrWaits
  intro w s
  refine ⟨fun h => ?_, fun n h => ?_, fun h => ?_⟩
  · rw [respond_placed (by simp [h])]
    simp [h]
  · rw [respond_placed (by simp [h])]
    simp [h]
  · exact respond_waits (by simp [h]) w

/-! ## The invariant along a run -/

/-! What the invariant says of the carry, and at each control point. -/

theorem State.CarryLegal.written {s : State} (h : s.CarryLegal) : ∀ i < s.clen, (s.carry.lookup i).isSome = true :=
  h.2.2

theorem State.CoreLegal.carry {s : State} (h : s.CoreLegal) : s.CarryLegal := h.2.2

theorem State.Inv.carry {s : State} (h : s.Inv) : s.CarryLegal := h.core.carry

theorem State.Inv.stageLegal {s : State} (h : s.Inv) : s.StageLegal := h.2.2.2

theorem State.Inv.at_ready {s : State} (h : s.Inv) (hs : s.stage = .ready) : s.rem = 0 ∧ s.sent = 0 := by
  simpa only [State.StageLegal, hs] using h.stageLegal

theorem State.Inv.at_payload {s : State} (h : s.Inv) (hs : s.stage = .payload) : s.FeedLegal := by
  have hst := h.stageLegal
  simp only [State.StageLegal, hs] at hst
  exact ⟨h.core, hst.2⟩

theorem State.Inv.at_absorbEmit {s : State} {b : Byte} (h : s.Inv) (hs : s.stage = .absorbEmit b) :
    s.phase = .active ∧ s.mode = .absorb ∧ s.clen = s.blockSize ∧ s.blocks + 1 + s.rem ≤ s.feedArg.toNat := by
  have hst := h.stageLegal
  simp only [State.StageLegal, hs] at hst
  obtain ⟨hp, hm, hc, -, hb⟩ := hst
  exact ⟨hp, hm, hc, hb⟩

theorem State.Inv.at_flushEmit {s : State} (h : s.Inv) (hs : s.stage = .flushEmit) :
    s.phase = .active ∧ s.rem = 0 := by
  have hst := h.stageLegal
  simp only [State.StageLegal, hs] at hst
  exact ⟨hst.1, hst.2.1⟩

theorem State.Inv.at_respond {s : State} {w : Word} (h : s.Inv) (hs : s.stage = .respond w) :
    s.rem = 0 ∧ s.sent = 0 := by
  simpa only [State.StageLegal, hs] using h.stageLegal

/-! Each command keeps the invariant and answers a next state. -/

theorem wellFormed_init_iff (b : Nat) : (Instr.init b).WellFormed ↔ b < 2 ^ 28 := decide_eq_true_iff

theorem wellFormed_feed_iff (l : Nat) : (Instr.feed l).WellFormed ↔ l < 2 ^ 28 := decide_eq_true_iff

/-- INIT passes its checks exactly in IDLE with a block size of 1 to `B_MAX` (40_commands.md R80). -/
theorem initError_eq_none_iff (p : Phase) (b bMax : Nat) :
    initError p b bMax = none ↔ p = .idle ∧ 1 ≤ b ∧ b ≤ bMax := by
  have hb : blockSizeError b bMax = none ↔ 1 ≤ b ∧ b ≤ bMax := by
    unfold blockSizeError
    split
    · simp only [reduceCtorEq, false_iff]; omega
    · split
      · simp only [reduceCtorEq, false_iff]; omega
      · simp only [true_iff]; omega
  cases p <;> simp [initError, initPhaseError, hb]

theorem flushPhaseError_eq_none_iff (p : Phase) : flushPhaseError p = none ↔ p = .active := by
  cases p <;> simp [flushPhaseError]

/-- A successful INIT keeps the invariant. -/
theorem configure_inv {s : State} (h : s.CoreLegal) (h0 : s.rem = 0) (h1 : s.sent = 0) {b : Nat} (hb : 1 ≤ b)
    (hle : b ≤ s.bMax) (hw : b < 2 ^ 28) : (configure b s).Inv := by
  refine respond_inv (s := { s with bsize := zext28 b, clen := 0, phase := .active })
    ⟨h.1, ?_, CarryLegal.discard h.carry rfl rfl rfl⟩ h0 h1 _
  simp only [State.PhaseLegal, State.blockSize, zext28_toNat hw]
  exact ⟨hb, hle, Nat.zero_le _⟩

/-- A well-formed command, begun on a legal state with nothing in flight, answers a next state of the invariant. -/
theorem exec_legal {i : Instr} (hi : i.WellFormed) {s : State} (h : s.CoreLegal) (h0 : s.rem = 0) (h1 : s.sent = 0) :
    ∃ t, exec i s = .next t ∧ t.Inv := by
  cases i with
  | init b =>
    simp only [exec, execInit]
    split
    · exact ⟨_, rfl, raiseError_inv h h0 h1 _ _⟩
    · obtain ⟨-, hb, hle⟩ := (initError_eq_none_iff _ _ _).mp ‹_›
      exact ⟨_, rfl, configure_inv h h0 h1 hb hle ((wellFormed_init_iff b).mp hi)⟩
  | feed l =>
    exact takePayload_legal (startFeed_legal h ((wellFormed_feed_iff l).mp hi)) s.dataIn
  | flush =>
    simp only [exec, execFlush]
    split
    · exact ⟨_, rfl, raiseError_inv h h0 h1 _ _⟩
    · exact emitTail_legal (s := { s with sent := 0 }) (h.congr rfl rfl rfl rfl rfl)
        ((flushPhaseError_eq_none_iff _).mp ‹_›) h0

/-- What the decoder answers is well-formed (30_encoding.md R62 to R64). -/
theorem decode_wellFormed {w : Word} {i : Instr} (h : decode w = .ok i) : i.WellFormed := by
  have hlt := (argField w).isLt
  unfold decode at h
  split at h
  · cases h; exact (wellFormed_init_iff _).mpr hlt
  · split at h
    · cases h; exact (wellFormed_feed_iff _).mpr hlt
    · split at h
      · split at h
        · cases h; rfl
        · cases h
      · cases h

theorem runWord_legal {s : State} (h : s.CoreLegal) (h0 : s.rem = 0) (h1 : s.sent = 0) (w : Word) :
    ∃ t, runWord w s = .next t ∧ t.Inv := by
  unfold runWord
  split
  · exact exec_legal (decode_wellFormed ‹_›) h h0 h1
  · exact ⟨_, rfl, raiseError_inv h h0 h1 _ _⟩

/-- A FEED that goes on with the Emit it waited in leaves a legal FEED, or waits in the same Emit again. -/
theorem absorbOnFull_legal {s : State} {b : Byte} (h : s.Inv) (hs : s.stage = .absorbEmit b) :
    (∃ t, absorbOnFull b s = .done t ∧ t.FeedLegal) ∨ (∃ t, absorbOnFull b s = .wait t ∧ t.Inv) := by
  obtain ⟨hact, hm, hfull, hbl⟩ := h.at_absorbEmit hs
  have hph := h.2.1
  simp only [State.PhaseLegal, hact] at hph
  obtain ⟨hb1, hbm, -⟩ := hph
  rcases absorbOnFull_cases b s with ⟨-, -, he⟩ | ⟨hlt, he⟩ | ⟨hz, -⟩
  · refine .inl ⟨_, he, ⟨h.1, ?_, CarryLegal.append h.carry (Nat.zero_le _) (by omega) b rfl rfl rfl⟩,
      rfl, by simp [hm, hact], fun _ => hbl, Nat.le_trans (Nat.le_add_left _ _) hbl⟩
    simpa only [State.PhaseLegal, placeCarry_phase, hact] using ⟨hb1, hbm, hb1⟩
  · exact .inr ⟨_, he, h.1, h.2.1, h.carry, hact, hm, hfull, Nat.lt_of_lt_of_eq hlt hfull.symm, hbl⟩
  · omega

theorem resumeAbsorb_legal {s : State} {b : Byte} (h : s.Inv) (hs : s.stage = .absorbEmit b) :
    ∃ t, resumeAbsorb b s = .next t ∧ t.Inv := by
  rcases absorbOnFull_legal h hs with ⟨t, ht, hl⟩ | ⟨t, ht, hi⟩
  · simp only [resumeAbsorb, ht]
    exact takePayload_legal hl t.dataIn
  · exact ⟨t, by simp only [resumeAbsorb, ht], hi⟩

/-! What the chunker's turn does at each control point (40_commands.md R96, 20_memory.md R55). -/

theorem chunkerTurn_no_word {s : State} (hs : s.stage = .ready) (hc : s.cmdIn = []) : chunkerTurn s = .next s := by
  simp only [chunkerTurn, hs, hc]

theorem chunkerTurn_word {s : State} {w : Word} {ws : List Word} (hs : s.stage = .ready) (hc : s.cmdIn = w :: ws) :
    chunkerTurn s = runWord w { s with cmdIn := ws } := by
  simp only [chunkerTurn, hs, hc]

theorem chunkerTurn_payload {s : State} (hs : s.stage = .payload) : chunkerTurn s = takePayload s.dataIn s := by
  simp only [chunkerTurn, hs]

theorem chunkerTurn_absorbEmit {s : State} {b : Byte} (hs : s.stage = .absorbEmit b) :
    chunkerTurn s = resumeAbsorb b s := by
  simp only [chunkerTurn, hs]

theorem chunkerTurn_flushEmit {s : State} (hs : s.stage = .flushEmit) : chunkerTurn s = emitTail s := by
  simp only [chunkerTurn, hs]

theorem chunkerTurn_respond {s : State} {w : Word} (hs : s.stage = .respond w) :
    chunkerTurn s = .next (respond w s) := by
  simp only [chunkerTurn, hs]

/-- Every turn of the chunker keeps the invariant and answers a next state. -/
theorem chunkerTurn_legal {s : State} (h : s.Inv) : ∃ t, chunkerTurn s = .next t ∧ t.Inv := by
  cases hs : s.stage with
  | ready =>
    obtain ⟨h0, h1⟩ := h.at_ready hs
    cases hc : s.cmdIn with
    | nil => exact ⟨s, chunkerTurn_no_word hs hc, h⟩
    | cons w ws =>
      rw [chunkerTurn_word hs hc]
      exact runWord_legal (s := { s with cmdIn := ws }) (h.core.congr rfl rfl rfl rfl rfl) h0 h1 w
  | payload => exact chunkerTurn_payload hs ▸ takePayload_legal (h.at_payload hs) s.dataIn
  | absorbEmit b => exact chunkerTurn_absorbEmit hs ▸ resumeAbsorb_legal h hs
  | flushEmit =>
    obtain ⟨hact, h0⟩ := h.at_flushEmit hs
    exact chunkerTurn_flushEmit hs ▸ emitTail_legal h.core hact h0
  | respond w =>
    obtain ⟨h0, h1⟩ := h.at_respond hs
    exact ⟨_, chunkerTurn_respond hs, respond_inv h.core h0 h1 w⟩

/-- RESET puts a state of the invariant into the reset state of its build. -/
theorem assertReset_inv {s : State} (h : s.BuildLegal) : (assertReset s).Inv :=
  ⟨h, ⟨rfl, rfl⟩, ⟨rfl, by simp, fun _ hi => absurd hi (Nat.not_lt_zero _)⟩, rfl, rfl⟩

theorem acceptByte_inv {s : State} (h : s.Inv) : (acceptByte s).Inv := by
  rcases acceptByte_cases s with ⟨-, he⟩ | ⟨_, _, -, he⟩
  · rwa [he]
  · rw [he]
    exact h

theorem acceptWord_inv {s : State} (h : s.Inv) : (acceptWord s).Inv := by
  rcases acceptWord_cases s with ⟨-, he⟩ | ⟨_, _, -, he⟩
  · rwa [he]
  · rw [he]
    exact h

/-- A move keeps the invariant, unless it is a second host's, which is refused. -/
theorem makeMove_legal {s : State} (h : s.Inv) (m : Move) :
    (∃ t, makeMove m s = .next t ∧ t.Inv) ∨ makeMove m s = .refused .secondHost := by
  cases m with
  | chunker => exact .inl (chunkerTurn_legal h)
  | hostWord w => exact .inl ⟨_, rfl, h⟩
  | hostByte b => exact .inl ⟨_, rfl, h⟩
  | acceptByte => exact .inl ⟨_, rfl, acceptByte_inv h⟩
  | acceptWord => exact .inl ⟨_, rfl, acceptWord_inv h⟩
  | reset => exact .inl ⟨_, rfl, assertReset_inv h.1⟩
  | secondHost => exact .inr rfl

/-- From a state of the invariant a step leads to a state of the invariant, or refuses a second host; it never faults. -/
theorem step_legal {s : State} (h : s.Inv) :
    (∃ t, step s = .next t ∧ t.Inv) ∨ step s = .refused .secondHost := by
  unfold step
  split
  · exact .inl (chunkerTurn_legal h)
  · next m ms _ => exact makeMove_legal (s := { s with schedule := ms }) h m

/-! Runs of the machine behind the host's interface. -/

theorem run_succ_next {s t : State} (h : step s = .next t) (k : Nat) :
    Host.Core.run Sys2Proof.core (k + 1) s = Host.Core.run Sys2Proof.core k t := by
  simp only [Host.Core.run, show Sys2Proof.core.step s = .next t from h]

theorem run_succ_refused {s : State} {r : Refusal} (h : step s = .refused r) (k : Nat) :
    Host.Core.run Sys2Proof.core (k + 1) s = .refused r := by
  simp only [Host.Core.run, show Sys2Proof.core.step s = .refused r from h]

/-- Settles O39, by induction on the number of steps: each step keeps the invariant or ends the run in a refusal. -/
theorem invariantRunsNeverFault : Obligations.InvariantRunsNeverFault := by
  unfold Obligations.InvariantRunsNeverFault State.NeverFaults
  intro s h k f
  induction k generalizing s with
  | zero => exact nofun
  | succ k ih =>
    rcases step_legal h with ⟨t, ht, hinv⟩ | hr
    · rw [run_succ_next ht]
      exact ih t hinv
    · rw [run_succ_refused hr]
      exact nofun

/-! ## Renaming the carried bytes -/

/-- `f` applied to every written carry cell. -/
def Memory.mapBytes (f : Byte → Byte) (m : Memory) : Memory := m.map fun c => (c.1, f c.2)

/-- The same progress with the carried bytes of its state renamed. -/
def Progress.mapBytes (f : Byte → Byte) : Progress → Progress
  | .done s => .done (s.mapBytes f)
  | .wait s => .wait (s.mapBytes f)
  | .fault e => .fault e

/-- The same outcome with the carried bytes of its next state renamed. -/
def mapOutcome (f : Byte → Byte) : Host.Outcome State Fault Refusal → Host.Outcome State Fault Refusal
  | .next s => .next (s.mapBytes f)
  | .fault e => .fault e
  | .refused r => .refused r

/-- With an Emit held back, the loop ends there; `takePayload_cons` is its other case. -/
theorem takePayload_waits {s t : State} {b : Byte} {bs : List Byte} (h : s.rem ≠ 0)
    (hu : usePayloadByte b { s with dataIn := bs, rem := s.rem - 1 } = .wait t) :
    takePayload (b :: bs) s = .next t := by
  simp only [takePayload, if_neg h, hu]

section
variable (f : Byte → Byte)

/-! The fields of a renamed state. -/

@[simp] theorem mapBytes_phase (s : State) : (s.mapBytes f).phase = s.phase := rfl

@[simp] theorem mapBytes_clen (s : State) : (s.mapBytes f).clen = s.clen := rfl

@[simp] theorem mapBytes_blockSize (s : State) : (s.mapBytes f).blockSize = s.blockSize := rfl

@[simp] theorem mapBytes_rem (s : State) : (s.mapBytes f).rem = s.rem := rfl

@[simp] theorem mapBytes_bMax (s : State) : (s.mapBytes f).bMax = s.bMax := rfl

@[simp] theorem mapBytes_sent (s : State) : (s.mapBytes f).sent = s.sent := rfl

@[simp] theorem mapBytes_dataRoom (s : State) : (s.mapBytes f).dataRoom = s.dataRoom := rfl

@[simp] theorem mapBytes_rspOut (s : State) : (s.mapBytes f).rspOut = s.rspOut := rfl

@[simp] theorem mapBytes_carry (s : State) : (s.mapBytes f).carry = s.carry.mapBytes f := rfl

@[simp] theorem mapBytes_dataIn (s : State) : (s.mapBytes f).dataIn = s.dataIn.map f := rfl

@[simp] theorem mapBytes_dataOut (s : State) : (s.mapBytes f).dataOut = s.dataOut.map f := rfl

theorem mapBytes_stage_eq {s : State} {g : Stage} (h : s.stage = g) : (s.mapBytes f).stage = g.mapBytes f :=
  congrArg (Stage.mapBytes f) h

@[simp] theorem mapBytes_schedule (s : State) :
    (s.mapBytes f).schedule = s.schedule.map (Move.mapBytes f) := rfl

/-! The carry cells. -/

theorem Memory.lookup_mapBytes (m : Memory) (a : Nat) :
    (m.mapBytes f).lookup a = (m.lookup a).map f := by
  induction m with
  | nil => rfl
  | cons c m ih =>
    simp only [Memory.mapBytes, List.map_cons, Memory.lookup] at ih ⊢
    split
    · rfl
    · exact ih

theorem Memory.write_mapBytes (m : Memory) (a : Nat) (b : Byte) :
    (m.write a b).mapBytes f = (m.mapBytes f).write a (f b) := by
  induction m with
  | nil => rfl
  | cons c m ih =>
    simp only [Memory.mapBytes, List.map_cons, Memory.write] at ih ⊢
    split
    · rfl
    · split
      · rfl
      · rw [List.map_cons, ih]

/-- A written cell reads renamed; an unwritten one would read as the same free byte before and after. -/
theorem Memory.cell_mapBytes {m : Memory} {a : Nat} (h : (m.lookup a).isSome = true) :
    (m.mapBytes f).cell a = f (m.cell a) := by
  obtain ⟨b, hb⟩ := Option.isSome_iff_exists.mp h
  simp [Memory.cell, Memory.lookup_mapBytes, hb]

/-- Written cells read renamed, in order. -/
theorem Memory.read_mapBytes {m : Memory} {i n : Nat} (h : ∀ j < i + n, i ≤ j → (m.lookup j).isSome = true) :
    (m.mapBytes f).read i n = (m.read i n).map f := by
  induction n generalizing i with
  | zero => rfl
  | succ n ih =>
    rw [Memory.read, Memory.read, List.map_cons, Memory.cell_mapBytes f (h i (by omega) (Nat.le_refl i)),
      ih fun j hj hij => h j (by omega) (by omega)]

/-! Emit, Absorb and Respond. -/

theorem respond_mapBytes (w : Word) (s : State) : respond w (s.mapBytes f) = (respond w s).mapBytes f := by
  by_cases h : s.rspRoom.grant 1 = 1
  · rw [respond_placed h, respond_placed (s := s.mapBytes f) h]
    rfl
  · rw [respond_waits h, respond_waits (s := s.mapBytes f) h]
    rfl

theorem raiseError_mapBytes (e : ErrorCode) (info : Arg) (s : State) :
    raiseError e info (s.mapBytes f) = (raiseError e info s).mapBytes f :=
  respond_mapBytes f _ { s with phase := .error, clen := 0 }

theorem configure_mapBytes (b : Nat) (s : State) : configure b (s.mapBytes f) = (configure b s).mapBytes f :=
  respond_mapBytes f _ { s with bsize := zext28 b, clen := 0, phase := .active }

/-- The bytes an Emit places are renamed, when every cell it may read has been written. -/
theorem placeCarry_mapBytes {n : Nat} {s : State} (h : ∀ i < n, (s.carry.lookup i).isSome = true) :
    placeCarry n (s.mapBytes f) = (placeCarry n s).mapBytes f := by
  have hle := s.dataRoom.grant_le (n - s.sent)
  have hread := Memory.read_mapBytes f (m := s.carry) (i := s.sent) (n := s.dataRoom.grant (n - s.sent))
    fun j hj hij => h j (by omega)
  simp only [placeCarry, mapBytes_carry, mapBytes_sent, mapBytes_dataRoom, mapBytes_dataOut, hread, ← List.map_append]
  rfl

theorem emitCarry_mapBytes {n : Nat} {s : State} (h : ∀ i < n, (s.carry.lookup i).isSome = true) :
    emitCarry n (s.mapBytes f) = (emitCarry n s).mapBytes f := by
  simp only [emitCarry, mapBytes_blockSize, placeCarry_mapBytes f h, mapBytes_sent]
  split
  · rfl
  · split <;> rfl

theorem appendCarry_mapBytes (b : Byte) (s : State) :
    appendCarry (f b) (s.mapBytes f) = (appendCarry b s).mapBytes f := by
  simp only [appendCarry, mapBytes_blockSize, mapBytes_clen, mapBytes_carry, ← Memory.write_mapBytes]
  split <;> rfl

theorem absorbOnFull_mapBytes (b : Byte) {s : State} (h : ∀ i < s.blockSize, (s.carry.lookup i).isSome = true) :
    absorbOnFull (f b) (s.mapBytes f) = (absorbOnFull b s).mapBytes f := by
  simp only [absorbOnFull, mapBytes_blockSize, emitCarry_mapBytes f h]
  cases emitCarry s.blockSize s with
  | done t => exact appendCarry_mapBytes f b { t with clen := 0, blocks := t.blocks + 1 }
  | wait t => rfl
  | fault e => rfl

theorem absorb_mapBytes (b : Byte) {s : State} (h : s.CarryLegal) :
    absorb (f b) (s.mapBytes f) = (absorb b s).mapBytes f := by
  by_cases hfull : s.clen = s.blockSize
  · rw [absorb, absorb, if_pos hfull, if_pos (by exact hfull)]
    exact absorbOnFull_mapBytes f b (hfull ▸ h.written)
  · rw [absorb, absorb, if_neg hfull, if_neg (by exact hfull)]
    exact appendCarry_mapBytes f b s

theorem usePayloadByte_mapBytes (b : Byte) {s : State} (h : s.CarryLegal) :
    usePayloadByte (f b) (s.mapBytes f) = (usePayloadByte b s).mapBytes f := by
  rcases (by cases s.mode <;> simp : s.mode = .drain ∨ s.mode = .absorb) with hm | hm
  · rw [usePayloadByte_drain hm, usePayloadByte_drain (s := s.mapBytes f) hm]
    rfl
  · rw [usePayloadByte_absorb hm, usePayloadByte_absorb (s := s.mapBytes f) hm]
    exact absorb_mapBytes f b h

/-! The commands. -/

theorem finishFeed_mapBytes (s : State) : finishFeed (s.mapBytes f) = (finishFeed s).mapBytes f := by
  simp only [finishFeed, mapBytes_phase]
  split
  · exact respond_mapBytes f _ s
  · exact raiseError_mapBytes f _ _ s

theorem startFeed_mapBytes (l : Nat) (s : State) : startFeed l (s.mapBytes f) = (startFeed l s).mapBytes f := by
  simp only [startFeed, mapBytes_phase]
  split <;> rfl

theorem takePayload_finished_mapBytes {s : State} (h : s.rem = 0) (bs : List Byte) :
    takePayload (bs.map f) (s.mapBytes f) = mapOutcome f (takePayload bs s) := by
  rw [takePayload_finished h, takePayload_finished (s := s.mapBytes f) h]
  exact congrArg _ (finishFeed_mapBytes f { s with dataIn := bs })

/-- The payload loop of a legal FEED on renamed bytes: each byte leaves a legal FEED, whose cells below CLEN are
written. -/
theorem takePayload_mapBytes {s : State} (h : s.FeedLegal) (bs : List Byte) :
    takePayload (bs.map f) (s.mapBytes f) = mapOutcome f (takePayload bs s) := by
  induction bs generalizing s with
  | nil =>
    by_cases h0 : s.rem = 0
    · exact takePayload_finished_mapBytes f h0 []
    · rw [List.map_nil, takePayload, takePayload, if_neg h0, if_neg (by exact h0)]
      rfl
  | cons b bs ih =>
    by_cases h0 : s.rem = 0
    · exact takePayload_finished_mapBytes f h0 (b :: bs)
    · have hu := usePayloadByte_mapBytes f b (s := { s with dataIn := bs, rem := s.rem - 1 }) h.1.carry
      rcases usePayloadByte_legal h h0 b bs with ⟨t, ht, hl⟩ | ⟨t, ht, -, -⟩
      · rw [ht] at hu
        rw [takePayload_cons h0 ht, List.map_cons, takePayload_cons (s := s.mapBytes f) h0 hu]
        exact ih hl
      · rw [ht] at hu
        rw [takePayload_waits h0 ht, List.map_cons, takePayload_waits (s := s.mapBytes f) h0 hu]
        rfl

theorem resumeAbsorb_mapBytes {s : State} {b : Byte} (h : s.Inv) (hs : s.stage = .absorbEmit b) :
    resumeAbsorb (f b) (s.mapBytes f) = mapOutcome f (resumeAbsorb b s) := by
  obtain ⟨-, -, hfull, -⟩ := h.at_absorbEmit hs
  simp only [resumeAbsorb, absorbOnFull_mapBytes f b (hfull ▸ h.carry.written)]
  rcases absorbOnFull_legal h hs with ⟨t, ht, hl⟩ | ⟨t, ht, -⟩
  · simp only [ht, Progress.mapBytes]
    exact takePayload_mapBytes f hl t.dataIn
  · simp only [ht, Progress.mapBytes, mapOutcome]

theorem emitTail_mapBytes {s : State} (h : s.CarryLegal) :
    emitTail (s.mapBytes f) = mapOutcome f (emitTail s) := by
  simp only [emitTail, mapBytes_clen, emitCarry_mapBytes f h.written]
  cases emitCarry s.clen s with
  | done t => exact congrArg _ (respond_mapBytes f _ { t with clen := 0, phase := .flushed })
  | wait t => rfl
  | fault e => rfl

theorem exec_mapBytes {i : Instr} (hi : i.WellFormed) {s : State} (h : s.CoreLegal) :
    exec i (s.mapBytes f) = mapOutcome f (exec i s) := by
  cases i with
  | init b =>
    simp only [exec, execInit, mapBytes_phase, mapBytes_bMax]
    split
    · exact congrArg _ (raiseError_mapBytes f _ _ s)
    · exact congrArg _ (configure_mapBytes f b s)
  | feed l =>
    simp only [exec, execFeed, startFeed_mapBytes, mapBytes_dataIn]
    exact takePayload_mapBytes f (startFeed_legal h ((wellFormed_feed_iff l).mp hi)) s.dataIn
  | flush =>
    simp only [exec, execFlush, mapBytes_phase]
    split
    · exact congrArg _ (raiseError_mapBytes f _ _ s)
    · exact emitTail_mapBytes f (s := { s with sent := 0 }) h.carry

theorem runWord_mapBytes (w : Word) {s : State} (h : s.CoreLegal) :
    runWord w (s.mapBytes f) = mapOutcome f (runWord w s) := by
  unfold runWord
  split
  · exact exec_mapBytes f (decode_wellFormed ‹_›) h
  · exact congrArg _ (raiseError_mapBytes f _ _ s)

theorem chunkerTurn_mapBytes {s : State} (h : s.Inv) :
    chunkerTurn (s.mapBytes f) = mapOutcome f (chunkerTurn s) := by
  cases hs : s.stage with
  | ready =>
    cases hc : s.cmdIn with
    | nil =>
      rw [chunkerTurn_no_word hs hc, chunkerTurn_no_word (s := s.mapBytes f) (mapBytes_stage_eq f hs) hc]
      rfl
    | cons w ws =>
      rw [chunkerTurn_word hs hc, chunkerTurn_word (s := s.mapBytes f) (mapBytes_stage_eq f hs) hc]
      exact runWord_mapBytes f w (s := { s with cmdIn := ws }) (h.core.congr rfl rfl rfl rfl rfl)
  | payload =>
    rw [chunkerTurn_payload hs, chunkerTurn_payload (mapBytes_stage_eq f hs)]
    exact takePayload_mapBytes f (h.at_payload hs) s.dataIn
  | absorbEmit b =>
    rw [chunkerTurn_absorbEmit hs, chunkerTurn_absorbEmit (mapBytes_stage_eq f hs)]
    exact resumeAbsorb_mapBytes f h hs
  | flushEmit =>
    rw [chunkerTurn_flushEmit hs, chunkerTurn_flushEmit (mapBytes_stage_eq f hs)]
    exact emitTail_mapBytes f h.carry
  | respond w =>
    rw [chunkerTurn_respond hs, chunkerTurn_respond (mapBytes_stage_eq f hs)]
    exact congrArg _ (respond_mapBytes f w s)

/-! The moves of the other agents. -/

theorem acceptByte_mapBytes (s : State) : acceptByte (s.mapBytes f) = (acceptByte s).mapBytes f := by
  unfold acceptByte
  rw [mapBytes_dataOut]
  cases s.dataOut <;> rfl

theorem acceptWord_mapBytes (s : State) : acceptWord (s.mapBytes f) = (acceptWord s).mapBytes f := by
  unfold acceptWord
  rw [mapBytes_rspOut]
  cases s.rspOut <;> rfl

theorem assertReset_mapBytes (s : State) : assertReset (s.mapBytes f) = (assertReset s).mapBytes f := by
  unfold assertReset
  rw [mapBytes_dataOut, List.length_map]
  rfl

theorem hostByte_mapBytes (b : Byte) (s : State) :
    { s.mapBytes f with dataIn := (s.mapBytes f).dataIn ++ [f b] } =
      ({ s with dataIn := s.dataIn ++ [b] } : State).mapBytes f := by
  simp [State.mapBytes]

theorem makeMove_mapBytes (m : Move) {s : State} (h : s.Inv) :
    makeMove (m.mapBytes f) (s.mapBytes f) = mapOutcome f (makeMove m s) := by
  cases m with
  | chunker => exact chunkerTurn_mapBytes f h
  | hostWord w => rfl
  | hostByte b => exact congrArg _ (hostByte_mapBytes f b s)
  | acceptByte => exact congrArg _ (acceptByte_mapBytes f s)
  | acceptWord => exact congrArg _ (acceptWord_mapBytes f s)
  | reset => exact congrArg _ (assertReset_mapBytes f s)
  | secondHost => rfl

/-- A step from a state of the invariant commutes with renaming the carried bytes, whatever its outcome. -/
theorem step_mapBytes {s : State} (h : s.Inv) : step (s.mapBytes f) = mapOutcome f (step s) := by
  unfold step
  rw [mapBytes_schedule]
  cases s.schedule with
  | nil => exact chunkerTurn_mapBytes f h
  | cons m ms => exact makeMove_mapBytes f m (s := { s with schedule := ms }) h

end

/-- Settles O44: renaming commutes with every step, since the cells the chunker reads have been written. -/
theorem carriedBytesAreNotRead : Obligations.CarriedBytesAreNotRead := by
  unfold Obligations.CarriedBytesAreNotRead
  intro f s t h ht
  rw [step_mapBytes f h, ht, mapOutcome]

end Sys2Proof.Machine

/-! PROOF. The state of the chunker (10_state.md): reset meets the invariant and every step keeps it (R26, R33), what a
turn does to the session's registers (R22, R23) and to the channels (R32), and a FEED whose payload arrives in two parts
(R31). -/

namespace Sys2Proof.Machine

/-! ## The invariant at reset and along a step -/

/-- Settles O38: a step from the invariant leads to it, or refuses a second host and has no next state. -/
theorem stepKeepsTheInvariant : Obligations.StepKeepsTheInvariant := by
  unfold Obligations.StepKeepsTheInvariant
  intro s t h ht
  rcases step_legal h with ⟨u, hu, hinv⟩ | hr
  · exact Host.Outcome.next.inj (hu.symm.trans ht) ▸ hinv
  · exact nomatch hr.symm.trans ht

/-- The reset state of a legal build meets the invariant, as the RESET input's state does: RESET leaves it as it is. -/
theorem resetFor_inv {n : Nat} (h1 : Config.bMaxLeast ≤ n) (h2 : n ≤ Config.bMaxGreatest) :
    (State.resetFor n).Inv :=
  assertReset_inv (s := State.resetFor n) ⟨h1, h2⟩

/-- Settles O2: 64 is itself a legal `B_MAX`. -/
theorem resetMeetsTheInvariant : Obligations.ResetMeetsTheInvariant := by
  unfold Obligations.ResetMeetsTheInvariant
  exact ⟨resetFor_inv (by decide) (by decide), fun n h1 h2 => resetFor_inv h1 h2⟩

/-- Settles O1: the values of `State.resetFor`, field by field. -/
theorem resetLeavesTheSpecifiedValues : Obligations.ResetLeavesTheSpecifiedValues := by
  unfold Obligations.ResetLeavesTheSpecifiedValues
  exact ⟨⟨Config.bMaxAtReset, rfl⟩, fun n => ⟨rfl, rfl, rfl, rfl, rfl, rfl, rfl, rfl, rfl, rfl⟩⟩

/-! ## Whose move a step is -/

theorem step_no_move {s : State} (h : s.schedule = []) : step s = chunkerTurn s := by
  simp only [step, h]

theorem step_move {s : State} {m : Move} {ms : List Move} (h : s.schedule = m :: ms) :
    step s = makeMove m { s with schedule := ms } := by
  simp only [step, h]

theorem acceptByte_cons {s : State} {b : Byte} {bs : List Byte} (h : s.dataOut = b :: bs) :
    acceptByte s = { s with dataOut := bs, dataRoom := s.dataRoom.regain 1 } := by
  simp only [acceptByte, h]

theorem acceptWord_cons {s : State} {w : Word} {ws : List Word} (h : s.rspOut = w :: ws) :
    acceptWord s = { s with rspOut := ws, rspRoom := s.rspRoom.regain 1 } := by
  simp only [acceptWord, h]

/-- Settles O36, move by move. -/
theorem hostAndConsumerMoveTheChannels : Obligations.HostAndConsumerMoveTheChannels := by
  unfold Obligations.HostAndConsumerMoveTheChannels
  intro s ms
  refine ⟨fun w h => ?_, fun b h => ?_, fun b bs h hd => ?_, fun w ws h hr => ?_⟩
  · rw [step_move h]
    rfl
  · rw [step_move h]
    rfl
  · rw [step_move h]
    exact congrArg _ (acceptByte_cons (s := { s with schedule := ms }) hd)
  · rw [step_move h]
    exact congrArg _ (acceptWord_cons (s := { s with schedule := ms }) hr)

/-! ## What a turn of the chunker does to the session and to the channels -/

/-- The PHASE `p`, BSIZE `b` and CLEN `c` that a turn from `s` may leave (10_state.md R22, R23). Only FLUSH's Emit leads
to FLUSHED; it begins in ACTIVE, and is resumed at `flushEmit`. -/
inductive State.SessionTo (s : State) (p : Phase) (b : BitVec 28) (c : Nat) : Prop
  | kept (hp : p = s.phase) (hb : b = s.bsize)
  | configured (hs : s.phase = .idle) (hp : p = .active) (hc : c = 0)
  | flushed (hs : s.phase = .active ∨ s.stage = .flushEmit) (hp : p = .flushed) (hb : b = s.bsize)
  | failed (hp : p = .error) (hb : b = s.bsize)

/-- `t` is in the midst of the command in progress in `s`: the session stands, no response is placed, DATA_OUT may have
grown, and payload may have been taken. -/
structure State.WorksTo (s t : State) : Prop where
  phase : t.phase = s.phase
  bsize : t.bsize = s.bsize
  cmdIn : t.cmdIn = s.cmdIn
  rspOut : t.rspOut = s.rspOut
  schedule : t.schedule = s.schedule
  dataOut : s.dataOut <+: t.dataOut
  dataIn : t.dataIn <:+ s.dataIn

/-- `t` is what a command in progress in `s` may leave when it ends or waits. -/
structure State.CommandTo (s t : State) : Prop where
  session : s.SessionTo t.phase t.bsize t.clen
  cmdIn : t.cmdIn = s.cmdIn
  rspOut : ∃ rsp, t.rspOut = s.rspOut ++ rsp ∧ rsp.length ≤ 1
  schedule : t.schedule = s.schedule
  dataOut : s.dataOut <+: t.dataOut
  dataIn : t.dataIn <:+ s.dataIn

/-- What SessionTo reads. -/
theorem State.SessionTo.congr {s u : State} {p : Phase} {b : BitVec 28} {c : Nat} (h : s.SessionTo p b c)
    (h1 : s.phase = u.phase) (h2 : s.bsize = u.bsize) (h3 : s.stage = u.stage) : u.SessionTo p b c := by
  cases h with
  | kept hp hb => exact .kept (hp.trans h1) (hb.trans h2)
  | configured hs hp hc => exact .configured (h1 ▸ hs) hp hc
  | flushed hs hp hb => exact .flushed (h1 ▸ h3 ▸ hs) hp (hb.trans h2)
  | failed hp hb => exact .failed hp (hb.trans h2)

theorem State.WorksTo.refl (s : State) : s.WorksTo s :=
  ⟨rfl, rfl, rfl, rfl, rfl, List.prefix_rfl, List.suffix_rfl⟩

theorem State.WorksTo.trans {s t u : State} (h : s.WorksTo t) (g : t.WorksTo u) : s.WorksTo u :=
  ⟨g.phase.trans h.phase, g.bsize.trans h.bsize, g.cmdIn.trans h.cmdIn, g.rspOut.trans h.rspOut,
    g.schedule.trans h.schedule, h.dataOut.trans g.dataOut, g.dataIn.trans h.dataIn⟩

/-- Taking payload from the head of DATA_IN. -/
theorem State.WorksTo.takes {s u : State} (h : s.WorksTo u) {bs : List Byte} (hbs : bs <:+ s.dataIn) (n : Nat) :
    s.WorksTo { u with dataIn := bs, rem := n } := { h with dataIn := hbs }

/-- A command in its midst that waits there. -/
theorem State.WorksTo.waits {s t : State} (h : s.WorksTo t) : s.CommandTo t :=
  ⟨.kept h.phase h.bsize, h.cmdIn, ⟨[], by simp [h.rspOut]⟩, h.schedule, h.dataOut, h.dataIn⟩

/-! Respond is the end of every command. -/

theorem respond_rspOut (w : Word) (s : State) :
    ∃ rsp, (respond w s).rspOut = s.rspOut ++ rsp ∧ rsp.length ≤ 1 := by
  by_cases h : s.rspRoom.grant 1 = 1
  · exact ⟨[w], by simp [respond_placed h]⟩
  · exact ⟨[], by simp [respond_waits h]⟩

/-- A command that responds, with PHASE, BSIZE and CLEN set before. -/
theorem State.WorksTo.responds {s u : State} (h : s.WorksTo u) {p : Phase} {b : BitVec 28} {c : Nat}
    (hs : s.SessionTo p b c) (w : Word) :
    s.CommandTo (respond w { u with phase := p, bsize := b, clen := c }) where
  session := by simpa using hs
  cmdIn := by simpa using h.cmdIn
  rspOut := h.rspOut ▸ respond_rspOut w { u with phase := p, bsize := b, clen := c }
  schedule := by simpa using h.schedule
  dataOut := by simpa using h.dataOut
  dataIn := by simpa using h.dataIn

theorem State.WorksTo.raisesError {s u : State} (h : s.WorksTo u) (e : ErrorCode) (info : Arg) :
    s.CommandTo (raiseError e info u) :=
  h.responds (c := 0) (.failed rfl h.bsize) (errorWord e info)

theorem State.WorksTo.finishesFeed {s u : State} (h : s.WorksTo u) : s.CommandTo (finishFeed u) := by
  unfold finishFeed
  split
  · exact h.responds (c := u.clen) (.kept h.phase h.bsize) (okWord u.blocks)
  · exact h.raisesError _ _

/-! One payload byte, the payload loop and FLUSH's Emit. -/

theorem placeCarry_worksTo (n : Nat) (s : State) : s.WorksTo (placeCarry n s) where
  phase := rfl
  bsize := rfl
  cmdIn := rfl
  rspOut := rfl
  schedule := rfl
  dataOut := List.prefix_append _ _
  dataIn := List.suffix_rfl

/-- The states a progress completes or waits in are in the midst of the command in progress in `s`. -/
def Progress.From (s : State) (p : Progress) : Prop := ∀ t, p = .done t ∨ p = .wait t → s.WorksTo t

theorem appendCarry_from (b : Byte) (s : State) : (appendCarry b s).From s := by
  intro t ht
  rcases appendCarry_cases b s with ⟨-, he⟩ | ⟨-, he⟩
  · obtain rfl : _ = t := by simpa [he] using ht
    exact { State.WorksTo.refl s with }
  · simp [he] at ht

theorem absorbOnFull_from (b : Byte) (s : State) : (absorbOnFull b s).From s := by
  intro t ht
  have hp := placeCarry_worksTo s.blockSize s
  rcases absorbOnFull_cases b s with ⟨-, -, he⟩ | ⟨-, he⟩ | ⟨-, he⟩
  · obtain rfl : _ = t := by simpa [he] using ht
    exact { hp with }
  · obtain rfl : _ = t := by simpa [he] using ht
    exact { hp with }
  · simp [he] at ht

theorem usePayloadByte_from (b : Byte) (s : State) : (usePayloadByte b s).From s := by
  cases hm : s.mode with
  | drain =>
    rw [usePayloadByte_drain hm]
    intro t ht
    obtain rfl : s = t := by simpa using ht
    exact .refl s
  | absorb =>
    rw [usePayloadByte_absorb hm]
    rcases absorb_cases b s with ⟨-, he⟩ | ⟨-, he⟩
    · exact he ▸ appendCarry_from b s
    · exact he ▸ absorbOnFull_from b s

/-- The payload loop, with `bs` the rest of the payload channel. -/
theorem takePayload_commandTo {s u t : State} {bs : List Byte} (h : s.WorksTo u) (hbs : bs <:+ s.dataIn)
    (ht : takePayload bs u = .next t) : s.CommandTo t := by
  obtain ⟨bs', v, ⟨hv, hbs'⟩, hend⟩ := takePayload_next
    (P := fun bs u => s.WorksTo u ∧ bs <:+ s.dataIn)
    (fun b bs u v hu _ hv =>
      have hbs := (List.suffix_cons b bs).trans hu.2
      ⟨(hu.1.takes hbs _).trans (usePayloadByte_from b _ v (.inl hv)), hbs⟩)
    ⟨h, hbs⟩ ht
  rcases hend with ⟨-, rfl⟩ | ⟨-, -, rfl⟩ | ⟨b, bs, rfl, -, hw⟩
  · exact State.WorksTo.finishesFeed { hv with dataIn := hbs' }
  · exact State.WorksTo.waits { hv with dataIn := List.nil_suffix }
  · have htake := hv.takes ((List.suffix_cons b bs).trans hbs') (v.rem - 1)
    exact (htake.trans (usePayloadByte_from b _ t (.inr hw))).waits

theorem resumeAbsorb_commandTo {s t : State} {b : Byte} (ht : resumeAbsorb b s = .next t) : s.CommandTo t := by
  unfold resumeAbsorb at ht
  split at ht
  · next u hu =>
    have h := absorbOnFull_from b s u (.inl hu)
    exact takePayload_commandTo h h.dataIn ht
  · next u hu =>
    obtain rfl : u = t := by simpa using ht
    exact (absorbOnFull_from b s u (.inr hu)).waits
  · cases ht

theorem emitTail_commandTo {s u t : State} (h : s.WorksTo u) (hs : s.phase = .active ∨ s.stage = .flushEmit)
    (ht : emitTail u = .next t) : s.CommandTo t := by
  have hp := h.trans (placeCarry_worksTo u.clen u)
  rcases emitCarry_cases u.clen u with ⟨-, -, he⟩ | ⟨-, -, he⟩ | ⟨-, he⟩
  · simp only [emitTail, he, Host.Outcome.next.injEq] at ht
    exact ht ▸ State.WorksTo.responds (u := { placeCarry u.clen u with sent := 0 }) { hp with }
      (.flushed hs rfl h.bsize) _
  · simp only [emitTail, he, Host.Outcome.next.injEq] at ht
    exact ht ▸ State.WorksTo.waits { hp with }
  · simp [emitTail, he] at ht

/-! The commands, and the chunker's turn. -/

theorem startFeed_worksTo (l : Nat) (s : State) : s.WorksTo (startFeed l s) where
  phase := by simp
  bsize := by simp
  cmdIn := by simp
  rspOut := by simp
  schedule := by simp
  dataOut := by simp
  dataIn := by simp

theorem exec_commandTo {i : Instr} {s t : State} (ht : exec i s = .next t) : s.CommandTo t := by
  cases i with
  | init b =>
    simp only [exec, execInit] at ht
    split at ht
    · cases ht
      exact (State.WorksTo.refl s).raisesError _ _
    · cases ht
      obtain ⟨hidle, -, -⟩ := (initError_eq_none_iff _ _ _).mp ‹_›
      exact (State.WorksTo.refl s).responds (.configured hidle rfl rfl) _
  | feed l => exact takePayload_commandTo (startFeed_worksTo l s) List.suffix_rfl ht
  | flush =>
    simp only [exec, execFlush] at ht
    split at ht
    · cases ht
      exact (State.WorksTo.refl s).raisesError _ _
    · exact emitTail_commandTo (u := { s with sent := 0 }) { State.WorksTo.refl s with }
        (.inl ((flushPhaseError_eq_none_iff _).mp ‹_›)) ht

theorem runWord_commandTo {w : Word} {s t : State} (ht : runWord w s = .next t) : s.CommandTo t := by
  unfold runWord at ht
  split at ht
  · exact exec_commandTo ht
  · cases ht
    exact (State.WorksTo.refl s).raisesError _ _

/-- `t` is what a turn from `s` may leave: it takes at most one word from CMD_IN, and works on the command of that word
or on the one in progress. -/
def State.TurnTo (s t : State) : Prop :=
  ∃ taken ws, s.cmdIn = taken ++ ws ∧ taken.length ≤ 1 ∧ State.CommandTo { s with cmdIn := ws } t

/-- A turn that takes no word. -/
theorem State.CommandTo.turnTo {s t : State} (h : s.CommandTo t) : s.TurnTo t :=
  ⟨[], s.cmdIn, rfl, Nat.zero_le 1, h⟩

theorem chunkerTurn_turnTo {s t : State} (ht : chunkerTurn s = .next t) : s.TurnTo t := by
  cases hs : s.stage with
  | ready =>
    cases hc : s.cmdIn with
    | nil =>
      rw [chunkerTurn_no_word hs hc] at ht
      cases ht
      exact (State.WorksTo.refl s).waits.turnTo
    | cons w ws =>
      rw [chunkerTurn_word hs hc] at ht
      exact ⟨[w], ws, hc, Nat.le_refl 1, runWord_commandTo ht⟩
  | payload =>
    rw [chunkerTurn_payload hs] at ht
    exact (takePayload_commandTo (.refl s) List.suffix_rfl ht).turnTo
  | absorbEmit b =>
    rw [chunkerTurn_absorbEmit hs] at ht
    exact (resumeAbsorb_commandTo ht).turnTo
  | flushEmit =>
    rw [chunkerTurn_flushEmit hs] at ht
    exact (emitTail_commandTo (.refl s) (.inr hs) ht).turnTo
  | respond w =>
    rw [chunkerTurn_respond hs] at ht
    cases ht
    exact ((State.WorksTo.refl s).responds (c := s.clen) (.kept rfl rfl) w).turnTo

/-- Settles O33: what a command does to the other three channels, and the turn to CMD_IN. -/
theorem chunkerKeepsChannelOrder : Obligations.ChunkerKeepsChannelOrder := by
  unfold Obligations.ChunkerKeepsChannelOrder
  intro s t ht
  obtain ⟨taken, ws, hcmd, hlen, h⟩ := chunkerTurn_turnTo ht
  obtain ⟨out, hout⟩ := h.dataOut
  obtain ⟨bytes, hin⟩ := h.dataIn
  exact ⟨⟨out, hout.symm⟩, h.rspOut, ⟨bytes, hin.symm⟩, taken, hcmd.trans (congrArg _ h.cmdIn.symm), hlen⟩

/-! ## The session along a step -/

theorem chunkerTurn_sessionTo {s t : State} (ht : chunkerTurn s = .next t) : s.SessionTo t.phase t.bsize t.clen := by
  obtain ⟨_, _, -, -, h⟩ := chunkerTurn_turnTo ht
  exact h.session.congr rfl rfl rfl

/-- Of the other agents' moves only RESET touches the session. -/
theorem makeMove_sessionTo {m : Move} {s t : State} (hm : m ≠ .reset) (ht : makeMove m s = .next t) :
    s.SessionTo t.phase t.bsize t.clen := by
  cases m with
  | chunker => exact chunkerTurn_sessionTo ht
  | hostWord w => cases ht; exact .kept rfl rfl
  | hostByte b => cases ht; exact .kept rfl rfl
  | acceptByte => cases ht; exact .kept (by simp) (by simp)
  | acceptWord => cases ht; exact .kept (by simp) (by simp)
  | reset => exact absurd rfl hm
  | secondHost => cases ht

/-- A step is RESET, or leads the session where a turn may lead it. -/
theorem step_sessionTo {s t : State} (ht : step s = .next t) :
    (t.phase = .idle ∧ ∃ ms, s.schedule = .reset :: ms) ∨ s.SessionTo t.phase t.bsize t.clen := by
  cases hs : s.schedule with
  | nil => exact .inr (chunkerTurn_sessionTo (step_no_move hs ▸ ht))
  | cons m ms =>
    rw [step_move hs] at ht
    by_cases hm : m = .reset
    · subst hm
      cases ht
      exact .inl ⟨rfl, ms, rfl⟩
    · exact .inr ((makeMove_sessionTo hm ht).congr rfl rfl rfl)

/-- Settles O31: in the invariant a FLUSH that waits in its Emit is in ACTIVE. -/
theorem phaseChangesOnlyAsSpecified : Obligations.PhaseChangesOnlyAsSpecified := by
  unfold Obligations.PhaseChangesOnlyAsSpecified
  refine ⟨rfl, rfl, rfl, rfl, fun s t h ht => ?_⟩
  rcases step_sessionTo ht with hreset | hs
  · exact .inr (.inr (.inr (.inr hreset)))
  · cases hs with
    | kept hp _ => exact .inl hp
    | configured hs hp _ => exact .inr (.inl ⟨hs, hp⟩)
    | flushed hs hp _ =>
      have hact : s.phase = .active := hs.elim id fun hstage => (h.at_flushEmit hstage).1
      exact .inr (.inr (.inl ⟨hact, hp⟩))
    | failed hp _ => exact .inr (.inr (.inr (.inl hp)))

/-- Settles O32, by where a step may lead the session. -/
theorem blockSizeIsFixedForTheSession : Obligations.BlockSizeIsFixedForTheSession := by
  unfold Obligations.BlockSizeIsFixedForTheSession
  intro s t ht
  rcases step_sessionTo ht with ⟨-, hreset⟩ | hs
  · exact .inr (.inr hreset)
  · cases hs with
    | kept _ hb => exact .inl hb
    | configured hs hp hc => exact .inr (.inl ⟨hs, hp, hc⟩)
    | flushed _ _ hb => exact .inl hb
    | failed _ hb => exact .inl hb

/-! ## A FEED whose payload arrives in two parts -/

/-- The same progress with other payload on DATA_IN. -/
def Progress.withInput (d : List Byte) : Progress → Progress
  | .done t => .done { t with dataIn := d }
  | .wait t => .wait { t with dataIn := d }
  | .fault f => .fault f

theorem emitCarry_withInput (n : Nat) (s : State) (d : List Byte) :
    emitCarry n { s with dataIn := d } = (emitCarry n s).withInput d := by
  rcases emitCarry_cases n s with ⟨h1, h2, he⟩ | ⟨h1, h2, he⟩ | ⟨h1, he⟩
  · rw [he]
    exact (if_neg (Nat.not_lt.mpr h1)).trans (if_neg (Nat.not_lt.mpr h2))
  · rw [he]
    exact (if_neg (Nat.not_lt.mpr h1)).trans (if_pos h2)
  · rw [he]
    exact if_pos h1

theorem appendCarry_withInput (b : Byte) (s : State) (d : List Byte) :
    appendCarry b { s with dataIn := d } = (appendCarry b s).withInput d := by
  rcases appendCarry_cases b s with ⟨h, he⟩ | ⟨h, he⟩
  · rw [he]
    exact if_neg (Nat.not_lt.mpr h)
  · rw [he]
    exact if_pos h

theorem absorbOnFull_withInput (b : Byte) (s : State) (d : List Byte) :
    absorbOnFull b { s with dataIn := d } = (absorbOnFull b s).withInput d := by
  have he : emitCarry ({ s with dataIn := d } : State).blockSize { s with dataIn := d } =
      (emitCarry s.blockSize s).withInput d := emitCarry_withInput s.blockSize s d
  simp only [absorbOnFull, he]
  cases emitCarry s.blockSize s with
  | done t => exact appendCarry_withInput b { t with clen := 0, blocks := t.blocks + 1 } d
  | wait t => rfl
  | fault f => rfl

/-- What a payload byte does depends on no other byte of DATA_IN. -/
theorem usePayloadByte_withInput (b : Byte) (s : State) (d : List Byte) :
    usePayloadByte b { s with dataIn := d } = (usePayloadByte b s).withInput d := by
  obtain ⟨m, hm⟩ : ∃ m, s.mode = m := ⟨_, rfl⟩
  cases m with
  | drain =>
    rw [usePayloadByte_drain hm, usePayloadByte_drain (s := { s with dataIn := d }) hm]
    rfl
  | absorb =>
    rw [usePayloadByte_absorb hm, usePayloadByte_absorb (s := { s with dataIn := d }) hm, absorb, absorb]
    by_cases h : s.clen = s.blockSize
    · rw [if_pos h, if_pos (by exact h), absorbOnFull_withInput]
    · rw [if_neg h, if_neg (by exact h), appendCarry_withInput]

/-- A byte waits in an Emit, not in DataIn. -/
theorem usePayloadByte_wait_stage {b : Byte} {s t : State} (h : usePayloadByte b s = .wait t) :
    t.stage = .absorbEmit b := by
  cases hm : s.mode with
  | drain => simp [usePayloadByte_drain hm] at h
  | absorb =>
    rw [usePayloadByte_absorb hm] at h
    rcases absorb_cases b s with ⟨-, ha⟩ | ⟨-, ha⟩
    · rcases appendCarry_cases b s with ⟨-, he⟩ | ⟨-, he⟩ <;> simp [ha, he] at h
    · rcases absorbOnFull_cases b s with ⟨-, -, he⟩ | ⟨-, he⟩ | ⟨-, he⟩
      · simp [ha, he] at h
      · obtain rfl : _ = t := by simpa [ha, he] using h
        rfl
      · simp [ha, he] at h

theorem respond_stage_ne_payload (w : Word) (s : State) : (respond w s).stage ≠ .payload := by
  by_cases h : s.rspRoom.grant 1 = 1
  · simp [respond_placed h]
  · simp [respond_waits h]

/-- A FEED that has ended does not wait in DataIn. -/
theorem finishFeed_stage_ne_payload (s : State) : (finishFeed s).stage ≠ .payload := by
  unfold finishFeed
  split <;> exact respond_stage_ne_payload _ _

theorem rem_ne_zero_of_waits_in_dataIn {x : List Byte} {s t : State} (ht : takePayload x s = .next t)
    (hw : t.stage = .payload) : s.rem ≠ 0 := by
  intro h0
  rw [takePayload_finished h0] at ht
  cases ht
  exact finishFeed_stage_ne_payload _ hw

/-- The payload loop that has run out of payload goes on with more as one loop over both parts. -/
theorem takePayload_append {x : List Byte} {s t : State} (ht : takePayload x s = .next t) (hw : t.stage = .payload)
    (y : List Byte) : takePayload (x ++ y) s = takePayload y t := by
  induction x generalizing s with
  | nil =>
    have h0 := rem_ne_zero_of_waits_in_dataIn ht hw
    rw [takePayload, if_neg h0] at ht
    cases ht
    exact (takePayload_forgets y s [] .payload).symm
  | cons b x ih =>
    have h0 := rem_ne_zero_of_waits_in_dataIn ht hw
    cases hu : usePayloadByte b { s with dataIn := x, rem := s.rem - 1 } with
    | done u =>
      have hu' := usePayloadByte_withInput b { s with dataIn := x, rem := s.rem - 1 } (x ++ y)
      rw [hu] at hu'
      rw [takePayload_cons h0 hu] at ht
      rw [List.cons_append, takePayload_cons h0 hu']
      exact (takePayload_forgets (x ++ y) u (x ++ y) u.stage).trans (ih ht)
    | wait u =>
      rw [takePayload_waits h0 hu] at ht
      cases ht
      simp [usePayloadByte_wait_stage hu] at hw
    | fault f => simp [takePayload, h0, hu] at ht

theorem startFeed_withInput (l : Nat) (s : State) (d : List Byte) :
    startFeed l { s with dataIn := d } = { startFeed l s with dataIn := d } := by
  cases h : s.phase <;> simp [startFeed, feedPhaseError, h]

/-- FEED's payload stands on DATA_IN and is read nowhere else. -/
theorem exec_feed_withInput (l : Nat) (s : State) (d : List Byte) :
    exec (.feed l) { s with dataIn := d } = takePayload d (startFeed l s) := by
  rw [exec, execFeed, startFeed_withInput]
  exact takePayload_forgets d (startFeed l s) d (startFeed l s).stage

/-- Settles O23: the resumed turn is the rest of one payload loop over both parts. -/
theorem payloadInPartsEndsAsOneFeed : Obligations.PayloadInPartsEndsAsOneFeed := by
  unfold Obligations.PayloadInPartsEndsAsOneFeed
  intro l x y s t hs ht hw
  have hsched : t.schedule = [] := (exec_commandTo ht).schedule.trans hs
  rw [exec_feed_withInput] at ht
  calc step { t with dataIn := y }
      = takePayload y { t with dataIn := y } := by
        rw [step_no_move (s := { t with dataIn := y }) hsched, chunkerTurn_payload (s := { t with dataIn := y }) hw]
    _ = takePayload y t := takePayload_forgets y t y t.stage
    _ = takePayload (x ++ y) (startFeed l s) := (takePayload_append ht hw y).symm
    _ = exec (.feed l) { s with dataIn := x ++ y } := (exec_feed_withInput l s (x ++ y)).symm

end Sys2Proof.Machine

/-! PROOF. The channels (20_memory.md): a second host is refused (R52), a response comes after all output of its command
(R48, R49), and a command that the consumer held back in an Emit ends as one never held back (R55). -/

namespace Sys2Proof.Machine

/-! ## One host -/

/-- Settles O37: no agent of the model is the second host, so its move has no meaning. -/
theorem secondHostIsRefused : Obligations.SecondHostIsRefused := by
  unfold Obligations.SecondHostIsRefused
  intro s ms h
  rw [step_move h]
  rfl

/-! ## A response comes last -/

/-- A response placed between `s` and `t` is the last thing its command does: in `t` the command is over. -/
def State.RespondsLast (s t : State) : Prop := t.rspOut = s.rspOut ∨ t.stage = .ready

theorem State.WorksTo.respondsLast {s t : State} (h : s.WorksTo t) : s.RespondsLast t := .inl h.rspOut

theorem respond_respondsLast {s u : State} (h : u.rspOut = s.rspOut) (w : Word) : s.RespondsLast (respond w u) := by
  by_cases hr : u.rspRoom.grant 1 = 1
  · exact .inr (by rw [respond_placed hr])
  · exact .inl (by rw [respond_waits hr]; exact h)

theorem raiseError_respondsLast {s u : State} (h : u.rspOut = s.rspOut) (e : ErrorCode) (info : Arg) :
    s.RespondsLast (raiseError e info u) :=
  respond_respondsLast (u := { u with phase := .error, clen := 0 }) h (errorWord e info)

theorem finishFeed_respondsLast {s u : State} (h : u.rspOut = s.rspOut) : s.RespondsLast (finishFeed u) := by
  unfold finishFeed
  split
  · exact respond_respondsLast h _
  · exact raiseError_respondsLast h _ _

theorem takePayload_respondsLast {s u t : State} {bs : List Byte} (h : u.rspOut = s.rspOut)
    (ht : takePayload bs u = .next t) : s.RespondsLast t := by
  obtain ⟨bs', v, hv, hend⟩ := takePayload_next (P := fun _ u => u.rspOut = s.rspOut)
    (fun b _ _ v hu _ hv => (usePayloadByte_from b _ v (.inl hv)).rspOut.trans hu) h ht
  rcases hend with ⟨-, rfl⟩ | ⟨-, -, rfl⟩ | ⟨b, bs, -, -, hw⟩
  · exact finishFeed_respondsLast hv
  · exact .inl hv
  · exact .inl ((usePayloadByte_from b _ t (.inr hw)).rspOut.trans hv)

theorem resumeAbsorb_respondsLast {s t : State} {b : Byte} (ht : resumeAbsorb b s = .next t) : s.RespondsLast t := by
  unfold resumeAbsorb at ht
  split at ht
  · next u hu => exact takePayload_respondsLast (absorbOnFull_from b s u (.inl hu)).rspOut ht
  · next u hu =>
    cases ht
    exact (absorbOnFull_from b s t (.inr hu)).respondsLast
  · cases ht

theorem emitTail_respondsLast {s u t : State} (h : u.rspOut = s.rspOut) (ht : emitTail u = .next t) :
    s.RespondsLast t := by
  rcases emitCarry_cases u.clen u with ⟨-, -, he⟩ | ⟨-, -, he⟩ | ⟨-, he⟩
  · simp only [emitTail, he, Host.Outcome.next.injEq] at ht
    exact ht ▸ respond_respondsLast (u := { placeCarry u.clen u with sent := 0, clen := 0, phase := .flushed }) h _
  · simp only [emitTail, he, Host.Outcome.next.injEq] at ht
    exact ht ▸ .inl h
  · simp [emitTail, he] at ht

theorem exec_respondsLast {i : Instr} {s t : State} (ht : exec i s = .next t) : s.RespondsLast t := by
  cases i with
  | init b =>
    simp only [exec, execInit] at ht
    split at ht
    · cases ht
      exact raiseError_respondsLast rfl _ _
    · cases ht
      exact respond_respondsLast rfl _
  | feed l => exact takePayload_respondsLast (startFeed_rspOut l s) ht
  | flush =>
    simp only [exec, execFlush] at ht
    split at ht
    · cases ht
      exact raiseError_respondsLast rfl _ _
    · exact emitTail_respondsLast (u := { s with sent := 0 }) rfl ht

theorem runWord_respondsLast {w : Word} {s t : State} (ht : runWord w s = .next t) : s.RespondsLast t := by
  unfold runWord at ht
  split at ht
  · exact exec_respondsLast ht
  · cases ht
    exact raiseError_respondsLast rfl _ _

theorem chunkerTurn_respondsLast {s t : State} (ht : chunkerTurn s = .next t) : s.RespondsLast t := by
  cases hs : s.stage with
  | ready =>
    cases hc : s.cmdIn with
    | nil =>
      rw [chunkerTurn_no_word hs hc] at ht
      cases ht
      exact .inl rfl
    | cons w ws =>
      rw [chunkerTurn_word hs hc] at ht
      exact runWord_respondsLast (s := { s with cmdIn := ws }) ht
  | payload => exact takePayload_respondsLast rfl (chunkerTurn_payload hs ▸ ht)
  | absorbEmit b => exact resumeAbsorb_respondsLast (chunkerTurn_absorbEmit hs ▸ ht)
  | flushEmit => exact emitTail_respondsLast rfl (chunkerTurn_flushEmit hs ▸ ht)
  | respond w =>
    rw [chunkerTurn_respond hs] at ht
    cases ht
    exact respond_respondsLast rfl w

/-- A turn that goes on with the command in progress is a part of that command, and takes no word. -/
theorem chunkerTurn_resumed_commandTo {s t : State} (hs : s.stage ≠ .ready) (ht : chunkerTurn s = .next t) :
    s.CommandTo t := by
  cases hg : s.stage with
  | ready => exact absurd hg hs
  | payload => exact takePayload_commandTo (.refl s) List.suffix_rfl (chunkerTurn_payload hg ▸ ht)
  | absorbEmit b => exact resumeAbsorb_commandTo (chunkerTurn_absorbEmit hg ▸ ht)
  | flushEmit => exact emitTail_commandTo (.refl s) (.inr hg) (chunkerTurn_flushEmit hg ▸ ht)
  | respond w =>
    rw [chunkerTurn_respond hg] at ht
    cases ht
    exact (State.WorksTo.refl s).responds (c := s.clen) (.kept rfl rfl) w

/-- Settles O34: after a response the chunker is between commands, where the invariant has nothing in flight. -/
theorem responseComesAfterAllOutput : Obligations.ResponseComesAfterAllOutput := by
  unfold Obligations.ResponseComesAfterAllOutput
  intro s t h ht
  refine ⟨fun hne => ?_, fun hs => (chunkerTurn_resumed_commandTo hs ht).cmdIn⟩
  have hready : t.stage = .ready := (chunkerTurn_respondsLast ht).resolve_left hne
  obtain ⟨u, hu, hinv⟩ := chunkerTurn_legal h
  obtain rfl : u = t := Host.Outcome.next.inj (hu.symm.trans ht)
  obtain ⟨hrem, hsent⟩ := hinv.at_ready hready
  exact ⟨hready, hsent, hrem⟩

/-! ## An Emit held back, and one never held back -/

/-- The same state with a consumer that does not hold DATA_OUT back. -/
def State.released (s : State) : State := { s with dataRoom := .unlimited }

/-- While DATA_OUT is held back, an Emit places nothing. -/
theorem placeCarry_held {s : State} (h : s.dataRoom = .upTo 0) (n : Nat) : placeCarry n s = s := by
  simp only [placeCarry, h, Room.grant_upTo, Nat.zero_min, Memory.read, List.append_nil, Nat.add_zero, Room.spend_zero]
  rw [← h]

/-- An Emit that DATA_OUT has too little room for places the bytes let through. -/
theorem placeCarry_upTo {s : State} {n r : Nat} (h : s.dataRoom = .upTo r) (hr : s.sent + r ≤ n) :
    placeCarry n s =
      { s with dataOut := s.dataOut ++ s.carry.read s.sent r, sent := s.sent + r, dataRoom := .upTo 0 } := by
  have hmin : min r (n - s.sent) = r := by omega
  simp only [placeCarry, h, Room.grant_upTo, Room.spend_upTo, hmin, Nat.sub_self]

/-- What Emit places now, and what it then has still to place, are together what it had to place. -/
theorem placeCarry_dataOut_rest (n : Nat) (s : State) :
    (placeCarry n s).dataOut ++ s.carry.read (placeCarry n s).sent (n - (placeCarry n s).sent) =
      s.dataOut ++ s.carry.read s.sent (n - s.sent) := by
  obtain ⟨k, hk⟩ := Nat.exists_eq_add_of_le (s.dataRoom.grant_le (n - s.sent))
  have hrest : n - (placeCarry n s).sent = k := by
    rw [placeCarry_sent]
    omega
  rw [hrest, placeCarry_dataOut, placeCarry_sent, List.append_assoc, ← Memory.read_add, ← hk]

/-- An Emit that is not held back places all it has still to place. -/
theorem emitCarry_released {n : Nat} {s : State} (hn : n ≤ s.blockSize) :
    emitCarry n s.released = .done { s with
      dataOut := s.dataOut ++ s.carry.read s.sent (n - s.sent), dataRoom := .unlimited, sent := 0 } :=
  (if_neg (Nat.not_lt.mpr hn)).trans
    (if_neg (by simp only [placeCarry_sent, State.released, Room.grant_unlimited]; omega))

/-- An Emit that completes does what it does when it is not held back. -/
theorem emitCarry_released_of_done {n : Nat} {s t : State} (h : emitCarry n s = .done t) :
    emitCarry n s.released = .done t.released := by
  rcases emitCarry_cases n s with ⟨hn, hall, he⟩ | ⟨-, -, he⟩ | ⟨-, he⟩
  · obtain rfl : _ = t := by simpa [he] using h
    have hout := placeCarry_dataOut_rest n s
    rw [Nat.sub_eq_zero_of_le hall, Memory.read, List.append_nil] at hout
    rw [emitCarry_released hn, ← hout]
    rfl
  · simp [he] at h
  · simp [he] at h

/-! ### FEED -/

theorem appendCarry_released_of_done {b : Byte} {s t : State} (h : appendCarry b s = .done t) :
    appendCarry b s.released = .done t.released := by
  rcases appendCarry_cases b s with ⟨hle, he⟩ | ⟨-, he⟩
  · obtain rfl : _ = t := by simpa [he] using h
    exact if_neg (Nat.not_lt.mpr hle)
  · simp [he] at h

theorem absorbOnFull_released_of_done {b : Byte} {s t : State} (h : absorbOnFull b s = .done t) :
    absorbOnFull b s.released = .done t.released := by
  unfold absorbOnFull at h
  split at h
  · next u hu =>
    have hu' : emitCarry s.released.blockSize s.released = .done u.released := emitCarry_released_of_done hu
    simp only [absorbOnFull, hu']
    exact appendCarry_released_of_done h
  · cases h
  · cases h

theorem usePayloadByte_released_of_done {b : Byte} {s t : State} (h : usePayloadByte b s = .done t) :
    usePayloadByte b s.released = .done t.released := by
  rcases (by cases s.mode <;> simp : s.mode = .drain ∨ s.mode = .absorb) with hm | hm
  · obtain rfl : s = t := by simpa [usePayloadByte_drain hm] using h
    exact usePayloadByte_drain (s := s.released) hm b
  · rw [usePayloadByte_absorb hm] at h
    rw [usePayloadByte_absorb (s := s.released) hm]
    rcases absorb_cases b s with ⟨hne, he⟩ | ⟨hfull, he⟩
    · exact (if_neg hne).trans (appendCarry_released_of_done (he ▸ h))
    · exact (if_pos hfull).trans (absorbOnFull_released_of_done (he ▸ h))

/-- Absorb on a full carry, its Emit begun or resumed, when it is not held back. -/
theorem absorbOnFull_released {s : State} (hb : 1 ≤ s.blockSize) (b : Byte) :
    absorbOnFull b s.released = .done { s with
      dataOut := s.dataOut ++ s.carry.read s.sent (s.blockSize - s.sent)
      dataRoom := .unlimited
      sent := 0
      carry := s.carry.write 0 b
      clen := 1
      blocks := s.blocks + 1 } := by
  have he : emitCarry s.released.blockSize s.released = _ := emitCarry_released (Nat.le_refl s.blockSize)
  simp only [absorbOnFull, he]
  exact if_neg (Nat.not_lt.mpr hb)

/-- Of the payload bytes only one absorbed on a full carry waits, and it waits in the Emit. -/
theorem usePayloadByte_wait {b : Byte} {s t : State} (h : usePayloadByte b s = .wait t) :
    s.mode = .absorb ∧ s.clen = s.blockSize ∧ 1 ≤ s.blockSize ∧
      t = { placeCarry s.blockSize s with stage := .absorbEmit b } := by
  rcases (by cases s.mode <;> simp : s.mode = .drain ∨ s.mode = .absorb) with hm | hm
  · simp [usePayloadByte_drain hm] at h
  · rw [usePayloadByte_absorb hm] at h
    rcases absorb_cases b s with ⟨-, ha⟩ | ⟨hfull, ha⟩
    · rcases appendCarry_cases b s with ⟨-, he⟩ | ⟨-, he⟩ <;> simp [ha, he] at h
    · rcases absorbOnFull_cases b s with ⟨-, -, he⟩ | ⟨hlt, he⟩ | ⟨-, he⟩
      · simp [ha, he] at h
      · exact ⟨hm, hfull, Nat.zero_lt_of_lt hlt, by simpa [ha, he] using h.symm⟩
      · simp [ha, he] at h

/-- The Emit a payload byte waits in, gone on with once DATA_OUT is not held back, leaves what the byte leaves when it
is never held back, but for the control point. -/
theorem absorbOnFull_released_of_wait {b : Byte} {s t : State} (h : usePayloadByte b s = .wait t) :
    ∃ u, usePayloadByte b s.released = .done u ∧ u.dataIn = s.dataIn ∧
      absorbOnFull b t.released = .done { u with stage := .absorbEmit b } := by
  obtain ⟨hm, hfull, hb, rfl⟩ := usePayloadByte_wait h
  refine ⟨_, (usePayloadByte_absorb (s := s.released) hm b).trans
    ((if_pos hfull).trans (absorbOnFull_released hb b)), rfl, ?_⟩
  refine (absorbOnFull_released (s := { placeCarry s.blockSize s with stage := .absorbEmit b }) hb b).trans ?_
  rw [← placeCarry_dataOut_rest s.blockSize s]
  rfl

theorem respond_stage_eq (w : Word) (s : State) :
    (respond w s).stage = .ready ∨ (respond w s).stage = .respond w := by
  by_cases h : s.rspRoom.grant 1 = 1
  · exact .inl (by rw [respond_placed h])
  · exact .inr (by rw [respond_waits h])

/-- A FEED that has ended is over, or waits in Respond. -/
theorem finishFeed_stage_eq (s : State) :
    (finishFeed s).stage = .ready ∨ ∃ w, (finishFeed s).stage = .respond w := by
  unfold finishFeed
  split <;> exact (respond_stage_eq _ _).imp_right fun h => ⟨_, h⟩

theorem rem_ne_zero_of_waits_in_emit {bs : List Byte} {s t : State} {b : Byte} (ht : takePayload bs s = .next t)
    (hw : t.stage = .absorbEmit b) : s.rem ≠ 0 := by
  intro h0
  rw [takePayload_finished h0] at ht
  cases ht
  rcases finishFeed_stage_eq { s with dataIn := bs } with h | ⟨w, h⟩
  · cases h.symm.trans hw
  · cases h.symm.trans hw

/-- A payload loop that waits in an Emit, gone on with once DATA_OUT is not held back, is one loop that is never held
back. -/
theorem resumeAbsorb_released {bs : List Byte} {s t : State} {b : Byte} (ht : takePayload bs s = .next t)
    (hw : t.stage = .absorbEmit b) : resumeAbsorb b t.released = takePayload bs s.released := by
  induction bs generalizing s with
  | nil =>
    have h0 := rem_ne_zero_of_waits_in_emit ht hw
    rw [takePayload, if_neg h0] at ht
    cases ht
    cases hw
  | cons c bs ih =>
    have h0 := rem_ne_zero_of_waits_in_emit ht hw
    cases hu : usePayloadByte c { s with dataIn := bs, rem := s.rem - 1 } with
    | done u =>
      rw [takePayload_cons h0 hu] at ht
      rw [takePayload_cons (s := s.released) h0 (usePayloadByte_released_of_done hu)]
      exact ih ht
    | wait u =>
      rw [takePayload_waits h0 hu] at ht
      cases ht
      cases (usePayloadByte_wait_stage hu).symm.trans hw
      obtain ⟨v, hv, hin, hr⟩ := absorbOnFull_released_of_wait hu
      rw [takePayload_cons (s := s.released) h0 hv]
      simp only [resumeAbsorb, hr, hin]
      exact takePayload_forgets bs v bs (.absorbEmit b)
    | fault f => simp [takePayload, h0, hu] at ht

theorem startFeed_released (l : Nat) (s : State) : startFeed l s.released = (startFeed l s).released := by
  cases h : s.phase <;> simp [startFeed, feedPhaseError, State.released, h]

/-- Settles O24: the resumed turn is the rest of one payload loop that is never held back. -/
theorem heldBackFeedEndsAsAnUnhinderedOne : Obligations.HeldBackFeedEndsAsAnUnhinderedOne := by
  unfold Obligations.HeldBackFeedEndsAsAnUnhinderedOne
  intro l b s t hs ht hw
  have hsched : t.schedule = [] := (exec_commandTo ht).schedule.trans hs
  calc step t.released
      = resumeAbsorb b t.released := by
        rw [step_no_move (s := t.released) hsched, chunkerTurn_absorbEmit (s := t.released) hw]
    _ = takePayload s.dataIn (startFeed l s).released := resumeAbsorb_released ht hw
    _ = exec (.feed l) s.released := by
        rw [← startFeed_released]
        rfl

/-! ### FLUSH -/

theorem exec_flush_active {s : State} (h : s.phase = .active) : exec .flush s = emitTail { s with sent := 0 } := by
  simp only [exec, execFlush, (flushPhaseError_eq_none_iff s.phase).mpr h]

/-- FLUSH's Emit while it is held back. -/
theorem emitTail_waits {s : State} (hc : s.clen ≤ s.blockSize) (h : (placeCarry s.clen s).sent < s.clen) :
    emitTail s = .next { placeCarry s.clen s with stage := .flushEmit } := by
  have he : emitCarry s.clen s = .wait (placeCarry s.clen s) := (if_neg (Nat.not_lt.mpr hc)).trans (if_pos h)
  simp only [emitTail, he]

/-- FLUSH's Emit, begun or resumed, when it is not held back. -/
theorem emitTail_released {s : State} (hc : s.clen ≤ s.blockSize) :
    emitTail s.released = .next (respond (okWord s.clen) { s with
      dataOut := s.dataOut ++ s.carry.read s.sent (s.clen - s.sent)
      dataRoom := .unlimited
      sent := 0
      clen := 0
      phase := .flushed }) := by
  simp only [emitTail, show s.released.clen = s.clen from rfl, emitCarry_released hc]

/-- Once it is not held back, it makes no difference to FLUSH's Emit how much of the tail went out before. -/
theorem emitTail_placeCarry_released {s : State} (hc : s.clen ≤ s.blockSize) (g : Stage) :
    emitTail { placeCarry s.clen s with stage := g }.released = emitTail s.released := by
  have hs := emitTail_released hc
  rw [← respond_stage _ _ g, ← placeCarry_dataOut_rest s.clen s] at hs
  exact (emitTail_released (s := { placeCarry s.clen s with stage := g }) hc).trans hs.symm

/-- A FLUSH that waits in its Emit goes on waiting while DATA_OUT is held back. -/
theorem step_flushEmit_held {s : State} (hsched : s.schedule = []) (hs : s.stage = .flushEmit)
    (hroom : s.dataRoom = .upTo 0) (hc : s.clen ≤ s.blockSize) (hsent : s.sent < s.clen) : step s = .next s := by
  rw [step_no_move hsched, chunkerTurn_flushEmit hs, emitTail_waits hc (by rwa [placeCarry_held hroom]),
    placeCarry_held hroom, ← hs]

/-- A FLUSH that waits in its Emit ends, once DATA_OUT is not held back, as one that was never held back. -/
theorem step_flushEmit_released {s : State} (hsched : s.schedule = []) (hc : s.clen ≤ s.blockSize) :
    step { placeCarry s.clen s with stage := .flushEmit }.released = emitTail s.released :=
  calc step { placeCarry s.clen s with stage := .flushEmit }.released
      = emitTail { placeCarry s.clen s with stage := .flushEmit }.released := by
        rw [step_no_move (by exact hsched), chunkerTurn_flushEmit rfl]
    _ = emitTail s.released := emitTail_placeCarry_released hc .flushEmit

/-- Settles O27: FLUSH's Emit places the bytes let through and is then at the first byte not yet placed. -/
theorem heldBackFlushWaitsAndResumes : Obligations.HeldBackFlushWaitsAndResumes := by
  unfold Obligations.HeldBackFlushWaitsAndResumes
  intro s r hact hc hr hroom hsched
  have hplace := placeCarry_upTo (s := { s with sent := 0 }) (n := s.clen) hroom (by simp only; omega)
  have hsent : (placeCarry s.clen { s with sent := 0 }).sent < s.clen := by
    rw [hplace]
    simpa using hr
  refine ⟨{ placeCarry s.clen { s with sent := 0 } with stage := .flushEmit },
    (exec_flush_active hact).trans (emitTail_waits (s := { s with sent := 0 }) hc hsent), rfl, hact, rfl, rfl, ?_,
    step_flushEmit_held hsched rfl (congrArg State.dataRoom hplace) hc hsent,
    (step_flushEmit_released (s := { s with sent := 0 }) hsched hc).trans
      (exec_flush_active (s := s.released) hact).symm⟩
  rw [State.carryBytes, Memory.read_take _ _ (Nat.le_of_lt hr)]
  exact congrArg State.dataOut hplace

end Sys2Proof.Machine

/-! PROOF. Command words (30_encoding.md): decoder and encoder agree (R60 to R65, R68), only a FEED takes payload (R68),
every word is answered once (R66), and FEEDL's chunks (R71). -/

namespace Sys2Proof.Machine

/-! ## Decoder and encoder -/

/-! What the decoder answers for the fields of each command (R61 to R64). -/

theorem decode_init {w : Word} (hop : opField w = 0x1#4) : decode w = .ok (.init (argField w).toNat) := by
  simp [decode, hop]

theorem decode_feed {w : Word} (hop : opField w = 0x2#4) : decode w = .ok (.feed (argField w).toNat) := by
  simp [decode, hop]

theorem decode_flush {w : Word} (hop : opField w = 0x3#4) (harg : argField w = 0#28) : decode w = .ok .flush := by
  simp [decode, hop, harg]

/-- Settles O5, command by command: the fields of the encoded word are its OP and its operand. -/
theorem decodeOfEncodeIsTheCommand : Obligations.DecodeOfEncodeIsTheCommand := by
  unfold Obligations.DecodeOfEncodeIsTheCommand
  intro i hi
  cases i with
  | init b =>
    obtain ⟨hop, harg⟩ := Laws.EncodeFields.init b hi
    rw [decode_init hop, harg]
    rfl
  | feed l =>
    obtain ⟨hop, harg⟩ := Laws.EncodeFields.feed l hi
    rw [decode_feed hop, harg]
    rfl
  | flush =>
    obtain ⟨hop, harg⟩ := Laws.EncodeFields.flush hi
    exact decode_flush hop (BitVec.eq_of_toNat_eq harg)

/-- A word that decodes carries in its fields what the encoder puts there. -/
theorem fields_of_decode {w : Word} {i : Instr} (h : decode w = .ok i) :
    opField w = i.op ∧ argField w = zext28 i.arg := by
  unfold decode at h
  split at h
  · next hop =>
    cases h
    exact ⟨hop, (zext28_argField w).symm⟩
  · split at h
    · next hop =>
      cases h
      exact ⟨hop, (zext28_argField w).symm⟩
    · split at h
      · next hop =>
        split at h
        · next harg =>
          cases h
          exact ⟨hop, harg⟩
        · cases h
      · cases h

theorem encode_of_decode {w : Word} {i : Instr} (h : decode w = .ok i) : encode i = w := by
  obtain ⟨hop, harg⟩ := fields_of_decode h
  rw [encode, ← hop, ← harg, joinWord_fields]

/-- Settles O6: a word is its two fields, and they are the command's. -/
theorem encodeOfDecodeIsTheWord : Obligations.EncodeOfDecodeIsTheWord := by
  unfold Obligations.EncodeOfDecodeIsTheWord
  exact fun w i h => ⟨decode_wellFormed h, encode_of_decode h⟩

theorem opField_eq_iff (w : Word) (op : BitVec 4) : opField w = op ↔ w.toNat / 2 ^ 28 = op.toNat := by
  rw [← opField_toNat, BitVec.toNat_inj]

/-- Settles O7; a word of the fourth clause, were it legal, would be the word of an INIT, a FEED or FLUSH. -/
theorem decodeClassifiesEveryWord : Obligations.DecodeClassifiesEveryWord := by
  unfold Obligations.DecodeClassifiesEveryWord
  intro w
  refine ⟨fun h => ?_, fun h => ?_, fun h => ?_, fun hinit hfeed hflush => ?_⟩
  · rw [← argField_toNat]
    exact decode_init ((opField_eq_iff w 0x1#4).mpr h)
  · rw [← argField_toNat]
    exact decode_feed ((opField_eq_iff w 0x2#4).mpr h)
  · exact h ▸ decode_flush (by decide) (by decide)
  · cases h : decode w with
    | error e => exact ⟨e, rfl⟩
    | ok i =>
      cases i with
      | init b => exact absurd ((opField_eq_iff w 0x1#4).mp (fields_of_decode h).1) hinit
      | feed l => exact absurd ((opField_eq_iff w 0x2#4).mp (fields_of_decode h).1) hfeed
      | flush => exact absurd (encode_of_decode h).symm hflush

/-- Settles O4: the decoder evaluates to what the rules give for each of the nine words. -/
theorem specWordsDecode : Obligations.SpecWordsDecode := by
  unfold Obligations.SpecWordsDecode
  decide

/-! ## Who takes payload -/

/-- DATA_IN and REM are the same in both states: no payload byte is taken between them. -/
def State.SamePayload (s t : State) : Prop := t.dataIn = s.dataIn ∧ t.rem = s.rem

theorem respond_samePayload (w : Word) (s : State) : s.SamePayload (respond w s) := ⟨by simp, by simp⟩

theorem raiseError_samePayload (e : ErrorCode) (info : Arg) (s : State) : s.SamePayload (raiseError e info s) :=
  ⟨by simp, by simp⟩

theorem execInit_samePayload {b : Nat} {s t : State} (ht : execInit b s = .next t) : s.SamePayload t := by
  unfold execInit at ht
  split at ht
  · cases ht
    exact raiseError_samePayload _ _ s
  · cases ht
    exact ⟨by simp, by simp⟩

theorem emitTail_samePayload {s t : State} (ht : emitTail s = .next t) : s.SamePayload t := by
  rcases emitCarry_cases s.clen s with ⟨-, -, he⟩ | ⟨-, -, he⟩ | ⟨-, he⟩
  · simp only [emitTail, he, Host.Outcome.next.injEq] at ht
    exact ht ▸ respond_samePayload _ { placeCarry s.clen s with sent := 0, clen := 0, phase := .flushed }
  · simp only [emitTail, he, Host.Outcome.next.injEq] at ht
    exact ht ▸ ⟨rfl, rfl⟩
  · simp [emitTail, he] at ht

theorem execFlush_samePayload {s t : State} (ht : execFlush s = .next t) : s.SamePayload t := by
  unfold execFlush at ht
  split at ht
  · cases ht
    exact raiseError_samePayload _ _ s
  · exact emitTail_samePayload (s := { s with sent := 0 }) ht

/-- A word that is no FEED takes no payload. -/
theorem runWord_samePayload {w : Word} {s t : State} (hw : ∀ l, decode w ≠ .ok (.feed l))
    (ht : runWord w s = .next t) : s.SamePayload t := by
  unfold runWord at ht
  split at ht
  · next i hi =>
    cases i with
    | init b => exact execInit_samePayload ht
    | feed l => exact absurd hi (hw l)
    | flush => exact execFlush_samePayload ht
  · cases ht
    exact raiseError_samePayload _ _ s

theorem step_takes_word {s : State} {w : Word} {ws : List Word} (h : s.TakesCommand) (hc : s.cmdIn = w :: ws) :
    step s = runWord w { s with cmdIn := ws } := by
  obtain ⟨hsched, hready⟩ := h
  rw [step_no_move hsched, chunkerTurn_word hready hc]

/-- Settles O11: INIT, FLUSH and error entry leave DATA_IN and REM as they are. -/
theorem onlyFeedTakesPayload : Obligations.OnlyFeedTakesPayload := by
  unfold Obligations.OnlyFeedTakesPayload
  intro s t w ws hs hc hw ht
  rw [step_takes_word hs hc] at ht
  exact runWord_samePayload (s := { s with cmdIn := ws }) hw ht

/-! ## One response for each word -/

/-- `t` is between commands, with one response more than `s`. -/
def State.AnsweredBy (s t : State) : Prop := t.stage = .ready ∧ ∃ r, t.rspOut = s.rspOut ++ [r]

section
variable {s u : State} (hroom : u.rspRoom = .unlimited) (hrsp : u.rspOut = s.rspOut)
include hroom hrsp

/-! Every command ends in one Respond, with nothing on RSP_OUT before it. -/

theorem respond_answers (w : Word) : s.AnsweredBy (respond w u) := by
  rw [respond_placed (by simp [hroom])]
  exact ⟨rfl, w, by rw [hrsp]⟩

theorem raiseError_answers (e : ErrorCode) (info : Arg) : s.AnsweredBy (raiseError e info u) :=
  respond_answers (u := { u with phase := .error, clen := 0 }) hroom hrsp (errorWord e info)

theorem finishFeed_answers : s.AnsweredBy (finishFeed u) := by
  unfold finishFeed
  split
  · exact respond_answers hroom hrsp _
  · exact raiseError_answers hroom hrsp _ _

end

theorem execInit_answers {s : State} (h : s.ConsumerReady) (b : Nat) :
    ∃ t, execInit b s = .next t ∧ s.AnsweredBy t := by
  unfold execInit
  split
  · exact ⟨_, rfl, raiseError_answers h.2 rfl _ _⟩
  · exact ⟨_, rfl, respond_answers (u := { s with bsize := zext28 b, clen := 0, phase := .active }) h.2 rfl _⟩

/-- With the payload there and the consumer ready, a FEED takes it whole, absorbed or drained, and ends. -/
theorem execFeed_answers {s : State} (hinv : s.CoreLegal) (h : s.ConsumerReady) {l : Nat} (hl : l ≤ s.dataIn.length) :
    ∃ t, execFeed l s = .next t ∧ s.AnsweredBy t := by
  obtain ⟨hdata, hrsp⟩ := h
  have hlen : (startFeed l s).rem = (s.dataIn.take l).length := by simpa using hl
  rw [execFeed, ← List.take_append_drop l s.dataIn]
  by_cases hp : s.phase = .active
  · have hph := hinv.2.1
    simp only [State.PhaseLegal, hp] at hph
    obtain ⟨hb, -, hc⟩ := hph
    obtain ⟨t, ht, hrest, -⟩ := takePayload_absorb (s := startFeed l s) (by simp [startFeed_mode, hp]) (by simp)
      (by simpa [State.blockSize] using hb) (by simpa [State.blockSize] using hc) (s.dataIn.take l) (s.dataIn.drop l)
      hlen (by simp [hdata])
    refine ⟨_, ht, finishFeed_answers ?_ ?_⟩
    · simpa using (congrArg State.rspRoom hrest).trans (by simpa using hrsp)
    · simpa using congrArg State.rspOut hrest
  · exact ⟨_, takePayload_drain (by simp [startFeed_mode, hp]) _ _ hlen,
      finishFeed_answers (by simpa using hrsp) (by simp)⟩

theorem released_of_unlimited {s : State} (h : s.dataRoom = .unlimited) : s.released = s := by
  rw [State.released, ← h]

theorem execFlush_answers {s : State} (hinv : s.CoreLegal) (h : s.ConsumerReady) :
    ∃ t, execFlush s = .next t ∧ s.AnsweredBy t := by
  obtain ⟨hdata, hrsp⟩ := h
  unfold execFlush
  split
  · exact ⟨_, rfl, raiseError_answers hrsp rfl _ _⟩
  · rw [← released_of_unlimited (s := { s with sent := 0 }) hdata,
      emitTail_released (s := { s with sent := 0 }) hinv.clen_le]
    refine ⟨_, rfl, respond_answers ?_ ?_ _⟩
    · exact hrsp
    · rfl

/-- With the consumer ready and the payload of a FEED there, a word is answered in one turn. -/
theorem runWord_answers {w : Word} {s : State} (hinv : s.CoreLegal) (h : s.ConsumerReady)
    (hl : ∀ l, decode w = .ok (.feed l) → l ≤ s.dataIn.length) : ∃ t, runWord w s = .next t ∧ s.AnsweredBy t := by
  unfold runWord
  split
  · next i hi =>
    cases i with
    | init b => exact execInit_answers h b
    | feed l => exact execFeed_answers hinv h (hl l hi)
    | flush => exact execFlush_answers hinv h
  · exact ⟨_, rfl, raiseError_answers h.2 rfl _ _⟩

/-- Settles O13: the word is answered in its turn, after which the invariant has nothing in flight. -/
theorem everyWordGetsExactlyOneResponse : Obligations.EveryWordGetsExactlyOneResponse := by
  unfold Obligations.EveryWordGetsExactlyOneResponse
  intro s w ws hinv hs hready hc hl
  have hcore : State.CoreLegal { s with cmdIn := ws } := hinv.core.congr rfl rfl rfl rfl rfl
  obtain ⟨hrem, hsent⟩ := hinv.at_ready hs.2
  obtain ⟨t, ht, hstage, r, hr⟩ := runWord_answers hcore hready hl
  obtain ⟨u, hu, huinv⟩ := runWord_legal hcore hrem hsent w
  obtain rfl : u = t := Host.Outcome.next.inj (hu.symm.trans ht)
  exact ⟨u, r, (step_takes_word hs hc).trans ht, hstage, (huinv.at_ready hstage).1, (runWord_commandTo ht).cmdIn, hr⟩

/-! ## FEEDL -/

section
variable {b : Nat} (hb : 1 ≤ b) {x : List Byte} (hx : x ≠ [])
include hb hx

/-- `split_B` of a sequence is its whole blocks and then a last piece of 1 to `b` bytes (00_scope.md R12). -/
theorem splitBlocks_shape :
    ∃ blocks last, splitBlocks b x = blocks ++ [last] ∧ (∀ p ∈ blocks, p.length = b) ∧
      1 ≤ last.length ∧ last.length ≤ b :=
  ⟨(feedSpec b [] x).1, (feedSpec b [] x).2, (feedSpec_pieces b (c := []) hx).symm,
    feedSpec_block_length hb (Nat.zero_le b),
    List.length_pos_iff.mpr (feedSpec_carry_ne_nil hb (c := []) (Nat.zero_le b) hx),
    feedSpec_carry_le hb (Nat.zero_le b)⟩

theorem splitBlocks_length : (splitBlocks b x).length = (x.length + b - 1) / b := by
  obtain ⟨blocks, last, hsplit, hblocks, hpos, hle⟩ := splitBlocks_shape hb hx
  have hlen : x.length = blocks.length * b + last.length := by
    rw [← splitBlocks_flatten hb x, hsplit, List.flatten_concat, List.length_append, length_flatten_whole hblocks]
  have hsum : x.length + b - 1 = last.length - 1 + (blocks.length + 1) * b := by
    rw [Nat.add_one_mul]
    omega
  rw [hsum, Nat.add_mul_div_right _ _ hb, Nat.div_eq_of_lt (by omega), hsplit]
  simp

theorem length_of_mem_dropLast_splitBlocks : ∀ p ∈ (splitBlocks b x).dropLast, p.length = b := by
  obtain ⟨blocks, last, hsplit, hblocks, -⟩ := splitBlocks_shape hb hx
  rw [hsplit, List.dropLast_concat]
  exact hblocks

theorem length_of_mem_splitBlocks : ∀ p ∈ splitBlocks b x, 1 ≤ p.length ∧ p.length ≤ b := by
  obtain ⟨blocks, last, hsplit, hblocks, hlast⟩ := splitBlocks_shape hb hx
  intro p hp
  rw [hsplit, List.mem_append, List.mem_singleton] at hp
  rcases hp with hp | rfl
  · rw [hblocks p hp]
    exact ⟨hb, Nat.le_refl b⟩
  · exact hlast

end

/-- Settles O45: from `2^28` bytes on FEEDL is `split_B` at the largest chunk. -/
theorem feedlSplitsIntoLargestChunks : Obligations.FeedlSplitsIntoLargestChunks := by
  unfold Obligations.FeedlSplitsIntoLargestChunks
  intro x
  refine ⟨fun h => if_pos h, fun h => ?_⟩
  have hb : 1 ≤ maxChunk := by decide
  have hx : x ≠ [] := List.length_pos_iff.mp (Nat.lt_of_lt_of_le (by decide) h)
  have hsplit : feedlChunks x = splitBlocks maxChunk x := if_neg (Nat.not_lt.mpr h)
  refine ⟨feedlChunks_flatten x, ?_⟩
  rw [hsplit]
  exact ⟨splitBlocks_length hb hx, length_of_mem_dropLast_splitBlocks hb hx, length_of_mem_splitBlocks hb hx⟩

end Sys2Proof.Machine

/-! PROOF. The commands (40_commands.md): what INIT, FEED and FLUSH do and leave unchanged (R80 to R87), the counts of a
session in closed form (R88 to R90, R93), and sessions under any cutting into chunks (R91, R92). -/

namespace Sys2Proof.Machine

/-! ## The command cycle -/

theorem runWord_of_decode {w : Word} {i : Instr} (h : decode w = .ok i) (s : State) : runWord w s = exec i s := by
  simp only [runWord, h]

/-- Settles O8, for the two ways a step is the chunker's turn. -/
theorem stepRunsTheDecodedCommand : Obligations.StepRunsTheDecodedCommand := by
  unfold Obligations.StepRunsTheDecodedCommand
  intro s w ws i hs hc hw
  refine ⟨fun hsched => ?_, fun ms hsched => ?_⟩
  · rw [step_no_move hsched, chunkerTurn_word hs hc, runWord_of_decode hw]
  · rw [step_move hsched]
    exact (chunkerTurn_word (s := { s with schedule := ms }) hs hc).trans (runWord_of_decode hw _)

/-! ## INIT -/

theorem exec_init_error {s : State} {b : Nat} {e : ErrorCode} (h : initError s.phase b s.bMax = some e) :
    exec (.init b) s = .next (raiseError e (zext28 b) s) := by
  simp only [exec, execInit, h]

theorem exec_init_configures {s : State} {b : Nat} (hp : s.phase = .idle) (h1 : 1 ≤ b) (h2 : b ≤ s.bMax) :
    exec (.init b) s = .next (configure b s) := by
  simp only [exec, execInit, (initError_eq_none_iff s.phase b s.bMax).mpr ⟨hp, h1, h2⟩]

/-- What INIT can do: it raises an error, or from IDLE it configures the session. -/
theorem exec_init_cases (b : Nat) (s : State) :
    (∃ e, exec (.init b) s = .next (raiseError e (zext28 b) s)) ∨
    (s.phase = .idle ∧ exec (.init b) s = .next (configure b s)) := by
  cases h : initError s.phase b s.bMax with
  | some e => exact .inl ⟨e, exec_init_error h⟩
  | none =>
    obtain ⟨hp, h1, h2⟩ := (initError_eq_none_iff s.phase b s.bMax).mp h
    exact .inr ⟨hp, exec_init_configures hp h1 h2⟩

/-- Settles O14, check by check. -/
theorem initFollowsItsPseudocode : Obligations.InitFollowsItsPseudocode := by
  unfold Obligations.InitFollowsItsPseudocode
  intro b s
  refine ⟨fun hp => ?_, fun hp => ?_, fun hp h0 => ?_, fun hp h0 hmax => ?_, fun hp h0 hmax => ?_⟩
  · exact exec_init_error (e := .sessionTerminated) (by simp [initError, initPhaseError, hp])
  · exact exec_init_error (e := .reinit) (by rcases hp with hp | hp <;> simp [initError, initPhaseError, hp])
  · exact exec_init_error (e := .configZero) (by simp [initError, initPhaseError, hp, blockSizeError, h0])
  · exact exec_init_error (e := .configAboveMax) (by simp [initError, initPhaseError, hp, blockSizeError, h0, hmax])
  · exact exec_init_configures hp (Nat.one_le_iff_ne_zero.mpr h0) hmax

/-- Settles O15: error entry and the configuration each change only what the frame leaves out. -/
theorem initFrame : Obligations.InitFrame := by
  unfold Obligations.InitFrame
  intro b s t ht
  rcases exec_init_cases b s with ⟨e, he⟩ | ⟨hp, he⟩
  · obtain rfl : _ = t := Host.Outcome.next.inj (he.symm.trans ht)
    simp
  · obtain rfl : _ = t := Host.Outcome.next.inj (he.symm.trans ht)
    simp [hp]

/-! ## FEED -/

/-! ### Absorb -/

/-- Settles O19: a full carry goes out before the byte is written to cell 0, else the byte is written at CLEN. -/
theorem absorbTakesOneByte : Obligations.AbsorbTakesOneByte := by
  unfold Obligations.AbsorbTakesOneByte
  intro b s h0 hb hc hroom
  rcases Nat.lt_or_eq_of_le hc with hlt | hfull
  · exact ⟨_, absorb_room hlt b, Nat.le_add_left 1 s.clen, hlt, rfl, rfl, fun h => absurd h hlt.ne,
      fun _ => ⟨rfl, Memory.read_write_end _ _ _, rfl, rfl, fun i hi => Memory.cell_write_other _ b hi⟩⟩
  · exact ⟨_, absorb_full hfull hb h0 hroom b, Nat.le_refl 1, hb, rfl, rfl,
      fun _ => ⟨rfl, Memory.read_write_end s.carry 0 b, rfl, rfl, fun i hi => Memory.cell_write_other _ b hi⟩,
      fun h => absurd hfull h.ne⟩

/-! ### FEED in ACTIVE -/

theorem startFeed_active (l : Nat) {s : State} (h : s.phase = .active) :
    startFeed l s = { s with rem := l, mode := .absorb, blocks := 0, feedArg := zext28 l, sent := 0 } := by
  simp [startFeed, feedPhaseError, h]

theorem finishFeed_active {s : State} (h : s.phase = .active) : finishFeed s = respond (okWord s.blocks) s := by
  simp [finishFeed, feedPhaseError, h]

/-- A FEED in ACTIVE whose blocks the consumer lets through emits and leaves what FeedSpec says (R86). -/
theorem exec_feed_ready {s : State} {x rest : List Byte} (h : s.FeedReady x rest)
    (hroom : s.dataRoom.grant (feedSpec s.blockSize s.carryBytes x).1.flatten.length =
      (feedSpec s.blockSize s.carryBytes x).1.flatten.length) :
    ∃ t : State,
      exec (.feed x.length) s = .next (respond (okWord (feedSpec s.blockSize s.carryBytes x).1.length) t) ∧
      t.carryBytes = (feedSpec s.blockSize s.carryBytes x).2 ∧
      t = { s with
        dataIn := rest, rem := 0, mode := .absorb, feedArg := zext28 x.length, sent := 0
        blocks := (feedSpec s.blockSize s.carryBytes x).1.length
        dataOut := s.dataOut ++ (feedSpec s.blockSize s.carryBytes x).1.flatten
        dataRoom := s.dataRoom.spend (feedSpec s.blockSize s.carryBytes x).1.flatten.length
        carry := t.carry, clen := t.clen } := by
  obtain ⟨hp, hb, hc, -, hin⟩ := h
  obtain ⟨t, ht, hts, htc, -⟩ := takePayload_absorb
    (s := { s with rem := x.length, mode := .absorb, blocks := 0, feedArg := zext28 x.length, sent := 0 })
    rfl rfl hb hc x rest rfl hroom
  have hphase : t.phase = .active := (congrArg State.phase hts).trans hp
  have hblocks : t.blocks = (feedSpec s.blockSize s.carryBytes x).1.length :=
    (congrArg State.blocks hts).trans (Nat.zero_add _)
  refine ⟨t, ?_, htc, ?_⟩
  · rw [← hin] at ht
    rw [exec, execFeed, startFeed_active x.length hp, ht, finishFeed_active hphase, hblocks]
  · simp only [Nat.zero_add] at hts
    exact hts

/-- Settles O16. -/
theorem feedAgreesWithFeedSpec : Obligations.FeedAgreesWithFeedSpec := by
  unfold Obligations.FeedAgreesWithFeedSpec
  exact fun s x rest h hroom => exec_feed_ready h hroom

/-- Settles O18: with no byte to take the payload loop finishes the FEED, whatever the carry. -/
theorem emptyFeedLeavesTheSession : Obligations.EmptyFeedLeavesTheSession := by
  unfold Obligations.EmptyFeedLeavesTheSession
  intro s hp
  rw [exec, execFeed, startFeed_active 0 hp, takePayload_finished rfl]
  exact congrArg _ (finishFeed_active hp)

/-- A chunk that at most fills the carry joins it (R84). -/
theorem feedSpec_held {b : Nat} {c x : List Byte} (h : c.length + x.length ≤ b) : feedSpec b c x = ([], c ++ x) := by
  by_cases hne : c ++ x = []
  · simp [feedSpec, hne]
  · simp [feedSpec, hne, splitBlocks_short hne (List.length_append ▸ h)]

/-- Settles O20, by what FeedSpec gives for a chunk that fits the carry and for the byte after a full one. -/
theorem fullCarryIsHeldBack : Obligations.FullCarryIsHeldBack := by
  unfold Obligations.FullCarryIsHeldBack
  intro s x rest h
  have ⟨_, hb, _⟩ := h
  refine ⟨fun hfit => ?_, fun b hfull hx hroom => ?_⟩
  · have hspec : feedSpec s.blockSize s.carryBytes x = ([], s.carryBytes ++ x) :=
      feedSpec_held (by rwa [carryBytes_length])
    obtain ⟨t, ht, htc, hts⟩ := exec_feed_ready h (by rw [hspec]; exact Room.grant_zero _)
    rw [hspec] at ht htc hts
    exact ⟨t, ht, (congrArg State.dataOut hts).trans (List.append_nil _), htc, congrArg State.dataIn hts⟩
  · subst hx
    have hspec : feedSpec s.blockSize s.carryBytes [b] = ([s.carryBytes], [b]) := by
      rw [feedSpec_full hb ((carryBytes_length s).trans hfull), feedSpec_nil hb]
    have hlen : [s.carryBytes].flatten.length = s.blockSize := by simpa using hfull
    obtain ⟨t, ht, htc, hts⟩ := exec_feed_ready h (by rw [hspec, hlen]; exact hroom)
    rw [hspec] at ht htc hts
    exact ⟨t, ht, (congrArg State.dataOut hts).trans (by simp), htc, congrArg State.dataIn hts⟩

/-! ### The counts in closed form (R88 to R90) -/

/-- A total is E whole blocks and a carry of 1 to `b` bytes, in one way only. -/
theorem counts_of_total {b k r t : Nat} (h1 : 1 ≤ r) (h2 : r ≤ b) (ht : t = k * b + r) :
    blocksAfter b t = k ∧ carryAfter b t = r := by
  have hpred : t - 1 = r - 1 + k * b := by omega
  rw [blocksAfter, carryAfter, if_neg (by omega), if_neg (by omega), hpred, Nat.add_mul_div_right _ _ (by omega),
    Nat.add_mul_mod_self_right, Nat.div_eq_of_lt (by omega), Nat.mod_eq_of_lt (by omega)]
  omega

theorem carryAfter_eq_zero_iff (b t : Nat) : carryAfter b t = 0 ↔ t = 0 := by
  unfold carryAfter
  split <;> omega

theorem carryAfter_le {b : Nat} (hb : 1 ≤ b) (t : Nat) : carryAfter b t ≤ b := by
  unfold carryAfter
  split
  · omega
  · exact Nat.mod_lt _ hb

/-- Every byte is in an emitted block or in the carry (R89). -/
theorem total_eq_counts (b t : Nat) : t = blocksAfter b t * b + carryAfter b t := by
  unfold blocksAfter carryAfter
  split
  · omega
  · have := Nat.div_add_mod' (t - 1) b
    omega

/-- `l` bytes after a total `n` emit what they emit after the carry that `n` leaves. -/
theorem blocksAfter_add {b : Nat} (hb : 1 ≤ b) (n l : Nat) :
    blocksAfter b (n + l) = blocksAfter b n + blocksAfter b (carryAfter b n + l) := by
  have hn := total_eq_counts b n
  have ht := total_eq_counts b (carryAfter b n + l)
  by_cases h0 : carryAfter b n + l = 0
  · obtain ⟨hcarry, rfl⟩ := Nat.add_eq_zero_iff.mp h0
    obtain rfl := (carryAfter_eq_zero_iff b n).mp hcarry
    rfl
  · have hpos := Nat.one_le_iff_ne_zero.mpr (mt (carryAfter_eq_zero_iff b (carryAfter b n + l)).mp h0)
    refine (counts_of_total hpos (carryAfter_le hb _) ?_).1
    rw [Nat.add_mul]
    omega

section
variable {b : Nat} (hb : 1 ≤ b) {c x : List Byte} (hc : c.length ≤ b)
include hb hc

/-- FeedSpec's counts are those of the total of the carry and the chunk. -/
theorem feedSpec_counts :
    (feedSpec b c x).1.length = blocksAfter b (c.length + x.length) ∧
    (feedSpec b c x).2.length = carryAfter b (c.length + x.length) := by
  by_cases hne : c ++ x = []
  · obtain ⟨rfl, rfl⟩ := List.append_eq_nil_iff.mp hne
    exact ⟨rfl, rfl⟩
  · have hlen := congrArg List.length (feedSpec_flatten hb (x := x) hc)
    rw [List.length_append, List.length_append, length_flatten_whole (feedSpec_block_length hb hc)] at hlen
    obtain ⟨hk, hr⟩ := counts_of_total (List.length_pos_iff.mpr (feedSpec_carry_ne_nil hb hc hne))
      (feedSpec_carry_le hb hc) hlen.symm
    exact ⟨hk.symm, hr.symm⟩

theorem feedSpec_flatten_length :
    (feedSpec b c x).1.flatten.length = blocksAfter b (c.length + x.length) * b := by
  rw [length_flatten_whole (feedSpec_block_length hb hc), (feedSpec_counts hb hc).1]

end

/-- A FEED of `l` bytes emits at most `ceil(l / b)` blocks, from a full carry (R90). -/
theorem blocksAfter_le {b c : Nat} (hc : c ≤ b) (l : Nat) : blocksAfter b (c + l) ≤ (b + l - 1) / b := by
  unfold blocksAfter
  split
  · exact Nat.zero_le _
  · exact Nat.div_le_div_right (by omega)

theorem ceil_le {b : Nat} (hb : 1 ≤ b) (l : Nat) : (b + l - 1) / b ≤ l := by
  have hmul : l ≤ l * b := Nat.le_mul_of_pos_right l hb
  rw [← Nat.lt_succ_iff, Nat.div_lt_iff_lt_mul hb, Nat.succ_mul]
  omega

/-- Settles O17: the closed form is E of the carry and the chunk, and `E(n + L) = E(n) + E(CLEN + L)`. -/
theorem feedBlockCountIsTheClosedForm : Obligations.FeedBlockCountIsTheClosedForm := by
  unfold Obligations.FeedBlockCountIsTheClosedForm
  intro s x rest k h hroom hk
  have ⟨_, hb, hc, hx, _⟩ := h
  replace hk : k = blocksAfter s.blockSize (s.clen + x.length) := hk
  have hceil : k ≤ (s.blockSize + x.length - 1) / s.blockSize := hk ▸ blocksAfter_le hc x.length
  refine ⟨hceil, (hceil.trans (ceil_le hb x.length)).trans_lt hx, fun n hn => ?_, ?_⟩
  · rw [blocksAfter_add hb, hn, hk, Nat.add_sub_cancel_left]
  · have hc' : s.carryBytes.length ≤ s.blockSize := (carryBytes_length s).trans_le hc
    obtain ⟨t, ht, -, hts⟩ := exec_feed_ready h (by rw [hroom]; rfl)
    rw [(feedSpec_counts hb hc').1, carryBytes_length, ← hk] at ht
    refine ⟨t, (feedSpec s.blockSize s.carryBytes x).1.flatten, ht, congrArg State.dataOut hts, ?_⟩
    rw [feedSpec_flatten_length hb hc', carryBytes_length, ← hk]

/-! ### What FEED leaves unchanged -/

/-- A drained FEED with too few payload bytes takes them and waits in DataIn. -/
theorem takePayload_drain_short {s : State} (hm : s.mode = .drain) {x : List Byte} (hx : x.length < s.rem) :
    takePayload x s = .next { s with dataIn := [], rem := s.rem - x.length, stage := .payload } := by
  induction x generalizing s with
  | nil =>
    rw [takePayload, if_neg (Nat.ne_zero_of_lt hx)]
    rfl
  | cons b x ih =>
    rw [takePayload_cons (Nat.ne_zero_of_lt hx) (usePayloadByte_drain (by exact hm) b),
      ih (s := { s with dataIn := x, rem := s.rem - 1 }) hm (Nat.lt_sub_of_add_lt hx)]
    simp only [List.length_cons, Nat.sub_sub, Nat.add_comm 1]

/-- A FEED outside ACTIVE drains its payload and raises an error, or waits for more payload (60_exceptions.md R142). -/
theorem exec_feed_rejected_cases (l : Nat) {s : State} (h : s.phase ≠ .active) :
    (∃ e, exec (.feed l) s = .next (raiseError e (zext28 l)
      { s with dataIn := s.dataIn.drop l, rem := 0, mode := .drain, feedArg := zext28 l, sent := 0 })) ∨
    exec (.feed l) s = .next { s with
      dataIn := [], rem := l - s.dataIn.length, mode := .drain, feedArg := zext28 l, sent := 0, stage := .payload } := by
  obtain ⟨e, he⟩ : ∃ e, feedPhaseError s.phase = some e := by
    cases hp : s.phase <;> simp [feedPhaseError, hp] at h ⊢
  have hstart : startFeed l s = { s with rem := l, mode := .drain, feedArg := zext28 l, sent := 0 } := by
    simp only [startFeed, he]
  rw [exec, execFeed, hstart]
  rcases Nat.lt_or_ge s.dataIn.length l with hlt | hle
  · exact .inr (takePayload_drain_short rfl hlt)
  · refine .inl ⟨e, ?_⟩
    have hloop := takePayload_drain (s := { s with rem := l, mode := .drain, feedArg := zext28 l, sent := 0 }) rfl
      (s.dataIn.take l) (s.dataIn.drop l) (by simpa using hle)
    rw [List.take_append_drop] at hloop
    rw [hloop]
    simp only [finishFeed, he]

/-- `u` is a FEED of `l` bytes begun in ACTIVE in `s` that has absorbed `n` of them: byte j went to the cell
`(CLEN + j) mod B` (R83). -/
structure State.AbsorbedTo (s : State) (l n : Nat) (u : State) : Prop where
  rem : n + u.rem = l
  phase : u.phase = s.phase
  bsize : u.bsize = s.bsize
  bMax : u.bMax = s.bMax
  mode : u.mode = .absorb
  clen : u.clen % s.blockSize = (s.clen + n) % s.blockSize
  cells : ∀ i, (∀ j < n, i ≠ (s.clen + j) % s.blockSize) → u.carry.cell i = s.carry.cell i

theorem startFeed_absorbedTo (l : Nat) {s : State} (h : s.phase = .active) : s.AbsorbedTo l 0 (startFeed l s) where
  rem := by simp
  phase := by simp
  bsize := by simp
  bMax := by simp
  mode := by simp [startFeed_mode, h]
  clen := by simp
  cells := by simp

/-- An absorbed byte is written to the cell `CLEN mod B`, after which CLEN is one more modulo B. -/
theorem absorb_of_done {b : Byte} {s t : State} (h : absorb b s = .done t) :
    t.carry = s.carry.write (s.clen % s.blockSize) b ∧ t.clen % s.blockSize = (s.clen + 1) % s.blockSize ∧
      t.phase = s.phase ∧ t.bsize = s.bsize ∧ t.bMax = s.bMax ∧ t.mode = s.mode ∧ t.rem = s.rem := by
  rcases absorb_cases b s with ⟨-, ha⟩ | ⟨hfull, ha⟩
  · rcases appendCarry_cases b s with ⟨hlt, he⟩ | ⟨-, he⟩
    · obtain rfl : _ = t := by simpa [ha, he] using h
      rw [Nat.mod_eq_of_lt hlt]
      exact ⟨rfl, rfl, rfl, rfl, rfl, rfl, rfl⟩
    · simp [ha, he] at h
  · rcases absorbOnFull_cases b s with ⟨-, -, he⟩ | ⟨-, he⟩ | ⟨-, he⟩
    · obtain rfl : _ = t := by simpa [ha, he] using h
      rw [hfull, Nat.mod_self, Nat.add_mod_left]
      exact ⟨rfl, rfl, rfl, rfl, rfl, rfl, rfl⟩
    · simp [ha, he] at h
    · simp [ha, he] at h

theorem State.AbsorbedTo.next_byte {s u v : State} {l n : Nat} (h : s.AbsorbedTo l n u) (h0 : u.rem ≠ 0) {b : Byte}
    {d : List Byte} (hv : usePayloadByte b { u with dataIn := d, rem := u.rem - 1 } = .done v) :
    s.AbsorbedTo l (n + 1) v := by
  rw [usePayloadByte_absorb (s := { u with dataIn := d, rem := u.rem - 1 }) h.mode] at hv
  obtain ⟨hcarry, hclen, hphase, hbsize, hbMax, hmode, hrem⟩ := absorb_of_done hv
  have hB : ({ u with dataIn := d, rem := u.rem - 1 } : State).blockSize = s.blockSize := congrArg BitVec.toNat h.bsize
  have hl := h.rem
  rw [hB] at hcarry hclen
  refine ⟨?_, hphase.trans h.phase, hbsize.trans h.bsize, hbMax.trans h.bMax, hmode.trans h.mode, ?_, fun i hi => ?_⟩
  · simp only at hrem
    omega
  · rw [hclen, Nat.add_mod, h.clen, ← Nat.add_mod, Nat.add_assoc]
  · have hne : i ≠ u.clen % s.blockSize := h.clen ▸ hi n (Nat.lt_succ_self n)
    rw [hcarry, Memory.cell_write_other _ b hne]
    exact h.cells i fun j hj => hi j (Nat.lt_succ_of_lt hj)

/-- What FEED in ACTIVE leaves unchanged. -/
structure State.FeedFrame (s : State) (l : Nat) (t : State) : Prop where
  phase : t.phase = s.phase
  bsize : t.bsize = s.bsize
  bMax : t.bMax = s.bMax
  cells : ∀ i, (∀ j < l, i ≠ (s.clen + j) % s.blockSize) → t.carry.cell i = s.carry.cell i

theorem State.AbsorbedTo.feedFrame {s u t : State} {l n : Nat} (h : s.AbsorbedTo l n u)
    (h1 : t.phase = u.phase) (h2 : t.bsize = u.bsize) (h3 : t.bMax = u.bMax) (h4 : t.carry = u.carry) :
    s.FeedFrame l t where
  phase := h1.trans h.phase
  bsize := h2.trans h.bsize
  bMax := h3.trans h.bMax
  cells i hi := h4 ▸ h.cells i fun j hj => hi j (Nat.lt_of_lt_of_le hj (Nat.le.intro h.rem))

theorem exec_feed_active_frame {l : Nat} {s t : State} (hp : s.phase = .active) (ht : exec (.feed l) s = .next t) :
    s.FeedFrame l t := by
  obtain ⟨bs, u, ⟨n, hu⟩, hend⟩ := takePayload_next (P := fun _ u => ∃ n, s.AbsorbedTo l n u)
    (fun _ _ _ _ ⟨n, hu⟩ h0 hv => ⟨n + 1, hu.next_byte h0 hv⟩) ⟨0, startFeed_absorbedTo l hp⟩ ht
  rcases hend with ⟨-, rfl⟩ | ⟨-, -, rfl⟩ | ⟨b, bs, -, -, hw⟩
  · rw [finishFeed_active (by exact hu.phase.trans hp)]
    exact hu.feedFrame (by simp) (by simp) (by simp) (by simp)
  · exact hu.feedFrame rfl rfl rfl rfl
  · obtain ⟨-, -, -, rfl⟩ := usePayloadByte_wait hw
    exact hu.feedFrame rfl rfl rfl rfl

/-- Settles O25: in ACTIVE byte by byte, elsewhere by the two ends of a drained FEED. -/
theorem feedFrame : Obligations.FeedFrame := by
  unfold Obligations.FeedFrame
  intro l s t ht
  have hcmd := exec_commandTo ht
  by_cases hp : s.phase = .active
  · have h := exec_feed_active_frame hp ht
    exact ⟨h.cells, h.bsize, hcmd.cmdIn, h.bMax, hcmd.schedule, fun _ => h.phase.trans hp, fun hne => absurd hp hne⟩
  · rcases exec_feed_rejected_cases l hp with ⟨e, he⟩ | he
    · obtain rfl : _ = t := Host.Outcome.next.inj (he.symm.trans ht)
      simp [hp]
    · obtain rfl : _ = t := Host.Outcome.next.inj (he.symm.trans ht)
      simp [hp]

/-! ## FLUSH -/

theorem exec_flush_error {s : State} {e : ErrorCode} (h : flushPhaseError s.phase = some e) :
    exec .flush s = .next (raiseError e 0 s) := by
  simp only [exec, execFlush, h]

/-- A FLUSH in ACTIVE whose tail the consumer lets through ends the session (R82). -/
theorem exec_flush_done {s : State} (hp : s.phase = .active) (hc : s.clen ≤ s.blockSize)
    (hroom : s.dataRoom.grant s.clen = s.clen) :
    exec .flush s = .next (respond (okWord s.clen) { s with
      dataOut := s.dataOut ++ s.carryBytes, dataRoom := s.dataRoom.spend s.clen, sent := 0
      clen := 0, phase := .flushed }) := by
  have he := emitCarry_done (s := { s with sent := 0 }) hc (Nat.zero_le _) hroom
  rw [exec_flush_active hp]
  simp only [emitTail, he]
  rfl

/-- Settles O26, phase by phase. -/
theorem flushFollowsItsPseudocode : Obligations.FlushFollowsItsPseudocode := by
  unfold Obligations.FlushFollowsItsPseudocode
  intro s
  refine ⟨fun hp => ?_, fun hp => ?_, fun hp => ?_, fun hp hc hroom => exec_flush_done hp hc hroom⟩
  · exact exec_flush_error (e := .sessionTerminated) (by rw [hp]; rfl)
  · exact exec_flush_error (e := .notConfigured) (by rw [hp]; rfl)
  · exact exec_flush_error (e := .flushTwice) (by rw [hp]; rfl)

/-- What FLUSH's Emit leaves: an ended session, or a wait. -/
theorem emitTail_next {s t : State} (ht : emitTail s = .next t) :
    t = respond (okWord s.clen) { placeCarry s.clen s with sent := 0, clen := 0, phase := .flushed } ∨
    t = { placeCarry s.clen s with stage := .flushEmit } := by
  rcases emitCarry_cases s.clen s with ⟨-, -, he⟩ | ⟨-, -, he⟩ | ⟨-, he⟩
  · exact .inl (by simpa [emitTail, he] using ht.symm)
  · exact .inr (by simpa [emitTail, he] using ht.symm)
  · simp [emitTail, he] at ht

/-- Settles O28: error entry, the ended session and the wait each change only what the frame leaves out. -/
theorem flushFrame : Obligations.FlushFrame := by
  unfold Obligations.FlushFrame
  intro s t ht
  cases he : flushPhaseError s.phase with
  | some e =>
    obtain rfl : _ = t := Host.Outcome.next.inj ((exec_flush_error he).symm.trans ht)
    simp
  | none =>
    have hp := (flushPhaseError_eq_none_iff s.phase).mp he
    rw [exec_flush_active hp] at ht
    rcases emitTail_next ht with rfl | rfl
    · simp [hp]
    · simp [hp]

/-! ## Sessions -/

/-- A session in progress with block size `b` and carry `c`, and a consumer that holds nothing back. -/
structure State.InSession (b : Nat) (c : List Byte) (s : State) : Prop where
  active : s.phase = .active
  ready : s.ConsumerReady
  blockSize : s.blockSize = b
  carryBytes : s.carryBytes = c
  pos : 1 ≤ b
  le : c.length ≤ b

theorem State.InSession.clen {b : Nat} {c : List Byte} {s : State} (h : s.InSession b c) : s.clen = c.length := by
  rw [← carryBytes_length, h.carryBytes]

/-- A response placed for a ready consumer leaves the session as it is. -/
theorem respond_inSession {b : Nat} {c : List Byte} {s : State} (h : s.InSession b c) (w : Word) :
    (respond w s).InSession b c := by
  obtain ⟨hp, ⟨hdata, hrsp⟩, hb, hc, h1, h2⟩ := h
  rw [respond_placed (by simp [hrsp])]
  exact ⟨hp, ⟨hdata, by simp [hrsp]⟩, hb, hc, h1, h2⟩

/-- INIT begins a session with an empty carry. -/
theorem configure_inSession {b : Nat} {s : State} (h : s.ConsumerReady) (h1 : 1 ≤ b) (hb : b < 2 ^ 28) :
    (configure b s).InSession b [] :=
  respond_inSession (s := { s with bsize := zext28 b, clen := 0, phase := .active })
    ⟨rfl, h, zext28_toNat hb, rfl, h1, Nat.zero_le b⟩ _

/-- One chunk emits and leaves what FeedSpec says. -/
theorem feedChunk_inSession {b : Nat} {c x : List Byte} {s : State} (h : s.InSession b c) (hx : x.length < 2 ^ 28) :
    ∃ t, feedChunk x s = .next t ∧ t.InSession b (feedSpec b c x).2 ∧
      t.dataOut = s.dataOut ++ (feedSpec b c x).1.flatten := by
  obtain ⟨hp, ⟨hdata, hrsp⟩, rfl, rfl, h1, h2⟩ := h
  obtain ⟨t, ht, htc, hts⟩ := exec_feed_ready (s := { s with dataIn := x }) (x := x) (rest := [])
    ⟨hp, h1, (carryBytes_length s).symm.trans_le h2, hx, (List.append_nil x).symm⟩ (by simp [hdata])
  have hroom : t.dataRoom = .unlimited := (congrArg State.dataRoom hts).trans (by simp [hdata])
  have hbsize := congrArg State.bsize hts
  have hsess : t.InSession s.blockSize (feedSpec s.blockSize s.carryBytes x).2 :=
    ⟨(congrArg State.phase hts).trans hp, ⟨hroom, (congrArg State.rspRoom hts).trans hrsp⟩,
      congrArg BitVec.toNat hbsize, htc, h1, feedSpec_carry_le h1 h2⟩
  exact ⟨_, ht, respond_inSession hsess _, (respond_dataOut _ t).trans (congrArg State.dataOut hts)⟩

/-- Chunks in a row emit and leave what FeedSpec says of their concatenation (R91). -/
theorem feedChunks_inSession {b : Nat} {c : List Byte} {xs : List (List Byte)} {s : State} (h : s.InSession b c)
    (hx : ∀ x ∈ xs, x.length < 2 ^ 28) :
    ∃ t, feedChunks xs s = .next t ∧ t.InSession b (feedSpec b c xs.flatten).2 ∧
      t.dataOut = s.dataOut ++ (feedSpec b c xs.flatten).1.flatten := by
  induction xs generalizing c s with
  | nil =>
    rw [List.flatten_nil, feedSpec_nil h.le]
    exact ⟨s, rfl, h, (List.append_nil _).symm⟩
  | cons x xs ih =>
    obtain ⟨hx1, hx2⟩ := List.forall_mem_cons.mp hx
    obtain ⟨t, ht, hsess, hout⟩ := feedChunk_inSession h hx1
    obtain ⟨u, hu, hsess', hout'⟩ := ih hsess hx2
    rw [List.flatten_cons, feedSpec_append_chunks h.pos _ h.le]
    refine ⟨u, ?_, hsess', ?_⟩
    · simp only [feedChunks, ht, hu]
    · rw [hout', hout, List.flatten_append, List.append_assoc]

/-- FLUSH ends the session: the carry goes out, and the response counts it (R82). -/
theorem exec_flush_inSession {b : Nat} {c : List Byte} {s : State} (h : s.InSession b c) :
    ∃ t, exec .flush s = .next t ∧ t.phase = .flushed ∧ t.clen = 0 ∧ t.dataOut = s.dataOut ++ c ∧
      t.rspOut = s.rspOut ++ [okWord c.length] := by
  obtain ⟨hdata, hrsp⟩ := h.ready
  have hrun := exec_flush_done h.active (by rw [h.clen, h.blockSize]; exact h.le) (by rw [hdata]; rfl)
  rw [h.carryBytes, h.clen, respond_placed (by simp [hrsp])] at hrun
  exact ⟨_, hrun, rfl, rfl, rfl, rfl⟩

/-- INIT and FEEDs from IDLE, with a ready consumer: the state after INIT and the state after the FEEDs. -/
theorem session_fed {b : Nat} {xs : List (List Byte)} {s : State} (hp : s.phase = .idle) (h1 : 1 ≤ b)
    (h2 : b ≤ s.bMax) (hmax : s.bMax ≤ 2 ^ 28 - 1) (hready : s.ConsumerReady) (hx : ∀ x ∈ xs, x.length < 2 ^ 28) :
    ∃ t u, exec (.init b) s = .next t ∧ feedChunks xs t = .next u ∧ u.InSession b (feedSpec b [] xs.flatten).2 ∧
      u.dataOut = s.dataOut ++ (feedSpec b [] xs.flatten).1.flatten := by
  obtain ⟨u, hu, hsess, hout⟩ := feedChunks_inSession (configure_inSession (s := s) hready h1 (by omega)) hx
  rw [configure_dataOut] at hout
  exact ⟨_, u, exec_init_configures hp h1 h2, hu, hsess, hout⟩

theorem runSession_of_steps {b : Nat} {xs : List (List Byte)} {s t u : State} (ht : exec (.init b) s = .next t)
    (hu : feedChunks xs t = .next u) : runSession b xs s = exec .flush u := by
  simp only [runSession, ht, hu]

section
variable {b : Nat} (hb : 1 ≤ b) (x : List Byte)
include hb

/-- What FeedSpec emits and leaves from an empty carry: the first E blocks of the bytes fed, and the rest. -/
theorem feedSpec_nil_carry :
    (feedSpec b [] x).1.flatten = x.take (blocksAfter b x.length * b) ∧
    (feedSpec b [] x).2 = x.drop (blocksAfter b x.length * b) := by
  have hlen := feedSpec_flatten_length hb (c := []) (x := x) (Nat.zero_le b)
  rw [List.length_nil, Nat.zero_add] at hlen
  have happ : (feedSpec b [] x).1.flatten ++ (feedSpec b [] x).2 = x := feedSpec_flatten hb (c := []) (Nat.zero_le b)
  have htake := List.take_left' (l₂ := (feedSpec b [] x).2) hlen
  have hdrop := List.drop_left' (l₂ := (feedSpec b [] x).2) hlen
  rw [happ] at htake hdrop
  exact ⟨htake.symm, hdrop.symm⟩

theorem feedSpec_nil_carry_length : (feedSpec b [] x).2.length = carryAfter b x.length := by
  simpa using (feedSpec_counts hb (c := []) (x := x) (Nat.zero_le b)).2

end

/-- Settles O40: FeedSpec from the empty carry that INIT leaves, on the concatenation of the chunks. -/
theorem sessionCountsFollowTheTotal : Obligations.SessionCountsFollowTheTotal := by
  unfold Obligations.SessionCountsFollowTheTotal
  intro b xs s hp h1 h2 hmax hready hx
  obtain ⟨t, u, ht, hu, hsess, hout⟩ := session_fed hp h1 h2 hmax hready hx
  have hclen : u.clen = carryAfter b xs.flatten.length := hsess.clen.trans (feedSpec_nil_carry_length h1 _)
  refine ⟨t, u, ht, hu, hsess.active, hclen, ?_, ?_, ?_⟩
  · rw [hout, (feedSpec_nil_carry h1 _).1]
  · rw [hsess.carryBytes, (feedSpec_nil_carry h1 _).2]
  · rw [hclen]
    exact total_eq_counts b _

/-- Settles O41: either cutting does what FeedSpec says of the concatenation. -/
theorem chunkBoundariesDoNotMatter : Obligations.ChunkBoundariesDoNotMatter := by
  unfold Obligations.ChunkBoundariesDoNotMatter
  intro xs ys s hp h1 h2 hready hx hy hxy
  have h : s.InSession s.blockSize s.carryBytes := ⟨hp, hready, rfl, rfl, h1, (carryBytes_length s).trans_le h2⟩
  obtain ⟨t, ht, hsess, hout⟩ := feedChunks_inSession h hx
  obtain ⟨u, hu, hsess', hout'⟩ := feedChunks_inSession h hy
  rw [← hxy] at hsess' hout'
  obtain ⟨t', ht', -, -, htail, -⟩ := exec_flush_inSession hsess
  obtain ⟨u', hu', -, -, htail', -⟩ := exec_flush_inSession hsess'
  refine ⟨t, u, t', u', ht, hu, hout.trans hout'.symm, hsess.carryBytes.trans hsess'.carryBytes.symm, ht', hu', ?_⟩
  rw [htail, htail', hout, hout']

/-- Settles O42: the emitted blocks and the tail are together the bytes fed. -/
theorem sessionReturnsTheBytesFed : Obligations.SessionReturnsTheBytesFed := by
  unfold Obligations.SessionReturnsTheBytesFed
  intro b xs s hp h1 h2 hmax hready hx
  obtain ⟨t, u, ht, hu, hsess, hout⟩ := session_fed hp h1 h2 hmax hready hx
  obtain ⟨v, hv, hphase, hclen, htail, -⟩ := exec_flush_inSession hsess
  refine ⟨v, (runSession_of_steps ht hu).trans hv, hphase, hclen, ?_⟩
  rw [htail, hout, List.append_assoc, feedSpec_flatten h1 (c := []) (Nat.zero_le b), List.nil_append]

/-- A positive multiple of `b` leaves a full carry (R93). -/
theorem carryAfter_mul {b n : Nat} (hb : 1 ≤ b) (hn : 1 ≤ n) : carryAfter b (n * b) = b := by
  obtain ⟨m, rfl⟩ := Nat.exists_eq_add_of_le' hn
  exact (counts_of_total hb (Nat.le_refl b) (Nat.succ_mul m b)).2

/-- Settles O43: the tail is the carry that the total leaves. -/
theorem tailLengthFollowsTheTotal : Obligations.TailLengthFollowsTheTotal := by
  unfold Obligations.TailLengthFollowsTheTotal
  intro b xs s hp h1 h2 hmax hready hx
  obtain ⟨c, u, hc, hu, hsess, -⟩ := session_fed hp h1 h2 hmax hready hx
  obtain ⟨t, ht, -, -, htail, hrsp⟩ := exec_flush_inSession hsess
  have hlen := feedSpec_nil_carry_length h1 xs.flatten
  rw [hlen] at hrsp
  refine ⟨c, u, t, (feedSpec b [] xs.flatten).2, carryAfter b xs.flatten.length, hc, hu, ht,
    (runSession_of_steps hc hu).trans ht, htail, hlen, hrsp, carryAfter_eq_zero_iff b _, fun hne => ?_,
    fun n hn hT => ?_⟩
  · have hval : carryAfter b xs.flatten.length = (xs.flatten.length - 1) % b + 1 := if_neg hne
    exact ⟨hval, hval ▸ Nat.le_add_left 1 _, carryAfter_le h1 _⟩
  · rw [hT]
    exact carryAfter_mul h1 hn

end Sys2Proof.Machine

/-! PROOF. The client profiles (41_client_profiles.md): what a client checks before INIT (R111), its session through the
command cycle and after a reset of any chunker (R119), SHA-1's padding and sessions (R112, R113), OFB sessions (R114,
R115), and XXTEA sessions both ways (R116, R117). -/

namespace Sys2Proof.Machine

/-! ## The client's own check (R111) -/

theorem xxteaBlockLegal_iff (b : Nat) : xxteaBlockLegal b = true ↔ 8 ≤ b ∧ 4 ∣ b := by
  simp [xxteaBlockLegal, Nat.dvd_iff_mod_eq_zero]

theorem Client.opening_illegal {c : Client} (h : c.configLegal = false) : c.opening = .error .configuration := by
  simp [Client.opening, h]

theorem Client.opening_legal {c : Client} (h : c.configLegal = true) (hb : c.blockSize < 2 ^ 28) :
    c.opening = .ok ⟨encode (.init c.blockSize), []⟩ := by
  rw [Client.opening, if_pos h, if_pos ((wellFormed_init_iff _).mpr hb)]

theorem Client.session_legal {c : Client} (h : c.configLegal = true) (hb : c.blockSize < 2 ^ 28)
    (lengthField : Vector Byte 8) (chunks : List (List Byte)) :
    c.session lengthField chunks = .ok (.reset :: (c.commands lengthField chunks).flatMap Sent.moves) := by
  rw [Client.session, Client.opening_legal h hb]
  rfl

/-- Settles O51, client by client, and then for the session that the check stops or lets begin. -/
theorem clientChecksItsBlockSizeBeforeInit : Obligations.ClientChecksItsBlockSizeBeforeInit := by
  unfold Obligations.ClientChecksItsBlockSizeBeforeInit
  refine ⟨⟨rfl, rfl⟩, fun b => ⟨xxteaBlockLegal_iff b, xxteaBlockLegal_iff b⟩, fun n b => ⟨?_, ?_⟩,
    fun α c lengthField chunks own s => ⟨fun hill => ?_, fun hlegal hready hmax h1 h2 => ?_⟩⟩
  · rw [Client.configLegal, Bool.and_eq_true, decide_eq_true_eq]
    exact and_congr_right fun _ => xxteaBlockLegal_iff b
  · rw [Client.configLegal, Bool.and_eq_true, decide_eq_true_eq]
    exact and_iff_left rfl
  · rw [Client.session, Client.start, Client.opening_illegal hill]
    exact ⟨rfl, rfl⟩
  · obtain ⟨t, ht, hphase, -, -, -, -, -, -, hsize, -⟩ := Client.start_ok hlegal hready hmax h1 h2 own
    exact ⟨Client.session_legal hlegal (by omega) lengthField chunks, _, ht, rfl, hphase, hsize⟩

/-! ## FeedSpec from the empty carry of a new session -/

section
variable {b : Nat} (hb : 1 ≤ b) (x : List Byte)
include hb

theorem feedSpec_nil_flatten : (feedSpec b [] x).1.flatten ++ (feedSpec b [] x).2 = x :=
  feedSpec_flatten hb (c := []) (Nat.zero_le b)

theorem feedSpec_nil_block_length : ∀ p ∈ (feedSpec b [] x).1, p.length = b :=
  feedSpec_block_length hb (Nat.zero_le b)

theorem feedSpec_nil_length : x.length = (feedSpec b [] x).1.length * b + (feedSpec b [] x).2.length := by
  rw [← length_flatten_whole (feedSpec_nil_block_length hb x), ← List.length_append, feedSpec_nil_flatten hb]

/-- The pieces of the bytes fed and `y`: the emitted blocks, then the pieces of the carry and `y` (R12). -/
theorem splitBlocks_feedSpec_append {y : List Byte} (hy : (feedSpec b [] x).2 ++ y ≠ []) :
    splitBlocks b (x ++ y) = (feedSpec b [] x).1 ++ splitBlocks b ((feedSpec b [] x).2 ++ y) := by
  rw [← splitBlocks_whole hb (feedSpec_nil_block_length hb x) hy, ← List.append_assoc, feedSpec_nil_flatten hb]

/-- The blocks emitted are the first E pieces of the bytes fed (R88). -/
theorem feedSpec_nil_blocks : (feedSpec b [] x).1 = (splitBlocks b x).take (blocksAfter b x.length) := by
  have hcount : (feedSpec b [] x).1.length = blocksAfter b x.length := by
    simpa using (feedSpec_counts hb (c := []) (x := x) (Nat.zero_le b)).1
  by_cases hx : x = []
  · subst hx
    rfl
  · have hpieces : (feedSpec b [] x).1 ++ [(feedSpec b [] x).2] = splitBlocks b x := feedSpec_pieces b (c := []) hx
    rw [← hpieces, List.take_left' hcount]

end

/-- Whole blocks leave the last of them in the carry (R84). -/
theorem feedSpec_nil_whole {b : Nat} (hb : 1 ≤ b) {ps : List (List Byte)} (hps : ∀ p ∈ ps, p.length = b) {q : List Byte}
    (hq : q.length = b) : feedSpec b [] (ps ++ [q]).flatten = (ps, q) := by
  have hqne : q ≠ [] := List.length_pos_iff.mp (hq ▸ hb)
  have hpieces := feedSpec_pieces b (c := []) (x := (ps ++ [q]).flatten) (by simp [hqne])
  rw [List.nil_append, List.flatten_append, List.flatten_singleton, splitBlocks_whole hb hps hqne,
    splitBlocks_short hqne hq.le] at hpieces
  rw [List.flatten_append, List.flatten_singleton]
  obtain ⟨h1, h2⟩ := List.append_inj' hpieces rfl
  exact Prod.ext h1 (List.singleton_inj.mp h2)

/-! ## A session through the command cycle (R119) -/

/-! The commands that wait on the input channels are run one a step. -/

/-- The session `InSession b c` between two commands, with the commands `cs` and nothing else on the input channels. -/
structure State.Queued (b : Nat) (c : List Byte) (cs : List Sent) (s : State) : Prop where
  session : s.InSession b c
  takes : s.TakesCommand
  cmdIn : s.cmdIn = cs.map Sent.word
  dataIn : s.dataIn = cs.flatMap Sent.payload

/-- `t` is a step of `s` that answers one command and places `out` on DATA_OUT. -/
structure State.RunsCommand (s : State) (out : List Byte) (t : State) : Prop where
  step : step s = .next t
  dataOut : t.dataOut = s.dataOut ++ out
  rspOut : t.rspOut.length = s.rspOut.length + 1

/-- The word of a well-formed command, at the head of CMD_IN where the chunker takes it, runs that command. -/
theorem step_runs_command {s : State} {i : Instr} (hi : i.WellFormed) (h : s.TakesCommand) {ws : List Word}
    (hc : s.cmdIn = encode i :: ws) : step s = exec i { s with cmdIn := ws } := by
  rw [step_takes_word h hc, runWord_of_decode (decodeOfEncodeIsTheCommand i hi)]

/-- A ready consumer lets the response through, and the next turn takes the next command. -/
theorem respond_ready {s : State} (h : s.ConsumerReady) (w : Word) :
    (respond w s).stage = .ready ∧ (respond w s).rspOut = s.rspOut ++ [w] := by
  rw [respond_placed (by rw [h.2]; rfl)]
  exact ⟨rfl, rfl⟩

theorem step_init_queued {b : Nat} {cs : List Sent} {s : State} (hp : s.phase = .idle) (h : s.TakesCommand)
    (hready : s.ConsumerReady) (hc : s.cmdIn = encode (.init b) :: cs.map Sent.word)
    (hd : s.dataIn = cs.flatMap Sent.payload) (h1 : 1 ≤ b) (h2 : b ≤ s.bMax) (hmax : s.bMax ≤ 2 ^ 28 - 1) :
    ∃ t, s.RunsCommand [] t ∧ t.Queued b [] cs := by
  have hb : b < 2 ^ 28 := by omega
  have hrun := step_runs_command ((wellFormed_init_iff b).mpr hb) h hc
  rw [exec_init_configures (s := { s with cmdIn := cs.map Sent.word }) hp h1 h2] at hrun
  obtain ⟨hstage, hrsp⟩ := respond_ready
    (s := { s with cmdIn := cs.map Sent.word, bsize := zext28 b, clen := 0, phase := .active }) hready (okWord b)
  refine ⟨_, ⟨hrun, ?_, (congrArg List.length hrsp).trans List.length_append⟩, configure_inSession hready h1 hb,
    ⟨?_, hstage⟩, configure_cmdIn b _, ?_⟩
  · exact (configure_dataOut b _).trans (List.append_nil _).symm
  · exact (configure_schedule b _).trans h.1
  · exact (configure_dataIn b _).trans hd

theorem step_feed_queued {b : Nat} {c x : List Byte} {cs : List Sent} {s : State}
    (h : s.Queued b c (sendChunk x :: cs)) (hx : x.length < 2 ^ 28) :
    ∃ t, s.RunsCommand (feedSpec b c x).1.flatten t ∧ t.Queued b (feedSpec b c x).2 cs := by
  obtain ⟨⟨hp, ⟨hdata, hrsp⟩, rfl, rfl, h1, h2⟩, htakes, hc, hd⟩ := h
  have hrun := step_runs_command ((wellFormed_feed_iff x.length).mpr hx) htakes hc
  obtain ⟨t, ht, htc, hts⟩ := exec_feed_ready (s := { s with cmdIn := cs.map Sent.word }) (x := x)
    (rest := cs.flatMap Sent.payload) ⟨hp, h1, (carryBytes_length s).symm.trans_le h2, hx, hd⟩ (by simp [hdata])
  have hready : t.ConsumerReady :=
    ⟨(congrArg State.dataRoom hts).trans (by simp [hdata]), (congrArg State.rspRoom hts).trans hrsp⟩
  have hbsize := congrArg State.bsize hts
  have hsess : t.InSession s.blockSize (feedSpec s.blockSize s.carryBytes x).2 :=
    ⟨(congrArg State.phase hts).trans hp, hready, congrArg BitVec.toNat hbsize, htc, h1, feedSpec_carry_le h1 h2⟩
  obtain ⟨hstage, hrspOut⟩ := respond_ready hready (okWord (feedSpec s.blockSize s.carryBytes x).1.length)
  rw [congrArg State.rspOut hts] at hrspOut
  refine ⟨_, ⟨hrun.trans ht, ?_, (congrArg List.length hrspOut).trans List.length_append⟩, respond_inSession hsess _,
    ⟨?_, hstage⟩, ?_, ?_⟩
  · exact (respond_dataOut _ t).trans (congrArg State.dataOut hts)
  · exact (respond_schedule _ t).trans ((congrArg State.schedule hts).trans htakes.1)
  · exact (respond_cmdIn _ t).trans (congrArg State.cmdIn hts)
  · exact (respond_dataIn _ t).trans (congrArg State.dataIn hts)

theorem step_flush_queued {b : Nat} {c : List Byte} {s : State} (h : s.Queued b c [⟨encode .flush, []⟩]) :
    ∃ t, s.RunsCommand c t ∧ t.phase = .flushed ∧ t.TakesCommand ∧ t.cmdIn = [] ∧ t.dataIn = [] := by
  obtain ⟨hsess, htakes, hc, hd⟩ := h
  obtain ⟨hdata, hrsp⟩ := hsess.ready
  have hle : s.clen ≤ s.blockSize := by rw [hsess.clen, hsess.blockSize]; exact hsess.le
  have hrun := (step_runs_command (i := .flush) (ws := []) rfl htakes hc).trans
    (exec_flush_done (s := { s with cmdIn := [] }) hsess.active hle (by rw [hdata]; rfl))
  rw [respond_placed (by simp [hrsp])] at hrun
  exact ⟨_, ⟨hrun, congrArg (s.dataOut ++ ·) hsess.carryBytes, List.length_append⟩, rfl, ⟨htakes.1, rfl⟩, rfl, hd⟩

/-! Whole runs. -/

theorem run_succ_fault {s : State} {f : Fault} (h : step s = .fault f) (k : Nat) :
    Host.Core.run Sys2Proof.core (k + 1) s = .fault f := by
  simp only [Host.Core.run, show Sys2Proof.core.step s = .fault f from h]

/-- A run goes on from where its first `m` steps lead. -/
theorem run_add_of_run {m : Nat} {s t : State} (h : Host.Core.run Sys2Proof.core m s = .next t) (n : Nat) :
    Host.Core.run Sys2Proof.core (m + n) s = Host.Core.run Sys2Proof.core n t := by
  induction m generalizing s with
  | zero =>
    obtain rfl : s = t := Host.Outcome.next.inj h
    rw [Nat.zero_add]
  | succ m ih =>
    cases hs : step s with
    | next u =>
      rw [run_succ_next hs] at h
      rw [Nat.succ_add, run_succ_next hs, ih h]
    | fault f => exact nomatch (run_succ_fault hs m).symm.trans h
    | refused r => exact nomatch (run_succ_refused hs m).symm.trans h

/-- FEEDs in a row, one a step, emit and leave what FeedSpec says of their concatenation (R91). -/
theorem run_feeds_queued {b : Nat} {c : List Byte} {xs : List (List Byte)} {cs : List Sent} {s : State}
    (h : s.Queued b c (xs.map sendChunk ++ cs)) (hx : ∀ x ∈ xs, x.length < 2 ^ 28) :
    ∃ t, Host.Core.run Sys2Proof.core xs.length s = .next t ∧ t.Queued b (feedSpec b c xs.flatten).2 cs ∧
      t.dataOut = s.dataOut ++ (feedSpec b c xs.flatten).1.flatten ∧ t.rspOut.length = s.rspOut.length + xs.length := by
  induction xs generalizing c s with
  | nil =>
    rw [List.flatten_nil, feedSpec_nil h.session.le]
    exact ⟨s, rfl, h, (List.append_nil _).symm, rfl⟩
  | cons x xs ih =>
    obtain ⟨hx1, hx2⟩ := List.forall_mem_cons.mp hx
    obtain ⟨t, ⟨ht, hout, hrsp⟩, hq⟩ := step_feed_queued h hx1
    obtain ⟨u, hu, hq', hout', hrsp'⟩ := ih hq hx2
    rw [List.flatten_cons, feedSpec_append_chunks h.session.pos _ h.session.le]
    refine ⟨u, (run_succ_next ht _).trans hu, hq', ?_, ?_⟩
    · rw [hout', hout, List.flatten_append, List.append_assoc]
    · rw [hrsp', hrsp, List.length_cons]
      omega

/-- A session placed on the empty inputs of a chunker in IDLE runs to FLUSHED, one command a step (R163, R92). -/
theorem run_session {b : Nat} {xs : List (List Byte)} {s : State} (hp : s.phase = .idle) (htakes : s.TakesCommand)
    (hready : s.ConsumerReady) (hc : s.cmdIn = []) (hd : s.dataIn = []) (h1 : 1 ≤ b) (h2 : b ≤ s.bMax)
    (hmax : s.bMax ≤ 2 ^ 28 - 1) (hx : ∀ x ∈ xs, x.length < 2 ^ 28) :
    ∃ t, Host.Core.run Sys2Proof.core (xs.length + 2)
        (s.send (⟨encode (.init b), []⟩ :: (xs.map sendChunk ++ [⟨encode .flush, []⟩]))) = .next t ∧
      t.phase = .flushed ∧ t.TakesCommand ∧ t.cmdIn = [] ∧ t.dataIn = [] ∧
      t.rspOut.length = s.rspOut.length + xs.length + 2 ∧ t.dataOut = s.dataOut ++ xs.flatten := by
  obtain ⟨t, ⟨ht, hout, hrsp⟩, hq⟩ := step_init_queued (cs := xs.map sendChunk ++ [⟨encode .flush, []⟩])
    (s := s.send (⟨encode (.init b), []⟩ :: (xs.map sendChunk ++ [⟨encode .flush, []⟩])))
    hp htakes hready (by simp [State.send, hc]) (by simp [State.send, hd]) h1 h2 hmax
  obtain ⟨u, hu, hq', hout', hrsp'⟩ := run_feeds_queued hq hx
  obtain ⟨v, ⟨hv, hout'', hrsp''⟩, hphase, htakes', hc', hd'⟩ := step_flush_queued hq'
  refine ⟨v, ?_, hphase, htakes', hc', hd', ?_, ?_⟩
  · rw [run_succ_next ht, run_add_of_run hu, run_succ_next hv]
    rfl
  · rw [hrsp'', hrsp', hrsp]
    show s.rspOut.length + 1 + xs.length + 1 = _
    omega
  · rw [hout'', hout', hout, List.append_nil, List.append_assoc, feedSpec_nil_flatten h1]
    rfl

/-! What a client feeds. -/

/-- What a client feeds before the message: XXTEA encrypt the 8-byte length field (R116), the others nothing. -/
def Client.header (c : Client) (lengthField : Vector Byte 8) : List Byte :=
  match c with
  | .xxteaEncrypt _ => lengthField.toList
  | _ => []

theorem flatten_flatMap_feedlChunks (chunks : List (List Byte)) :
    (chunks.flatMap feedlChunks).flatten = chunks.flatten := by
  induction chunks with
  | nil => rfl
  | cons x xs ih => rw [List.flatMap_cons, List.flatten_append, feedlChunks_flatten, ih, List.flatten_cons]

theorem Client.feeds_flatten (c : Client) (lengthField : Vector Byte 8) (chunks : List (List Byte)) :
    (c.feeds lengthField chunks).flatten = c.header lengthField ++ chunks.flatten := by
  cases c <;> exact flatten_flatMap_feedlChunks _

theorem Client.feeds_short (c : Client) (lengthField : Vector Byte 8) (chunks : List (List Byte)) :
    ∀ x ∈ c.feeds lengthField chunks, x.length < 2 ^ 28 := by
  have hshort (xs : List (List Byte)) : ∀ x ∈ xs.flatMap feedlChunks, x.length < 2 ^ 28 := fun x hx => by
    obtain ⟨y, -, hy⟩ := List.mem_flatMap.mp hx
    exact feedlChunks_short y x hy
  cases c <;> exact hshort _

/-- Settles O48: INIT, each FEED and FLUSH are a step each, and FEEDL's cutting keeps the bytes. -/
theorem clientSessionRunsThroughTheCommandCycle : Obligations.ClientSessionRunsThroughTheCommandCycle := by
  unfold Obligations.ClientSessionRunsThroughTheCommandCycle
  intro c lengthField chunks s hp htakes hready hc hd h1 h2 hmax
  obtain ⟨t, ht, hphase, ⟨-, hstage⟩, hc', hd', hrsp, hout⟩ :=
    run_session hp htakes hready hc hd h1 h2 hmax (c.feeds_short lengthField chunks)
  exact ⟨t, ht, hphase, hstage, hc', hd', hrsp, hout, c.feeds_flatten lengthField chunks⟩

/-! The host's moves before the chunker's turns. -/

theorem run_move {s t : State} {m : Move} {ms : List Move} (h : s.schedule = m :: ms)
    (ht : makeMove m { s with schedule := ms } = .next t) (k : Nat) :
    Host.Core.run Sys2Proof.core (k + 1) s = Host.Core.run Sys2Proof.core k t :=
  run_succ_next ((step_move h).trans ht) k

theorem run_hostBytes {bs : List Byte} {ms : List Move} {s : State} (h : s.schedule = bs.map .hostByte ++ ms) :
    Host.Core.run Sys2Proof.core bs.length s = .next { s with dataIn := s.dataIn ++ bs, schedule := ms } := by
  induction bs generalizing s with
  | nil => rw [List.append_nil, ← show s.schedule = ms from h]; rfl
  | cons b bs ih =>
    rw [List.length_cons, run_move h rfl, ih rfl]
    simp

/-- The host's moves for a list of commands place them on the two channels. -/
theorem run_sentMoves {cs : List Sent} {ms : List Move} {s : State} (h : s.schedule = cs.flatMap Sent.moves ++ ms) :
    Host.Core.run Sys2Proof.core (cs.flatMap Sent.moves).length s = .next { s.send cs with schedule := ms } := by
  induction cs generalizing s with
  | nil => simp [Host.Core.run, State.send, ← show s.schedule = ms from h]
  | cons c cs ih =>
    rw [List.flatMap_cons, List.append_assoc] at h
    rw [List.flatMap_cons, List.length_append, Sent.moves, List.length_cons, List.length_map, Nat.add_right_comm,
      run_move h rfl, run_add_of_run (run_hostBytes rfl), ih rfl]
    simp [State.send]

/-- Settles O55: reset makes the chunker fresh, the host's moves place the commands, and they run as any session. -/
theorem clientSessionResetsAnyChunkerFirst : Obligations.ClientSessionResetsAnyChunkerFirst := by
  unfold Obligations.ClientSessionResetsAnyChunkerFirst
  intro c lengthField chunks s hready hlegal h1 h2 hmax
  obtain ⟨hp, hstage, hready', hc, hd, ho, hs, hmax'⟩ :=
    assertReset_fresh (s := { s with schedule := [] }) hready hmax
  obtain ⟨t, ht, hphase, ⟨hsched, hstage'⟩, hc', hd', hrsp, hout⟩ :=
    run_session hp ⟨rfl, hstage⟩ hready' hc hd h1 h2 hmax' (c.feeds_short lengthField chunks)
  refine ⟨_, t, Client.session_legal hlegal (by omega) lengthField chunks, ?_, hphase, hstage', hsched, hc', hd',
    ?_, ?_⟩
  · rw [Nat.add_assoc, Nat.add_assoc, Nat.add_comm 1, run_move rfl rfl]
    exact (run_add_of_run (run_sentMoves (List.append_nil _).symm) _).trans ht
  · simpa [hs] using hrsp
  · rw [hout, ho, List.nil_append]
    exact c.feeds_flatten lengthField chunks

/-! ## Engines on their chunkers -/

theorem State.Holds.pos {b : Nat} {c : List Byte} {s : State} (h : s.Holds b c) : 1 ≤ b := by
  obtain ⟨-, -, -, -, -, -, -, -, -, h1, -⟩ := h
  exact h1

theorem State.Holds.le {b : Nat} {c : List Byte} {s : State} (h : s.Holds b c) : c.length ≤ b := by
  obtain ⟨-, -, -, -, -, -, -, -, -, -, h2⟩ := h
  exact h2

theorem State.Holds.carryBytes {b : Nat} {c : List Byte} {s : State} (h : s.Holds b c) : s.carryBytes = c := by
  obtain ⟨-, -, -, -, -, -, -, -, hc, -, -⟩ := h
  exact hc

/-- A chunker between a client's commands after FLUSH, its channels free. -/
def State.Ended (s : State) : Prop :=
  s.phase = .flushed ∧ s.stage = .ready ∧ s.ConsumerReady ∧ s.cmdIn = [] ∧ s.dataIn = [] ∧ s.rspOut = []

/-! An engine's calls for the chunks of a message. -/

/-- `call` feeds its chunk and gives the emitted blocks to `use`, which updates what the engine keeps and answers the
call's output; `use` may get the blocks one part after the other. -/
structure UsesBlocks {α β : Type} (call : List Byte → Engine α → Except ClientError (Engine α × List β))
    (use : List (List Byte) → α → α × List β) : Prop where
  call_eq : ∀ x e, call x e = (e.feed x).map fun p => ({ p.1 with own := (use p.2 e.own).1 }, (use p.2 e.own).2)
  use_nil : ∀ a, use [] a = (a, [])
  use_append : ∀ ps qs a, use (ps ++ qs) a = ((use qs (use ps a).1).1, (use ps a).2 ++ (use qs (use ps a).1).2)

/-- The calls for the chunks use the blocks that FeedSpec emits for the concatenation of the chunks (R91). -/
theorem UsesBlocks.forEachChunk_ok {α β : Type} {call : List Byte → Engine α → Except ClientError (Engine α × List β)}
    {use : List (List Byte) → α → α × List β} (hu : UsesBlocks call use) {c : List Byte} (xs : List (List Byte))
    {e : Engine α} (h : e.chunker.Holds e.blockBytes c) :
    ∃ t, t.Holds e.blockBytes (feedSpec e.blockBytes c xs.flatten).2 ∧ forEachChunk call xs e =
      .ok (⟨t, e.blockBytes, (use (feedSpec e.blockBytes c xs.flatten).1 e.own).1⟩,
        (use (feedSpec e.blockBytes c xs.flatten).1 e.own).2) := by
  induction xs generalizing c e with
  | nil =>
    rw [List.flatten_nil, feedSpec_nil h.le, hu.use_nil]
    exact ⟨e.chunker, h, rfl⟩
  | cons x xs ih =>
    obtain ⟨t, ht, hh⟩ := Engine.feed_ok (x := x) h
    obtain ⟨u, hh', hrest⟩ := ih (e := ⟨t, e.blockBytes, (use (feedSpec e.blockBytes c x).1 e.own).1⟩) hh
    rw [List.flatten_cons, feedSpec_append_chunks h.pos _ h.le, hu.use_append]
    refine ⟨u, hh', ?_⟩
    rw [forEachChunk, hu.call_eq, ht, Except.map, Except.bind, hrest]
    rfl

/-! ## SHA-1 (R112, R113) -/

@[simp] theorem bigEndian_length (k n : Nat) : (bigEndian k n).length = k := by
  induction k with
  | zero => rfl
  | succ k ih => rw [bigEndian, List.length_cons, ih]

/-- The zero bytes that SHA-1 pads a tail of `t` bytes with. -/
def sha1Zeros (t : Nat) : Nat := (119 - t % 64) % 64

/-- The padding behind the tail. -/
def sha1Padding (e t : Nat) : List Byte :=
  0x80#8 :: List.replicate (sha1Zeros t) 0#8 ++ bigEndian 8 (sha1BitLength e t)

theorem sha1PadTail_eq (e : Nat) (tail : List Byte) : sha1PadTail e tail = tail ++ sha1Padding e tail.length :=
  List.append_assoc _ _ _

theorem sha1Zeros_of_le {t : Nat} (h : t ≤ 64) : sha1Zeros t = (if t ≤ 55 then 55 else 119) - t := by
  unfold sha1Zeros
  split <;> omega

theorem sha1PadTail_length (e : Nat) (tail : List Byte) :
    (sha1PadTail e tail).length = tail.length + 1 + sha1Zeros tail.length + 8 := by
  simp [sha1PadTail_eq, sha1Padding]
  omega

/-- Settles O46: up to 55 bytes the bit length ends in the first block, from 56 on in the second. -/
theorem sha1PaddedTailIsOneOrTwoBlocks : Obligations.Sha1PaddedTailIsOneOrTwoBlocks := by
  unfold Obligations.Sha1PaddedTailIsOneOrTwoBlocks
  intro e tail htail
  have hlen := sha1PadTail_length e tail
  have hzeros := sha1Zeros_of_le htail
  have hshape : sha1PadTail e tail =
      (tail ++ [0x80#8]) ++
        (List.replicate (sha1Zeros tail.length) 0#8 ++ bigEndian 8 (sha1BitLength e tail.length)) := by
    simp [sha1PadTail_eq, sha1Padding]
  refine ⟨?_, ?_, fun i h1 h2 => ?_, ?_⟩
  · rw [hlen, hzeros]
    split <;> omega
  · rw [hshape]
    exact List.take_left' (by simp)
  · rw [hlen] at h2
    rw [hshape, List.getElem?_append_right (by simp; omega), List.getElem?_append_left (by simp; omega),
      List.getElem?_replicate_of_lt (by simp; omega)]
  · rw [hlen, hshape, ← List.append_assoc]
    exact List.drop_left' (by simp; omega)

/-- The digest's engine after it was fed the bytes `m`. -/
structure Engine.Digests {H : Type} (compress : H → List Byte → H) (initial : H) (m : List Byte) (e : Engine (Sha1 H)) :
    Prop where
  blockBytes : e.blockBytes = 64
  holds : e.chunker.Holds 64 (feedSpec 64 [] m).2
  hash : e.own.hash = (feedSpec 64 [] m).1.foldl compress initial
  emitted : e.own.emitted = (feedSpec 64 [] m).1.length

section
variable {H : Type} {compress : H → List Byte → H} {initial : H}

theorem sha1Start_ok {s : State} (h : s.ConsumerReady) (h1 : 64 ≤ s.bMax) (hm : s.bMax ≤ 2 ^ 28 - 1) :
    ∃ e, sha1Start initial s = .ok e ∧ e.own.phase = .init ∧ e.Digests compress initial [] := by
  obtain ⟨t, ht, hh⟩ := Client.start_ok (c := .sha1) rfl h hm (by decide) h1 (⟨.init, initial, 0, 0⟩ : Sha1 H)
  exact ⟨_, ht, rfl, rfl, hh, rfl, rfl⟩

theorem sha1ProcessBuffer_ok {m : List Byte} (x : List Byte) {e : Engine (Sha1 H)} (h : e.Digests compress initial m) :
    ∃ f, sha1ProcessBuffer compress x e = .ok f ∧ f.own.phase = .processing ∧ f.Digests compress initial (m ++ x) := by
  obtain ⟨hb, hh, hhash, hemitted⟩ := h
  obtain ⟨t, ht, hh'⟩ := Engine.feed_ok (x := x) (hb.symm ▸ hh)
  rw [hb] at ht hh'
  have happ := feedSpec_append_chunks (b := 64) (c := []) (x := m) (by decide) x (Nat.zero_le _)
  refine ⟨⟨t, 64, e.own.process compress x.length (feedSpec 64 (feedSpec 64 [] m).2 x).1⟩,
    by rw [sha1ProcessBuffer, ht]; rfl, rfl, rfl, ?_, ?_, ?_⟩
  · rw [happ]
    exact hh'
  · rw [happ, List.foldl_append, ← hhash]
    rfl
  · rw [happ, List.length_append, ← hemitted]
    rfl

theorem sha1ProcessBuffers_ok (xs : List (List Byte)) {m : List Byte} {e : Engine (Sha1 H)}
    (h : e.Digests compress initial m) :
    ∃ f, xs.foldlM (fun d x => sha1ProcessBuffer compress x d) e = .ok f ∧ (xs ≠ [] → f.own.phase = .processing) ∧
      f.Digests compress initial (m ++ xs.flatten) := by
  induction xs generalizing m e with
  | nil => exact ⟨e, rfl, fun hne => absurd rfl hne, by simpa using h⟩
  | cons x xs ih =>
    obtain ⟨f, hf, hphase, hd⟩ := sha1ProcessBuffer_ok x h
    obtain ⟨g, hg, hphase', hd'⟩ := ih hd
    rw [List.append_assoc] at hd'
    refine ⟨g, ?_, fun _ => ?_, hd'⟩
    · rw [List.foldlM_cons, hf]
      exact hg
    · by_cases hxs : xs = []
      · subst hxs
        obtain rfl : f = g := Except.ok.inj hg
        exact hphase
      · exact hphase' hxs

/-- The digest of the padded tail after the emitted blocks is that of the padded message. -/
theorem Sha1.finalize_hash {m : List Byte} {d : Sha1 H} (hhash : d.hash = (feedSpec 64 [] m).1.foldl compress initial)
    (hemitted : d.emitted = (feedSpec 64 [] m).1.length) :
    (d.finalize compress (feedSpec 64 [] m).2).hash =
      (splitBlocks 64 (m ++ sha1Padding 0 m.length)).foldl compress initial := by
  have hlen := feedSpec_nil_length (b := 64) (by decide) m
  have hpad : sha1Padding d.emitted (feedSpec 64 [] m).2.length = sha1Padding 0 m.length := by
    rw [hlen, hemitted, sha1Padding, sha1Padding, sha1BitLength, sha1BitLength, sha1Zeros, sha1Zeros,
      Nat.mul_add_mod_self_right, Nat.mul_comm 64]
    simp
  rw [splitBlocks_feedSpec_append (by decide) m (by simp [sha1Padding]), List.foldl_append, ← hhash, ← hpad,
    ← sha1PadTail_eq]
  rfl

theorem sha1Finish_ok {m : List Byte} {e : Engine (Sha1 H)} (h : e.Digests compress initial m) :
    ∃ t, sha1Finish compress e = .ok ⟨t, 64, e.own.finalize compress (feedSpec 64 [] m).2⟩ ∧ t.Ended := by
  obtain ⟨hb, hh, -, -⟩ := h
  obtain ⟨t, ht, hended⟩ := Engine.flush_ok (hb.symm ▸ hh)
  rw [hb] at ht
  exact ⟨t, by rw [sha1Finish, ht]; rfl, hended⟩

end

/-! A client's FEED after FLUSH. -/

/-- A FEED in FLUSHED drains its payload and raises FEED_AFTER_FLUSH (R136, R142). -/
theorem exec_feed_flushed {x : List Byte} {s : State} (hp : s.phase = .flushed) (hd : s.dataIn = x) :
    exec (.feed x.length) s = .next (raiseError .feedAfterFlush (zext28 x.length)
      { s with dataIn := [], rem := 0, mode := .drain, feedArg := zext28 x.length, sent := 0 }) := by
  subst hd
  have herr : feedPhaseError s.phase = some .feedAfterFlush := by rw [hp]; rfl
  have hstart : startFeed s.dataIn.length s =
      { s with rem := s.dataIn.length, mode := .drain, feedArg := zext28 s.dataIn.length, sent := 0 } := by
    simp only [startFeed, herr]
  have hloop := takePayload_drain
    (s := { s with rem := s.dataIn.length, mode := .drain, feedArg := zext28 s.dataIn.length, sent := 0 })
    rfl s.dataIn [] rfl
  rw [List.append_nil] at hloop
  rw [exec, execFeed, hstart, hloop]
  simp only [finishFeed, herr]

/-- An error response ends a client's session with its STATUS. -/
theorem collect_rejected {t : State} {e : ErrorCode} {info : Arg} (h : t.rspOut = [errorWord e info]) :
    collect t = .error (.rejected e.status) := by
  have hstatus : e.status ≠ 0#4 := by cases e <;> decide
  simp [collect, h, errorWord, hstatus]

theorem request_feed_ended {x : List Byte} {s : State} (h : s.Ended) (hx : x.length < 2 ^ 28) :
    request (sendChunk x) s = .error (.rejected ErrorCode.feedAfterFlush.status) := by
  obtain ⟨hp, hs, hready, hc, hd, hr⟩ := h
  have hturn : chunkerTurn (s.send [sendChunk x]) =
      exec (.feed x.length) { s.send [sendChunk x] with cmdIn := [] } := by
    rw [chunkerTurn_word (s := s.send [sendChunk x]) (w := encode (.feed x.length)) (ws := []) hs
      (by simp [State.send, hc, sendChunk]),
      runWord_of_decode (decodeOfEncodeIsTheCommand _ ((wellFormed_feed_iff x.length).mpr hx))]
  rw [exec_feed_flushed (s := { s.send [sendChunk x] with cmdIn := [] }) hp
    (by simp [State.send, hd, sendChunk])] at hturn
  rw [request, hturn]
  refine collect_rejected (info := zext28 x.length) ((respond_ready ?_ _).2.trans ?_)
  · exact hready
  · exact congrArg (· ++ _) hr

theorem feedlChunks_ne_nil (x : List Byte) : feedlChunks x ≠ [] := by
  unfold feedlChunks
  split
  · exact List.cons_ne_nil _ _
  · next h => exact splitBlocks_ne_nil (List.length_pos_iff.mp (by omega))

theorem sha1ProcessBuffer_ended {H : Type} (compress : H → List Byte → H) (x : List Byte) {e : Engine (Sha1 H)}
    (h : e.chunker.Ended) : sha1ProcessBuffer compress x e = .error (.rejected 0x5#4) := by
  obtain ⟨p, ps, hps⟩ := List.exists_cons_of_ne_nil (feedlChunks_ne_nil x)
  have hp : p.length < 2 ^ 28 := feedlChunks_short x p (hps ▸ List.mem_cons_self)
  rw [sha1ProcessBuffer, Engine.feed, hps, feedPieces, request_feed_ended h hp]
  rfl

/-- Settles O52: the digest follows the blocks emitted, and the padded tail is the end of the padded message. -/
theorem sha1SessionCompressesThePaddedMessage : Obligations.Sha1SessionCompressesThePaddedMessage := by
  unfold Obligations.Sha1SessionCompressesThePaddedMessage
  intro H compress initial chunks s hready h64 hmax
  obtain ⟨e, he, hinit, hdig⟩ := sha1Start_ok (compress := compress) (initial := initial) hready h64 hmax
  obtain ⟨f, hf, hprocessing, hdig'⟩ := sha1ProcessBuffers_ok chunks hdig
  obtain ⟨t, hg, hended⟩ := sha1Finish_ok hdig'
  obtain ⟨-, -, hhash, hemitted⟩ := hdig'
  rw [List.nil_append] at hhash hemitted hg
  refine ⟨e, f, _, sha1Zeros chunks.flatten.length, he, hinit, hf, hprocessing, ?_, hg, rfl, ?_, ?_, ?_, ?_,
    fun x => sha1ProcessBuffer_ended compress x hended⟩
  · rw [hhash, feedSpec_nil_blocks (by decide)]
  · show 64 * f.own.emitted + _ = _
    rw [feedSpec_nil_length (b := 64) (by decide) chunks.flatten, hemitted, Nat.mul_comm]
  · exact Nat.mod_lt _ (by decide)
  · rw [sha1Zeros]
    omega
  · rw [Sha1.finalize_hash hhash hemitted, sha1Padding, sha1BitLength, Nat.mul_zero, Nat.zero_add, List.append_assoc]

/-! ## OFB (R114, R115) -/

theorem xorBytes_length (xs ys : List Byte) : (xorBytes xs ys).length = min xs.length ys.length :=
  List.length_zipWith

/-- XOR works on the first bytes and on those behind them apart. -/
theorem xorBytes_append {xs xs' ys ys' : List Byte} (h : xs.length = ys.length) :
    xorBytes (xs ++ xs') (ys ++ ys') = xorBytes xs ys ++ xorBytes xs' ys' :=
  List.zipWith_append h

/-- XOR reads no byte beyond the shorter list. -/
theorem xorBytes_append_right {xs ys : List Byte} (h : xs.length ≤ ys.length) (zs : List Byte) :
    xorBytes xs (ys ++ zs) = xorBytes xs ys := by
  induction xs generalizing ys with
  | nil => rfl
  | cons x xs ih =>
    cases ys with
    | nil => exact absurd h (Nat.not_succ_le_zero _)
    | cons y ys => exact congrArg ((x ^^^ y) :: ·) (ih (Nat.le_of_succ_le_succ h))

/-- What an OFB engine makes of emitted blocks: the new feedback and the output bytes. -/
def ofbUse (transform : List Byte → List Byte) (ps : List (List Byte)) (feedback : List Byte) : List Byte × List Byte :=
  ((ofbBlocks transform feedback ps).2, (ofbBlocks transform feedback ps).1.flatten)

theorem ofbUse_append (transform : List Byte → List Byte) (ps qs : List (List Byte)) (feedback : List Byte) :
    ofbUse transform (ps ++ qs) feedback =
      ((ofbUse transform qs (ofbUse transform ps feedback).1).1,
        (ofbUse transform ps feedback).2 ++ (ofbUse transform qs (ofbUse transform ps feedback).1).2) := by
  induction ps generalizing feedback with
  | nil => rfl
  | cons p ps ih =>
    have hnext := ih (transform feedback)
    simp only [ofbUse, Prod.mk.injEq] at hnext
    obtain ⟨h1, h2⟩ := hnext
    simp [ofbUse, ofbBlocks, h1, h2]

theorem ofbProcess_usesBlocks (transform : List Byte → List Byte) :
    UsesBlocks (ofbProcess transform) (ofbUse transform) :=
  ⟨fun _ _ => rfl, fun _ => rfl, ofbUse_append transform⟩

section
variable {transform : List Byte → List Byte} {n : Nat} (ht : ∀ p, p.length = n → (transform p).length = n)
include ht

theorem keystream_length {feedback : List Byte} (hf : feedback.length = n) (k : Nat) :
    (keystream transform k feedback).length = k * n := by
  induction k generalizing feedback with
  | zero => exact (Nat.zero_mul n).symm
  | succ k ih => rw [keystream, List.length_append, ht _ hf, ih (ht _ hf), Nat.succ_mul, Nat.add_comm]

/-- OFB's blocks and its tail are the message XORed with the keystream, of at least one block more. -/
theorem ofb_xors_keystream {ps : List (List Byte)} (hps : ∀ p ∈ ps, p.length = n) {tail feedback : List Byte}
    (htail : tail.length ≤ n) (hf : feedback.length = n) {k : Nat} (hk : ps.length < k) :
    (ofbUse transform ps feedback).2 ++ ofbTail transform (ofbUse transform ps feedback).1 tail =
      xorBytes (ps.flatten ++ tail) (keystream transform k feedback) := by
  obtain ⟨k, rfl⟩ := Nat.exists_eq_add_of_lt hk
  induction ps generalizing feedback with
  | nil =>
    rw [List.length_nil, Nat.zero_add, keystream, List.flatten_nil, List.nil_append,
      xorBytes_append_right (by rw [ht _ hf]; exact htail)]
    rfl
  | cons p ps ih =>
    obtain ⟨hp, hps'⟩ := List.forall_mem_cons.mp hps
    rw [List.length_cons, keystream, List.flatten_cons, List.append_assoc,
      xorBytes_append (by rw [hp, ht _ hf]), Nat.add_right_comm ps.length, ← ih hps' (ht _ hf) (by omega),
      ← List.append_assoc]
    rfl

end

/-- Settles O53: the keystream is XORed to the emitted blocks, and its next block to the tail. -/
theorem ofbSessionXorsTheKeystream : Obligations.OfbSessionXorsTheKeystream := by
  unfold Obligations.OfbSessionXorsTheKeystream
  intro transform iv cipher chunks s hready hmax h1 h2 hlegal htransform
  obtain ⟨t, he, hh⟩ : ∃ t, ofbStart iv cipher s = .ok ⟨t, iv.length, iv⟩ ∧ t.Holds iv.length [] :=
    Client.start_ok hlegal hready hmax h1 h2 iv
  obtain ⟨u, hh', hf⟩ := (ofbProcess_usesBlocks transform).forEachChunk_ok (e := ⟨t, iv.length, iv⟩) chunks hh
  obtain ⟨v, hg, hphase, -⟩ := Engine.flush_ok
    (e := ⟨u, iv.length, (ofbUse transform (feedSpec iv.length [] chunks.flatten).1 iv).1⟩) hh'
  have hflat := feedSpec_nil_flatten h1 chunks.flatten
  have hlen := feedSpec_nil_length h1 chunks.flatten
  have htail := feedSpec_carry_le h1 (c := []) (x := chunks.flatten) (Nat.zero_le _)
  have hcount : (feedSpec iv.length [] chunks.flatten).1.length < chunks.flatten.length / iv.length + 1 :=
    Nat.lt_succ_of_le ((Nat.le_div_iff_mul_le h1).mpr (hlen ▸ Nat.le_add_right _ _))
  have hxor := ofb_xors_keystream htransform (feedSpec_nil_block_length h1 chunks.flatten) htail rfl hcount
  rw [hflat] at hxor
  refine ⟨_, _, _, _, _, he, hf, by rw [ofbFinish, hg]; rfl, hphase, ?_, hxor⟩
  refine (congrArg List.length hxor).trans ?_
  rw [xorBytes_length, keystream_length htransform rfl]
  have := Nat.div_add_mod' chunks.flatten.length iv.length
  have := Nat.mod_lt chunks.flatten.length h1
  rw [Nat.succ_mul]
  omega

/-! ## XXTEA encrypt (R116) -/

theorem xxteaEncryptChunk_usesBlocks (encrypt : List Byte → List Byte) :
    UsesBlocks (xxteaEncryptChunk encrypt) (fun ps a => (a, ps.map encrypt)) :=
  ⟨fun _ _ => rfl, fun _ => rfl, fun _ _ _ => by rw [List.map_append]⟩

section
variable (encrypt : List Byte → List Byte) {b : Nat} (lengthField : Vector Byte 8) (chunks : List (List Byte))
  {s : State}
  (hready : s.ConsumerReady) (hmax : s.bMax ≤ 2 ^ 28 - 1) (hlegal : (Client.xxteaEncrypt b).configLegal = true)
  (hb : b ≤ s.bMax)
include hready hmax hlegal hb

/-- An encrypt session is fed the length field and the message, and transforms the blocks and the padded tail. -/
theorem xxteaEncrypt_session :
    ∃ (t u v : State) (first blocks : List (List Byte)),
      xxteaEncryptStart encrypt b lengthField s = .ok (⟨t, b, ()⟩, first) ∧
      forEachChunk (xxteaEncryptChunk encrypt) chunks ⟨t, b, ()⟩ = .ok (⟨u, b, ()⟩, blocks) ∧
      u.Holds b (feedSpec b [] (lengthField.toList ++ chunks.flatten)).2 ∧
      first ++ blocks = (feedSpec b [] (lengthField.toList ++ chunks.flatten)).1.map encrypt ∧
      xxteaEncryptFinish encrypt ⟨u, b, ()⟩ =
        .ok (⟨v, b, ()⟩, encrypt (xxteaPadTail b (feedSpec b [] (lengthField.toList ++ chunks.flatten)).2)) ∧
      v.phase = .flushed := by
  obtain ⟨h8, -⟩ := (xxteaBlockLegal_iff b).mp hlegal
  have h1 : 1 ≤ b := by omega
  obtain ⟨t, ht, hh⟩ : ∃ t, (Client.xxteaEncrypt b).start () s = .ok ⟨t, b, ()⟩ ∧ t.Holds b [] :=
    Client.start_ok hlegal hready hmax h1 hb ()
  obtain ⟨t', ht', hh'⟩ := Engine.feed_ok (e := ⟨t, b, ()⟩) (x := lengthField.toList) hh
  obtain ⟨u, hh'', hu⟩ := (xxteaEncryptChunk_usesBlocks encrypt).forEachChunk_ok (e := ⟨t', b, ()⟩) chunks hh'
  obtain ⟨v, hv, hphase, -⟩ := Engine.flush_ok (e := ⟨u, b, ()⟩) hh''
  rw [feedSpec_append_chunks h1 (c := []) _ (Nat.zero_le b), List.map_append]
  refine ⟨t', u, v, _, _, ?_, hu, hh'', rfl, ?_, hphase⟩
  · rw [xxteaEncryptStart, ht, Except.bind, xxteaEncryptChunk, ht']
    rfl
  · rw [xxteaEncryptFinish, hv]
    rfl

end

/-- The tail of an encrypt session is not empty: the length field was fed. -/
theorem xxtea_tail_ne_nil {b : Nat} (hb : 1 ≤ b) (lengthField : Vector Byte 8) (m : List Byte) :
    (feedSpec b [] (lengthField.toList ++ m)).2 ≠ [] := by
  refine feedSpec_carry_ne_nil hb (c := []) (Nat.zero_le b) (List.length_pos_iff.mp ?_)
  simp

theorem xxteaPadTail_length {b : Nat} {tail : List Byte} (h : tail.length ≤ b) : (xxteaPadTail b tail).length = b := by
  rw [xxteaPadTail, List.length_append, List.length_replicate, Nat.add_sub_cancel' h]

/-- Settles O47: the emitted blocks and the padded tail are the blocks of the padded input. -/
theorem xxteaEncryptOutputsTheCeilingOfBlocks : Obligations.XxteaEncryptOutputsTheCeilingOfBlocks := by
  unfold Obligations.XxteaEncryptOutputsTheCeilingOfBlocks
  intro encrypt b lengthField chunks s hready hmax hlegal hb
  obtain ⟨h8, -⟩ := (xxteaBlockLegal_iff b).mp hlegal
  have h1 : 1 ≤ b := by omega
  obtain ⟨t, u, v, first, blocks, hstart, hchunks, hh, hout, hfinish, hphase⟩ :=
    xxteaEncrypt_session encrypt lengthField chunks hready hmax hlegal hb
  have hne := xxtea_tail_ne_nil h1 lengthField chunks.flatten
  refine ⟨⟨t, b, ()⟩, ⟨u, b, ()⟩, ⟨v, b, ()⟩, first, blocks, _, hstart, hchunks, hfinish, hh.carryBytes,
    List.length_pos_iff.mpr hne, hh.le, hphase, ?_, ?_⟩
  · have hpieces := feedSpec_pieces b (c := []) (x := lengthField.toList ++ chunks.flatten) (by simp)
    have hlen := splitBlocks_length h1 (x := lengthField.toList ++ chunks.flatten) (by simp)
    rw [List.nil_append] at hpieces
    rw [← hpieces, List.length_append, List.length_append, Vector.length_toList] at hlen
    rw [hout, List.length_map, ← hlen]
    rfl
  · rw [hout, splitBlocks_feedSpec_append h1 _ (by simp [hne]), ← xxteaPadTail,
      splitBlocks_short (by simp [xxteaPadTail, hne]) (xxteaPadTail_length hh.le).le, List.map_append]
    rfl

/-! ## XXTEA decrypt (R117) -/

section
variable (decrypt : List Byte → List Byte) (readLength : List Byte → Nat)

theorem emitAll_append (ps qs : List (List Byte)) (d : Decryption) :
    Decryption.emitAll decrypt readLength (ps ++ qs) d =
      ((Decryption.emitAll decrypt readLength qs (Decryption.emitAll decrypt readLength ps d).1).1,
        (Decryption.emitAll decrypt readLength ps d).2 ++
          (Decryption.emitAll decrypt readLength qs (Decryption.emitAll decrypt readLength ps d).1).2) := by
  induction ps generalizing d with
  | nil => rfl
  | cons p ps ih => simp [Decryption.emitAll, ih]

theorem xxteaDecryptChunk_usesBlocks :
    UsesBlocks (xxteaDecryptChunk decrypt readLength) (Decryption.emitAll decrypt readLength) :=
  ⟨fun _ _ => rfl, fun _ => rfl, emitAll_append decrypt readLength⟩

/-- Once the length is known every decrypted block is message. -/
theorem emitAll_declared (ps : List (List Byte)) (n k : Nat) :
    Decryption.emitAll decrypt readLength ps ⟨some n, k⟩ =
      (⟨some n, k + (ps.map decrypt).flatten.length⟩, (ps.map decrypt).flatten) := by
  induction ps generalizing k with
  | nil => rfl
  | cons p ps ih =>
    rw [Decryption.emitAll, Decryption.emit, ih]
    simp [Nat.add_assoc]

/-- From the beginning, the first 8 decrypted bytes are the length and the rest is message. -/
theorem emitAll_first {ps : List (List Byte)} (hne : ps ≠ []) (h8 : ∀ p ∈ ps, 8 ≤ (decrypt p).length) :
    Decryption.emitAll decrypt readLength ps ⟨none, 0⟩ =
      (⟨some (readLength ((ps.map decrypt).flatten.take 8)), (ps.map decrypt).flatten.length - 8⟩,
        (ps.map decrypt).flatten.drop 8) := by
  obtain ⟨p, ps, rfl⟩ := List.exists_cons_of_ne_nil hne
  have hp := h8 p List.mem_cons_self
  rw [Decryption.emitAll, Decryption.emit, emitAll_declared, List.map_cons, List.flatten_cons,
    List.take_append_of_le_length hp, List.drop_append_of_le_length hp]
  simp [Nat.sub_add_comm hp]

/-- The last decrypted block, trimmed to what the declared length leaves (R117). -/
theorem finalize_trims {n b : Nat} {d : Decryption} {tail p zs : List Byte} (hd : d.declared = some n)
    (htail : tail.length = b) (hdec : decrypt tail = p ++ zs) (hn : n = d.emitted + p.length) :
    d.finalize decrypt b tail = .ok p := by
  have htrim : xxteaTrim n d.emitted (decrypt tail) = some p := by
    rw [xxteaTrim, if_neg (by omega), if_neg (by rw [hdec, List.length_append]; omega), hdec, hn,
      Nat.add_sub_cancel_left, List.take_left' rfl]
  simp only [Decryption.finalize, hd, if_pos htail, htrim]

end

/-- A decrypt session fed whole blocks decrypts all but the last as they come, and trims the last. -/
theorem xxteaDecrypt_session (decrypt : List Byte → List Byte) (readLength : List Byte → Nat) {b : Nat} {s : State}
    (hready : s.ConsumerReady) (hmax : s.bMax ≤ 2 ^ 28 - 1) (hlegal : (Client.xxteaDecrypt b).configLegal = true)
    (hb : b ≤ s.bMax) {cuts ps : List (List Byte)} {q : List Byte} (hcuts : cuts.flatten = (ps ++ [q]).flatten)
    (hps : ∀ p ∈ ps, p.length = b) (hq : q.length = b) {rest : List Byte}
    (hrest : (Decryption.emitAll decrypt readLength ps ⟨none, 0⟩).1.finalize decrypt b q = .ok rest) :
    ∃ e f g : Engine Decryption, xxteaDecryptStart b s = .ok e ∧
      forEachChunk (xxteaDecryptChunk decrypt readLength) cuts e =
        .ok (f, (Decryption.emitAll decrypt readLength ps ⟨none, 0⟩).2) ∧
      xxteaDecryptFinish decrypt f = .ok (g, rest) ∧ g.chunker.phase = .flushed := by
  obtain ⟨h8, -⟩ := (xxteaBlockLegal_iff b).mp hlegal
  have h1 : 1 ≤ b := by omega
  obtain ⟨t, ht, hh⟩ : ∃ t, xxteaDecryptStart b s = .ok ⟨t, b, ⟨none, 0⟩⟩ ∧ t.Holds b [] :=
    Client.start_ok hlegal hready hmax h1 hb (⟨none, 0⟩ : Decryption)
  obtain ⟨u, hh', hu⟩ := (xxteaDecryptChunk_usesBlocks decrypt readLength).forEachChunk_ok (e := ⟨t, b, ⟨none, 0⟩⟩)
    cuts hh
  simp only [hcuts, feedSpec_nil_whole h1 hps hq] at hh' hu
  obtain ⟨v, hv, hphase, -⟩ := Engine.flush_ok
    (e := ⟨u, b, (Decryption.emitAll decrypt readLength ps ⟨none, 0⟩).1⟩) hh'
  refine ⟨_, _, ⟨v, b, (Decryption.emitAll decrypt readLength ps ⟨none, 0⟩).1⟩, ht, hu, ?_, hphase⟩
  rw [xxteaDecryptFinish, hv, Except.bind, hrest]
  rfl

section
variable {encrypt decrypt : List Byte → List Byte} {b : Nat}
  (hinv : ∀ p, p.length = b → (encrypt p).length = b ∧ decrypt (encrypt p) = p)
include hinv

theorem map_decrypt_map_encrypt {ps : List (List Byte)} (hps : ∀ p ∈ ps, p.length = b) :
    (ps.map encrypt).map decrypt = ps := by
  rw [List.map_map]
  exact (List.map_congr_left fun p hp => (hinv p (hps p hp)).2).trans (List.map_id ps)

/-- Encrypted blocks decrypted as they come: the length field is read and stripped (R117). -/
theorem emitAll_encrypted (readLength : List Byte → Nat) (h8 : 8 ≤ b) {ps : List (List Byte)} (hne : ps ≠ [])
    (hps : ∀ p ∈ ps, p.length = b) :
    Decryption.emitAll decrypt readLength (ps.map encrypt) ⟨none, 0⟩ =
      (⟨some (readLength (ps.flatten.take 8)), ps.flatten.length - 8⟩, ps.flatten.drop 8) := by
  have hfirst := emitAll_first decrypt readLength (ps := ps.map encrypt) (by simpa using hne)
    (List.forall_mem_map.mpr fun p hp => by rw [(hinv p (hps p hp)).2, hps p hp]; exact h8)
  rwa [map_decrypt_map_encrypt hinv hps] at hfirst

/-- A decrypt session over what an encrypt session made of the blocks `ps` and the tail gives the message back. -/
theorem xxteaDecrypt_of_encrypted {readLength : List Byte → Nat} {s : State} (hready : s.ConsumerReady)
    (hmax : s.bMax ≤ 2 ^ 28 - 1) (hlegal : (Client.xxteaDecrypt b).configLegal = true) (hb : b ≤ s.bMax)
    {lengthField : Vector Byte 8} {m tail : List Byte} {ps cuts : List (List Byte)}
    (hread : readLength lengthField.toList = m.length) (hlong : b < 8 + m.length)
    (hflat : ps.flatten ++ tail = lengthField.toList ++ m) (hps : ∀ p ∈ ps, p.length = b) (htail : tail.length ≤ b)
    (hcuts : cuts.flatten = (ps.map encrypt ++ [encrypt (xxteaPadTail b tail)]).flatten) :
    ∃ (e f g : Engine Decryption) (out rest : List Byte), xxteaDecryptStart b s = .ok e ∧
      forEachChunk (xxteaDecryptChunk decrypt readLength) cuts e = .ok (f, out) ∧
      xxteaDecryptFinish decrypt f = .ok (g, rest) ∧ g.chunker.phase = .flushed ∧ out ++ rest = m := by
  obtain ⟨h8, -⟩ := (xxteaBlockLegal_iff b).mp hlegal
  have htotal := congrArg List.length hflat
  rw [List.length_append, List.length_append, Vector.length_toList] at htotal
  have hne : ps ≠ [] := by
    rintro rfl
    rw [List.flatten_nil, List.length_nil] at htotal
    omega
  have hblock : b ≤ ps.flatten.length := by
    rw [length_flatten_whole hps]
    exact Nat.le_mul_of_pos_left b (List.length_pos_iff.mpr hne)
  have hcut : ps.flatten.take 8 ++ (ps.flatten.drop 8 ++ tail) = lengthField.toList ++ m := by
    rw [← List.append_assoc, List.take_append_drop, hflat]
  obtain ⟨hfield, hmessage⟩ := List.append_inj hcut (by rw [List.length_take, Vector.length_toList]; omega)
  have hemit := emitAll_encrypted hinv readLength h8 hne hps
  rw [hfield, hread] at hemit
  obtain ⟨hlast, hdec⟩ := hinv _ (xxteaPadTail_length htail)
  have hrest := finalize_trims (d := ⟨some m.length, ps.flatten.length - 8⟩) decrypt rfl hlast hdec
    (by simp only; omega)
  obtain ⟨e, f, g, he, hf, hg, hphase⟩ := xxteaDecrypt_session decrypt readLength hready hmax hlegal hb hcuts
    (List.forall_mem_map.mpr fun p hp => (hinv p (hps p hp)).1) hlast
    (by rw [hemit]; exact hrest)
  rw [hemit] at hf
  exact ⟨e, f, g, _, tail, he, hf, hg, hphase, hmessage⟩

end

/-- Settles O54: the encrypt session determines the ciphertext, whose blocks the decrypt session undoes. -/
theorem xxteaDecryptReturnsTheMessage : Obligations.XxteaDecryptReturnsTheMessage := by
  unfold Obligations.XxteaDecryptReturnsTheMessage
  intro encrypt decrypt readLength b lengthField chunks cuts s s' e f g first blocks last hready hready' hmax hmax'
    hlegal hb hb' hinv hread hlong hstart hchunks hfinish hcuts
  obtain ⟨h8, -⟩ := (xxteaBlockLegal_iff b).mp hlegal
  have h1 : 1 ≤ b := by omega
  obtain ⟨t, u, v, first', blocks', hstart', hchunks', hh, hout, hfinish', -⟩ :=
    xxteaEncrypt_session encrypt lengthField chunks hready hmax hlegal hb
  obtain ⟨rfl, rfl⟩ := Prod.mk.inj (Except.ok.inj (hstart'.symm.trans hstart))
  obtain ⟨rfl, rfl⟩ := Prod.mk.inj (Except.ok.inj (hchunks'.symm.trans hchunks))
  obtain ⟨-, rfl⟩ := Prod.mk.inj (Except.ok.inj (hfinish'.symm.trans hfinish))
  rw [hout] at hcuts
  exact xxteaDecrypt_of_encrypted hinv hready' hmax' hlegal hb' hread hlong (feedSpec_nil_flatten h1 _)
    (feedSpec_nil_block_length h1 _) hh.le hcuts

end Sys2Proof.Machine

/-! PROOF. The exceptions (60_exceptions.md): what an illegal word and a rejected command raise and take (R132, R133, R140,
R142), that every command has a next state (R149), that only RESET leaves ERROR (R145), and the waits: what they keep and
what ends them (R154). -/

namespace Sys2Proof.Machine

/-! ## Illegal words -/

theorem runWord_illegal {w : Word} {e : DecodeError} (h : decode w = .error e) (s : State) :
    runWord w s = .next (raiseError .illegalCommand (argField w) s) := by
  simp only [runWord, h]

/-- Settles O9: by the decoder's classification the word is no INIT, no FEED and not FLUSH's one word. -/
theorem illegalWordRaisesIllegalCommand : Obligations.IllegalWordRaisesIllegalCommand := by
  unfold Obligations.IllegalWordRaisesIllegalCommand
  intro s w ws hs hc hw
  obtain ⟨-, -, -, hillegal⟩ := decodeClassifiesEveryWord w
  have hflush : w ≠ 0x30000000#32 := by
    rintro rfl
    revert hw
    decide
  obtain ⟨e, he⟩ := hillegal (by omega) (by omega) hflush
  rw [step_takes_word hs hc, runWord_illegal he]
  rfl

/-! ## Commands in every phase -/

/-- Settles O12: between commands the invariant has nothing in flight, and the command answers. -/
theorem everyCommandAnswersInEveryPhase : Obligations.EveryCommandAnswersInEveryPhase := by
  unfold Obligations.EveryCommandAnswersInEveryPhase
  intro i s hi h hs
  obtain ⟨hrem, hsent⟩ := h.at_ready hs
  obtain ⟨t, ht, -⟩ := exec_legal hi h.core hrem hsent
  exact ⟨t, ht⟩

/-! ## A rejected FEED -/

theorem feedPhaseError_eq_none_iff (p : Phase) : feedPhaseError p = none ↔ p = .active := by
  cases p <;> simp [feedPhaseError]

theorem startFeed_rejected {s : State} {e : ErrorCode} (h : feedPhaseError s.phase = some e) (l : Nat) :
    startFeed l s = { s with rem := l, mode := .drain, feedArg := zext28 l, sent := 0 } := by
  simp only [startFeed, h]

/-- A rejected FEED with its payload there drains it and raises its phase's error (R142). -/
theorem exec_feed_rejected {s : State} {e : ErrorCode} (h : feedPhaseError s.phase = some e) {l : Nat}
    (hl : l ≤ s.dataIn.length) :
    exec (.feed l) s = .next (raiseError e (zext28 l)
      { s with dataIn := s.dataIn.drop l, rem := 0, mode := .drain, feedArg := zext28 l, sent := 0 }) := by
  have hloop := takePayload_drain (s := { s with rem := l, mode := .drain, feedArg := zext28 l, sent := 0 }) rfl
    (s.dataIn.take l) (s.dataIn.drop l) (by simpa using hl)
  rw [List.take_append_drop] at hloop
  rw [exec, execFeed, startFeed_rejected h, hloop]
  simp only [finishFeed, h]

/-- A rejected FEED with too few payload bytes takes those and waits in DataIn. -/
theorem exec_feed_rejected_short {s : State} {e : ErrorCode} (h : feedPhaseError s.phase = some e) {l : Nat}
    (hl : s.dataIn.length < l) :
    exec (.feed l) s = .next { s with
      dataIn := [], rem := l - s.dataIn.length, mode := .drain, feedArg := zext28 l, sent := 0, stage := .payload } := by
  rw [exec, execFeed, startFeed_rejected h]
  exact takePayload_drain_short rfl hl

/-- Settles O21: with its payload there the FEED is rejected as its phase says (R133, R134, R136); with less it waits in
DataIn, whatever the error to come. -/
theorem rejectedFeedDrainsItsPayload : Obligations.RejectedFeedDrainsItsPayload := by
  unfold Obligations.RejectedFeedDrainsItsPayload
  intro l s hp
  refine ⟨fun hl => ?_, fun hl => ?_⟩
  · cases hph : s.phase with
    | idle => exact exec_feed_rejected (e := .notConfigured) (by rw [hph]; rfl) hl
    | active => exact absurd hph hp
    | flushed => exact exec_feed_rejected (e := .feedAfterFlush) (by rw [hph]; rfl) hl
    | error => exact exec_feed_rejected (e := .sessionTerminated) (by rw [hph]; rfl) hl
  · obtain ⟨e, he⟩ := Option.ne_none_iff_exists'.mp (mt (feedPhaseError_eq_none_iff s.phase).mp hp)
    exact exec_feed_rejected_short he hl

/-! ## ERROR -/

/-- Settles O29, command by command: each phase check finds ERROR first. -/
theorem terminatedSessionRejectsEveryCommand : Obligations.TerminatedSessionRejectsEveryCommand := by
  unfold Obligations.TerminatedSessionRejectsEveryCommand
  intro s w ws hs hc hp
  refine ⟨?_, fun l hw hl => ?_⟩
  · rintro (⟨b, hw⟩ | hw)
    · have he : initError s.phase b s.bMax = some .sessionTerminated := by rw [hp]; rfl
      rw [step_takes_word hs hc, runWord_of_decode hw, exec_init_error (s := { s with cmdIn := ws }) he,
        (fields_of_decode hw).2]
      rfl
    · have he : flushPhaseError s.phase = some .sessionTerminated := by rw [hp]; rfl
      rw [step_takes_word hs hc, runWord_of_decode hw, exec_flush_error (s := { s with cmdIn := ws }) he,
        (fields_of_decode hw).2]
      rfl
  · have he : feedPhaseError s.phase = some .sessionTerminated := by rw [hp]; rfl
    rw [step_takes_word hs hc, runWord_of_decode hw, exec_feed_rejected (s := { s with cmdIn := ws }) he hl,
      (fields_of_decode hw).2]
    rfl

/-- Settles O30: INIT and FLUSH lead on only from IDLE and ACTIVE, so a step that is no RESET keeps ERROR. -/
theorem onlyResetLeavesError : Obligations.OnlyResetLeavesError := by
  unfold Obligations.OnlyResetLeavesError
  intro s t h hp ht
  rcases step_sessionTo ht with ⟨-, ms, hms⟩ | hs
  · rw [step_move hms] at ht
    exact .inr ⟨ms, hms, (Host.Outcome.next.inj ht).symm⟩
  · refine .inl ?_
    cases hs with
    | kept hkept _ => exact hkept.trans hp
    | configured hidle _ _ => cases hp.symm.trans hidle
    | flushed hs _ _ =>
      have hact : s.phase = .active := hs.elim id fun hstage => (h.at_flushEmit hstage).1
      cases hp.symm.trans hact
    | failed herror _ => exact herror

/-! ## Waits -/

/-- In the invariant an Emit that waits has bytes left to place. -/
theorem State.Inv.sent_lt_of_emits {s : State} (h : s.Inv) (hs : s.stage = .flushEmit ∨ ∃ b, s.stage = .absorbEmit b) :
    s.sent < s.clen := by
  have hst := h.stageLegal
  rcases hs with hs | ⟨b, hs⟩
  · simp only [State.StageLegal, hs] at hst
    exact hst.2.2
  · simp only [State.StageLegal, hs] at hst
    obtain ⟨-, -, -, hlt, -⟩ := hst
    exact hlt

/-- A waiting chunker's turn changes nothing (R154). -/
theorem chunkerTurn_waits {s : State} (h : s.Inv) (hw : s.Waits) : chunkerTurn s = .next s := by
  cases hs : s.stage with
  | ready =>
    simp only [State.Waits, hs] at hw
    exact chunkerTurn_no_word hs hw
  | payload =>
    simp only [State.Waits, hs] at hw
    obtain ⟨hrem, -⟩ : 1 ≤ s.rem ∧ _ := by simpa only [State.StageLegal, hs] using h.stageLegal
    rw [chunkerTurn_payload hs, hw, takePayload, if_neg (Nat.one_le_iff_ne_zero.mp hrem), ← hw, ← hs]
  | absorbEmit b =>
    simp only [State.Waits, hs] at hw
    obtain ⟨-, -, hfull, -⟩ := h.at_absorbEmit hs
    have hlt : s.sent < s.blockSize := hfull ▸ h.sent_lt_of_emits (.inr ⟨b, hs⟩)
    rcases absorbOnFull_cases b s with ⟨hall, -, -⟩ | ⟨-, he⟩ | ⟨hzero, -⟩
    · rw [placeCarry_held hw] at hall
      exact absurd hlt (Nat.not_lt.mpr hall)
    · rw [placeCarry_held hw, ← hs] at he
      simp only [chunkerTurn_absorbEmit hs, resumeAbsorb, he]
    · omega
  | flushEmit =>
    simp only [State.Waits, hs] at hw
    have hlt := h.sent_lt_of_emits (.inl hs)
    rw [chunkerTurn_flushEmit hs, emitTail_waits h.core.clen_le (by rwa [placeCarry_held hw]), placeCarry_held hw, ← hs]
  | respond w =>
    simp only [State.Waits, hs] at hw
    rw [chunkerTurn_respond hs, respond_waits (by simp [hw]), ← hs]

/-- Settles O35: each of the five is a wait. -/
theorem waitsKeepTheWholeState : Obligations.WaitsKeepTheWholeState := by
  unfold Obligations.WaitsKeepTheWholeState
  intro s h hsched
  have hkeep (hw : s.Waits) : step s = .next s := (step_no_move hsched).trans (chunkerTurn_waits h hw)
  refine ⟨fun hs hw => hkeep ?_, fun hs hw => hkeep ?_, fun b hs hw => hkeep ?_, fun hs hw => hkeep ?_,
    fun w hs hw => hkeep ?_⟩ <;> simpa only [State.Waits, hs]

/-! ## What ends a wait -/

/-- The chunker's own state is the same in `s` and `t`: only the channels, their room and the schedule may differ. -/
structure State.KeepsChunker (s t : State) : Prop where
  stage : t.stage = s.stage
  phase : t.phase = s.phase
  bsize : t.bsize = s.bsize
  carry : t.carry = s.carry
  clen : t.clen = s.clen
  rem : t.rem = s.rem
  mode : t.mode = s.mode
  blocks : t.blocks = s.blocks
  sent : t.sent = s.sent
  feedArg : t.feedArg = s.feedArg

theorem State.KeepsChunker.refl (s : State) : s.KeepsChunker s := ⟨rfl, rfl, rfl, rfl, rfl, rfl, rfl, rfl, rfl, rfl⟩

/-- The chunker's turn ends no wait. -/
theorem not_ends_chunker (s : State) : ¬ Move.chunker.Ends s := by
  cases hs : s.stage <;> simp [Move.Ends, hs]

/-- A move other than RESET leaves the state of a waiting chunker as it is. -/
theorem makeMove_keepsChunker {m : Move} {s t : State} (hinv : s.Inv) (hw : s.Waits) (hm : m ≠ .reset)
    (ht : makeMove m s = .next t) : s.KeepsChunker t := by
  cases m with
  | chunker => exact Host.Outcome.next.inj ((chunkerTurn_waits hinv hw).symm.trans ht) ▸ .refl s
  | hostWord w => cases ht; exact { State.KeepsChunker.refl s with }
  | hostByte b => cases ht; exact { State.KeepsChunker.refl s with }
  | acceptByte => cases ht; constructor <;> simp
  | acceptWord => cases ht; constructor <;> simp
  | reset => exact absurd rfl hm
  | secondHost => cases ht

/-- After a move other than RESET a waiting chunker waits on, unless the move is the one that its wait waits for: move by
move, and for each by the stage, which says what is waited for. -/
theorem makeMove_waits_iff {m : Move} {s t : State} (hinv : s.Inv) (hw : s.Waits) (hm : m ≠ .reset)
    (ht : makeMove m s = .next t) : t.Waits ↔ ¬ m.Ends s := by
  cases m with
  | chunker =>
    obtain rfl : s = t := Host.Outcome.next.inj ((chunkerTurn_waits hinv hw).symm.trans ht)
    exact iff_of_true hw (not_ends_chunker s)
  | hostWord w =>
    cases ht
    cases hs : s.stage <;> simp_all [State.Waits, Move.Ends]
  | hostByte b =>
    cases ht
    cases hs : s.stage <;> simp_all [State.Waits, Move.Ends]
  | acceptByte =>
    cases ht
    rcases acceptByte_cases s with ⟨hnone, he⟩ | ⟨b, bs, hsome, he⟩
    · rw [he]
      cases hs : s.stage <;> simp_all [State.Waits, Move.Ends]
    · rw [he]
      cases hs : s.stage <;> simp_all [State.Waits, Move.Ends]
  | acceptWord =>
    cases ht
    rcases acceptWord_cases s with ⟨hnone, he⟩ | ⟨w, ws, hsome, he⟩
    · rw [he]
      cases hs : s.stage <;> simp_all [State.Waits, Move.Ends]
    · rw [he]
      cases hs : s.stage <;> simp_all [State.Waits, Move.Ends]
  | reset => exact absurd rfl hm
  | secondHost => cases ht

/-- Settles O49: no move but RESET touches the waiting chunker's own state, and it waits on after all but one. -/
theorem onlyTheElementWaitedForEndsAWait : Obligations.OnlyTheElementWaitedForEndsAWait := by
  unfold Obligations.OnlyTheElementWaitedForEndsAWait
  intro s t m ms hw hinv hsched hm ht
  rw [step_move hsched] at ht
  have hkeep := makeMove_keepsChunker (s := { s with schedule := ms }) hinv hw hm ht
  have hiff : t.Waits ↔ ¬ m.Ends s := makeMove_waits_iff (s := { s with schedule := ms }) hinv hw hm ht
  exact ⟨fun hends => ⟨fun hwt => hiff.mp hwt hends, hkeep.stage⟩, fun hends => ⟨hiff.mpr hends, hkeep.stage,
    hkeep.phase, hkeep.bsize, hkeep.carry, hkeep.clen, hkeep.rem, hkeep.mode, hkeep.blocks, hkeep.sent, hkeep.feedArg⟩⟩

/-! ## An Emit with room for one byte -/

/-- DATA_OUT holds the bytes `d` and is held back. -/
def State.HeldWith (d : List Byte) (s : State) : Prop := s.dataRoom = .upTo 0 ∧ s.dataOut = d

theorem absorbOnFull_heldWith {d : List Byte} {b : Byte} {s t : State} (h : s.HeldWith d)
    (ht : absorbOnFull b s = .done t ∨ absorbOnFull b s = .wait t) : t.HeldWith d := by
  rcases absorbOnFull_cases b s with ⟨-, -, he⟩ | ⟨-, he⟩ | ⟨-, he⟩
  · obtain rfl : _ = t := by simpa [he] using ht
    rw [placeCarry_held h.1]
    exact h
  · obtain rfl : _ = t := by simpa [he] using ht
    rw [placeCarry_held h.1]
    exact h
  · simp [he] at ht

/-- A payload byte places nothing while DATA_OUT is held back. -/
theorem usePayloadByte_heldWith {d : List Byte} {b : Byte} {s t : State} (h : s.HeldWith d)
    (ht : usePayloadByte b s = .done t ∨ usePayloadByte b s = .wait t) : t.HeldWith d := by
  cases hm : s.mode with
  | drain =>
    obtain rfl : s = t := by simpa [usePayloadByte_drain hm] using ht
    exact h
  | absorb =>
    rw [usePayloadByte_absorb hm] at ht
    rcases absorb_cases b s with ⟨-, ha⟩ | ⟨-, ha⟩
    · rcases appendCarry_cases b s with ⟨-, he⟩ | ⟨-, he⟩
      · obtain rfl : _ = t := by simpa [ha, he] using ht
        exact h
      · simp [ha, he] at ht
    · exact absorbOnFull_heldWith h (ha ▸ ht)

theorem finishFeed_dataOut (s : State) : (finishFeed s).dataOut = s.dataOut := by
  unfold finishFeed
  split <;> simp

/-- The payload loop places nothing while DATA_OUT is held back. -/
theorem takePayload_held {d bs : List Byte} {s t : State} (h : s.HeldWith d) (ht : takePayload bs s = .next t) :
    t.dataOut = d := by
  obtain ⟨bs', u, hu, hend⟩ := takePayload_next (P := fun _ u => u.HeldWith d)
    (fun _ _ _ _ hu _ hv => usePayloadByte_heldWith (by exact hu) (.inl hv)) h ht
  rcases hend with ⟨-, rfl⟩ | ⟨-, -, rfl⟩ | ⟨b, bs, -, -, hw⟩
  · exact (finishFeed_dataOut _).trans hu.2
  · exact hu.2
  · exact (usePayloadByte_heldWith (by exact hu) (.inr hw)).2

/-- With room for one byte an Emit that has bytes left places the next one. -/
theorem placeCarry_one {s : State} {n : Nat} (h : s.dataRoom = .upTo 1) (hlt : s.sent < n) :
    placeCarry n s =
      { s with dataOut := s.dataOut ++ [s.carry.cell s.sent], sent := s.sent + 1, dataRoom := .upTo 0 } :=
  placeCarry_upTo h hlt

/-- From `s` to `u` the Emit in progress places exactly its next byte; with bytes left it waits again. -/
def State.EmitsOne (s u : State) : Prop :=
  u.dataOut = s.dataOut ++ [s.carry.cell s.sent] ∧
    (s.sent + 1 < s.clen → u.stage = s.stage ∧ u.sent = s.sent + 1 ∧ u.dataRoom = .upTo 0)

theorem emitTail_emitsOne {s u : State} (hs : s.stage = .flushEmit) (hroom : s.dataRoom = .upTo 1)
    (hlt : s.sent < s.clen) (hu : emitTail s = .next u) : s.EmitsOne u := by
  have hone := placeCarry_one hroom hlt
  rcases emitCarry_cases s.clen s with ⟨-, hall, he⟩ | ⟨-, -, he⟩ | ⟨-, he⟩
  · simp only [emitTail, he, Host.Outcome.next.injEq] at hu
    rw [hone] at hall
    exact ⟨by simp [← hu, hone], fun hleft => absurd hleft (Nat.not_lt.mpr hall)⟩
  · simp only [emitTail, he, Host.Outcome.next.injEq] at hu
    rw [← hu, hone]
    exact ⟨rfl, fun _ => ⟨hs.symm, rfl, rfl⟩⟩
  · simp [emitTail, he] at hu

theorem resumeAbsorb_emitsOne {s u : State} {b : Byte} (hs : s.stage = .absorbEmit b) (hroom : s.dataRoom = .upTo 1)
    (hfull : s.clen = s.blockSize) (hlt : s.sent < s.clen) (hu : resumeAbsorb b s = .next u) : s.EmitsOne u := by
  have hone := placeCarry_one hroom (hfull ▸ hlt)
  rcases absorbOnFull_cases b s with ⟨hall, -, he⟩ | ⟨-, he⟩ | ⟨-, he⟩
  · simp only [resumeAbsorb, he] at hu
    rw [hone] at hall hu
    exact ⟨takePayload_held (by exact ⟨rfl, rfl⟩) hu, fun hleft => absurd hleft (Nat.not_lt.mpr (hfull ▸ hall))⟩
  · simp only [resumeAbsorb, he, Host.Outcome.next.injEq] at hu
    rw [← hu, hone]
    exact ⟨rfl, fun _ => ⟨hs.symm, rfl, rfl⟩⟩
  · simp [resumeAbsorb, he] at hu

/-- With room for one byte, a turn of a chunker that stands in an Emit places exactly the next one. -/
theorem chunkerTurn_emitsOne {s u : State} (h : s.Inv) (hs : s.stage = .flushEmit ∨ ∃ b, s.stage = .absorbEmit b)
    (hroom : s.dataRoom = .upTo 1) (hu : chunkerTurn s = .next u) : s.EmitsOne u := by
  have hlt := h.sent_lt_of_emits hs
  rcases hs with hs | ⟨b, hs⟩
  · exact emitTail_emitsOne hs hroom hlt (chunkerTurn_flushEmit hs ▸ hu)
  · obtain ⟨-, -, hfull, -⟩ := h.at_absorbEmit hs
    exact resumeAbsorb_emitsOne hs hroom hfull hlt (chunkerTurn_absorbEmit hs ▸ hu)

/-- An Emit waits while DATA_OUT is held back. -/
theorem State.waits_of_emits {s : State} (hs : s.stage = .flushEmit ∨ ∃ b, s.stage = .absorbEmit b)
    (hroom : s.dataRoom = .upTo 0) : s.Waits := by
  rcases hs with hs | ⟨b, hs⟩ <;> simpa only [State.Waits, hs] using hroom

/-- Settles O50: the accepted byte leaves room for one, which the chunker's next turn takes. -/
theorem acceptedByteLetsTheNextOneOut : Obligations.AcceptedByteLetsTheNextOneOut := by
  unfold Obligations.AcceptedByteLetsTheNextOneOut
  intro s b bs h hs hroom hout hsched
  have ht : step s = .next { s with dataOut := bs, dataRoom := .upTo 1, schedule := [] } := by
    obtain ⟨-, -, haccept, -⟩ := hostAndConsumerMoveTheChannels s []
    rw [haccept b bs hsched hout, hroom, Room.regain_upTo]
  have hinv := stepKeepsTheInvariant s _ h ht
  obtain ⟨u, hu, -⟩ := chunkerTurn_legal hinv
  obtain ⟨hplaced, hleft⟩ := chunkerTurn_emitsOne hinv hs rfl hu
  refine ⟨_, u, ht, (step_no_move rfl).trans hu, _, hplaced, rfl, fun hlt => ?_⟩
  obtain ⟨hstage, hsent, hheld⟩ := hleft hlt
  exact ⟨hstage, hsent, State.waits_of_emits (hstage ▸ hs) hheld⟩

end Sys2Proof.Machine

/-! PROOF. Reset and hazards (70_reset_and_hazards.md): the RESET input gives the reset state from any state (R160), and a
FEED whose payload does not arrive is stuck (R166). -/

namespace Sys2Proof.Machine

/-! ## The RESET input -/

/-- Settles O3: the step is `assertReset`, whose state has no word to take. -/
theorem resetInputRestoresEveryState : Obligations.ResetInputRestoresEveryState := by
  unfold Obligations.ResetInputRestoresEveryState
  intro s ms h
  exact ⟨assertReset { s with schedule := ms }, step_move h, rfl, rfl, rfl, rfl, rfl, rfl, rfl, rfl, rfl, rfl, rfl, rfl,
    rfl, rfl, (step_no_move rfl).trans (chunkerTurn_no_word rfl rfl)⟩

/-! ## A FEED whose payload does not arrive -/

/-- A FEED between two payload bytes that no Emit can hold up: DATA_OUT is not held back, and the carry it absorbs into
is within the block. -/
structure State.Unhindered (s : State) : Prop where
  room : s.dataRoom = .unlimited
  sent : s.sent = 0
  carry : s.mode = .absorb → 1 ≤ s.blockSize ∧ s.clen ≤ s.blockSize

/-- Such a FEED uses its payload byte and is ready for the next. -/
theorem usePayloadByte_unhindered {s : State} (h : s.Unhindered) (b : Byte) :
    ∃ t, usePayloadByte b s = .done t ∧ t.Unhindered ∧ t.rem = s.rem := by
  cases hm : s.mode with
  | drain => exact ⟨s, usePayloadByte_drain hm b, h, rfl⟩
  | absorb =>
    obtain ⟨hb, hc⟩ := h.carry hm
    rw [usePayloadByte_absorb hm]
    rcases Nat.lt_or_eq_of_le hc with hlt | hfull
    · exact ⟨_, absorb_room hlt b, ⟨h.room, h.sent, fun _ => ⟨hb, hlt⟩⟩, rfl⟩
    · exact ⟨_, absorb_full hfull hb h.sent (by rw [h.room, Room.grant_unlimited]) b,
        ⟨by simp [h.room], rfl, fun _ => ⟨hb, hb⟩⟩, rfl⟩

/-- With too few payload bytes, the loop takes them all and waits in DataIn. -/
theorem takePayload_short {s u : State} {bs : List Byte} (h : s.WorksTo u) (hbs : bs <:+ s.dataIn)
    (hfree : u.Unhindered) (hlen : bs.length < u.rem) :
    ∃ t, takePayload bs u = .next t ∧ t.stage = .payload ∧ t.rem = u.rem - bs.length ∧ t.dataIn = [] ∧
      s.WorksTo t := by
  induction bs generalizing u with
  | nil =>
    exact ⟨{ u with dataIn := [], stage := .payload }, by rw [takePayload, if_neg (Nat.ne_zero_of_lt hlen)], rfl, rfl,
      rfl, { h with dataIn := List.nil_suffix }⟩
  | cons b bs ih =>
    have hbs' := (List.suffix_cons b bs).trans hbs
    have htaken : State.Unhindered { u with dataIn := bs, rem := u.rem - 1 } := { hfree with }
    obtain ⟨v, hv, hvfree, hvrem⟩ := usePayloadByte_unhindered htaken b
    obtain ⟨t, ht, hstage, hrem, hin, hworks⟩ := ih ((h.takes hbs' _).trans (usePayloadByte_from b _ v (.inl hv))) hbs'
      hvfree (hvrem ▸ Nat.lt_sub_of_add_lt hlen)
    refine ⟨t, (takePayload_cons (Nat.ne_zero_of_lt hlen) hv).trans ht, hstage, ?_, hin, hworks⟩
    rw [hrem, hvrem, List.length_cons, Nat.sub_sub, Nat.add_comm 1]

theorem chunkerTurn_starved {s : State} (hs : s.stage = .payload) (hin : s.dataIn = []) (hrem : s.rem ≠ 0) :
    chunkerTurn s = .next s := by
  rw [chunkerTurn_payload hs, hin, takePayload, if_neg hrem, ← hin, ← hs]

/-- A step that changes nothing can be taken any number of times. -/
theorem run_of_step_self {s : State} (h : step s = .next s) (k : Nat) : Host.Core.run Sys2Proof.core k s = .next s := by
  induction k with
  | zero => rfl
  | succ k ih => rw [run_succ_next h, ih]

theorem startFeed_unhindered (l : Nat) {s : State} (hroom : s.dataRoom = .unlimited)
    (hcarry : s.phase = .active → 1 ≤ s.blockSize ∧ s.clen ≤ s.blockSize) : (startFeed l s).Unhindered where
  room := by rwa [startFeed_dataRoom]
  sent := startFeed_sent l s
  carry hm := by
    have hp : s.phase = .active := by
      by_contra hne
      simp [startFeed_mode, hne] at hm
    simpa only [State.blockSize, startFeed_bsize, startFeed_clen] using hcarry hp

/-- Settles O22: the payload loop ends in a wait in DataIn, and a chunker that waits there for a byte that does not come
stays as it is; it does not read CMD_IN. -/
theorem shortPayloadLeavesTheChunkerStuck : Obligations.ShortPayloadLeavesTheChunkerStuck := by
  unfold Obligations.ShortPayloadLeavesTheChunkerStuck
  intro l s hl hroom hcarry
  obtain ⟨t, ht, hstage, hrem, hin, hworks⟩ := takePayload_short (startFeed_worksTo l s) List.suffix_rfl
    (startFeed_unhindered l hroom hcarry) (by rwa [startFeed_rem])
  rw [startFeed_rem] at hrem
  have hleft : t.rem ≠ 0 := hrem ▸ Nat.sub_ne_zero_of_lt hl
  refine ⟨t, ht, hstage, hrem, hin, hworks.rspOut, hworks.cmdIn, hworks.phase, fun k ws => ?_⟩
  have hstuck : chunkerTurn { t with schedule := [], cmdIn := ws } = .next { t with schedule := [], cmdIn := ws } :=
    chunkerTurn_starved hstage hin hleft
  exact run_of_step_self ((step_no_move rfl).trans hstuck) k

end Sys2Proof.Machine
